-- ==== Sys2Proof/Word.lean ====
section
/-! DEFINITION. The word of the machine (00_scope.md R5, 20_memory.md R31): 16 bits, the only unit of storage and of addressing. -/

namespace Sys2Proof

/-- A register, a memory word, an address or an instruction: 16 bits, arithmetic modulo 2^16 (R5). -/
abbrev Word := BitVec 16

/-- The `imm8` field of an I-fmt instruction, the unit an IMM prefix appends (R22, R51). -/
abbrev Byte := BitVec 8

end Sys2Proof
end

