-- ==== Sys2Proof/Config.lean ====
section
/-! DEFINITION. What an implementation fixes (00_scope.md R3) and what the spec leaves open (R6 `draw`): sizes, parameters, free values and the IO oracle. -/

namespace Sys2Proof

/-- The three address spaces (R24). Only the first two are named by a fault. -/
inductive Space where
  | prog
  | data
deriving DecidableEq, Repr

/-- An event the CPU hands to the IO agent, recorded in program order (R120 to R123). -/
inductive IoEvent where
  /-- IORR: read request at an IO address (R121). -/
  | readRequest (addr : Word)
  /-- IORD: the data word collected, with the address operand, which is passed on and not used (R122). -/
  | readData (addr value : Word)
  /-- IOWR: write request (R123). -/
  | writeRequest (addr value : Word)
deriving DecidableEq, Repr

/-- Which of the two passages of 90_conflicts.md C1 gives `cc` = 10 and 11 their meaning (R3 `CC_POLARITY`). -/
inductive Polarity where
  /-- the field description, which C1 resolves to: 10 is Z = 0, 11 is Z = 1 -/
  | field
  /-- the suffix table: 10 is Z = 1, 11 is Z = 0 -/
  | suffix
deriving DecidableEq, Repr

/-- `MCSR_LAYOUT` (R3, R20): which functions give the MCSR read value and the two operands that WIN takes from `A`. -/
inductive McsrLayout where
  /-- the table of R20, "no evidence behind it" (D18, D19: log 14) -/
  | provisional
  /-- an unknown layout: the opaque functions `Config.mcsrRead`, `Config.winOpR`, `Config.winOpS` of this number, of which a claim may
  assume what it states and nothing more (R20) -/
  | other (k : Nat)
deriving DecidableEq, Repr

/-- `SPECIAL_OPC` (R3, R60): the lower three opcode bits, within 101xxx, of the Special instructions; the others are reserved. -/
structure SpecialOpc where
  /-- MOVS with `a` = 0, `b` = 0 (R134) -/
  movsNone : BitVec 3
  /-- MOVS with `a` = 0, `b` = 1, and WIN (R131, R135) -/
  movsWrite : BitVec 3
  /-- MOVS with `a` = 1, `b` = 0, and LDI (R130, R136) -/
  movsRead : BitVec 3
  /-- MOVS with `a` = 1, `b` = 1 (R132) -/
  movsSwap : BitVec 3
  imm : BitVec 3
  xcc : BitVec 3
deriving DecidableEq, Repr

/-- The codes as a list. -/
def SpecialOpc.codes (o : SpecialOpc) : List (BitVec 3) := [o.movsNone, o.movsWrite, o.movsRead, o.movsSwap, o.imm, o.xcc]

/-- No two instructions share an opcode. -/
def SpecialOpc.distinct (o : SpecialOpc) : Bool := decide o.codes.Nodup

/-- The open parameters of R3 that a claim must be able to name. They ride in `State.params`; no instruction writes them (log 8). -/
structure Params where
  /-- `PROG_WORDS`: words of SPRAM -/
  progWords : Nat
  /-- `DATA_WORDS`: words of data RAM, which also fix the width of `winS` (R13) and the top window of bank R (R12) -/
  dataWords : Nat
  /-- `BOOT_ADDR`: where the ROM is mapped and execution starts -/
  bootAddr : Word
  /-- `LINK_OFFSET`: return address = pc + this (R147) -/
  linkOffset : Word
  /-- `REL_BASE`: relative target = pc + this + offset (R149) -/
  relBase : Word
  /-- `CC_POLARITY` (R146) -/
  ccPolarity : Polarity
  /-- `STP_FETCH_WINDOW` (R44) -/
  stpFetchWindow : Nat
  /-- `MCSR_LAYOUT` (R20) -/
  mcsr : McsrLayout
  /-- `SPECIAL_OPC` (R60) -/
  special : SpecialOpc
deriving DecidableEq, Repr

/-- Values that a machine can have: `winS` has a whole number of bits (R13: log2(`DATA_WORDS`/4)), 16 registers fit in data RAM (R12),
an address has 16 bits (R5), and no two Special instructions share an opcode. -/
def Params.ok (p : Params) : Bool :=
  (List.range 13).any (fun k => p.dataWords == 2 ^ (k + 4)) && decide (p.progWords ≤ 2 ^ 16) && p.special.distinct

/-- The open values of 16 bits: each constructor is one place where the spec says `draw(16)`. -/
inductive FreeWord where
  /-- `A` read right after LDP (R178) -/
  | aAfterLdp
  /-- a data word read right after it was written (R175) -/
  | dataAfterWrite
  /-- IORD while no read data is ready (R120, R122) -/
  | ioNotReady
deriving DecidableEq, Repr

/-- The open values of one bit. -/
inductive FreeBit where
  /-- `C` after a logic operation (R72) -/
  | carry
  /-- `V` after a logic or a one-operand operation (R72, R91) -/
  | overflow
deriving DecidableEq, Repr

namespace Config

/-- `PROG_WORDS` of the default configuration (R3, source: 16k). -/
def progWords : Nat := 16384

/-- `DATA_WORDS` of the default configuration (R3, source: 256). -/
def dataWords : Nat := 256

/-- R3 `BOOT_ROM_WORDS` (source: 16; R36 writes the number into its map). -/
def bootRomWords : Nat := 16

/-- UNVERIFIED, unsafe: the provisional opcodes of R60 (D17: log 15), those of spec/opcode_table.json: the move is 1010ab. -/
def specialDefault : SpecialOpc :=
  { movsNone := 0b000, movsWrite := 0b001, movsRead := 0b010, movsSwap := 0b011, imm := 0b100, xcc := 0b110 }

/-- The second reading that R60 names, with `a` at opcode bit 10 and `b` at bit 11: the opcodes of write and read change places. -/
def specialSecond : SpecialOpc := { specialDefault with movsWrite := 0b010, movsRead := 0b001 }

/-- The parameters after reset: the values of R3 where it gives one (those without evidence are UNVERIFIED, unsafe: log 10 to 15) and, for
`BOOT_ADDR`, which has none, an address outside the SPRAM (DESIGN CHOICE, unsafe: log 7). -/
def paramsAtReset : Params :=
  { progWords := progWords, dataWords := dataWords, bootAddr := 0x8000, linkOffset := 2, relBase := 1, ccPolarity := .field,
    stpFetchWindow := 4, mcsr := .provisional, special := specialDefault }

/-- A free word (R6 `draw(16)`): the value number `n` of the kind named, of which nothing is known. -/
opaque freeWord : Nat → FreeWord → Word

/-- A free bit (R6 `draw(1)`). -/
opaque freeBit : Nat → FreeBit → Bool

/-- `mcsr_read` of the unknown layout number `k` (R20), a function of Z, C, N, V, `winR` and `winS`. -/
opaque mcsrRead (k : Nat) (z c n v : Bool) (winR : BitVec 1) (winS : BitVec 14) : Word

/-- `opR` of the unknown layout number `k` (R20). -/
opaque winOpR (k : Nat) (a : Word) : BitVec 1

/-- `opS` of the unknown layout number `k` (R20). -/
opaque winOpS (k : Nat) (a : Word) : BitVec 14

/-- What LDP reads from a program word that nothing has written: "SPRAM cannot be initialized", `BOOT_ROM` is open (R25). -/
opaque unwrittenProg : Word → Word

/-- The IO oracle (R3 `IO_DEVICES`, R120): `io_req_ready` after step `n`, given the requests so far. -/
opaque ioReqReady : Nat → List IoEvent → Bool

/-- The IO oracle: `io_read_ready` after step `n`. -/
opaque ioReadReady : Nat → List IoEvent → Bool

/-- The IO oracle: the word it holds for the last read request after step `n`. -/
opaque ioData : Nat → List IoEvent → Word

end Config

end Sys2Proof
end

