-- ==== Sys2Proof/Syntax.lean ====
section
/-! DEFINITION. The instructions, one constructor for each row of spec/opcode_table.json (30_encoding.md R50 to R65). -/

namespace Sys2Proof

/-- Bank of a general register: bit 4 of the `reg` field (R11, R52). -/
inductive Bank where
  | r
  | s
deriving DecidableEq, Repr

/-- A general register `R0`..`RF` or `S0`..`SF` (R11). -/
structure Gpr where
  bank : Bank
  num : BitVec 4
deriving DecidableEq, Repr

/-- The `d` field: where a G-fmt result goes (R52, R55). -/
inductive Dst where
  | a
  | gpr
deriving DecidableEq, Repr

/-- The `src` field of a two-operand G-fmt instruction: (OpA, OpB) (R55). -/
inductive Src2 where
  /-- 00: "A, GPR" -/
  | aGpr
  /-- 01: "A, Immediate" -/
  | aImm
  /-- 10: "GPR, A" -/
  | gprA
  /-- 11: "GPR, Immediate" -/
  | gprImm
deriving DecidableEq, Repr

/-- The `src` field of a one-operand instruction: only 01 and 11 are valid (R90). -/
inductive Src1 where
  | a
  | gpr
deriving DecidableEq, Repr

/-- An index register: `sel` = 00 or 01 (R53). -/
inductive Idx where
  | x
  | y
deriving DecidableEq, Repr

/-- A post-modification: `mod` = 10 or 11 (R53, R54). -/
inductive Post where
  | inc
  | dec
deriving DecidableEq, Repr

/-- The `cc` field (R145, R146). `z0` is code 10 and `z1` code 11, whatever the polarity. -/
inductive Cond where
  | never
  | always
  | z0
  | z1
deriving DecidableEq, Repr

/-- The instructions. An I-fmt operand is the 9-bit value {s, imm8} (R51); a G-fmt operand is `d`, `src`, `reg` (R52);
an S-fmt operand is the index register and `imm4`, with a post-modification in the rows that have one (R53). -/
inductive Instr where
  | addNwI (i : BitVec 9)
  | addNwG (d : Dst) (src : Src2) (r : Gpr)
  | addcyNwI (i : BitVec 9)
  | addcyNwG (d : Dst) (src : Src2) (r : Gpr)
  | cmpI (i : BitVec 9)
  | cmpG (d : Dst) (src : Src2) (r : Gpr)
  | subcyNwI (i : BitVec 9)
  | subcyNwG (d : Dst) (src : Src2) (r : Gpr)
  | testI (i : BitVec 9)
  | testG (d : Dst) (src : Src2) (r : Gpr)
  | andnNwI (i : BitVec 9)
  | andnNwG (d : Dst) (src : Src2) (r : Gpr)
  | orNwI (i : BitVec 9)
  | orNwG (d : Dst) (src : Src2) (r : Gpr)
  | xorNwI (i : BitVec 9)
  | xorNwG (d : Dst) (src : Src2) (r : Gpr)
  | addI (i : BitVec 9)
  | addG (d : Dst) (src : Src2) (r : Gpr)
  | addcyI (i : BitVec 9)
  | addcyG (d : Dst) (src : Src2) (r : Gpr)
  | subI (i : BitVec 9)
  | subG (d : Dst) (src : Src2) (r : Gpr)
  | subcyI (i : BitVec 9)
  | subcyG (d : Dst) (src : Src2) (r : Gpr)
  | andI (i : BitVec 9)
  | andG (d : Dst) (src : Src2) (r : Gpr)
  | andnI (i : BitVec 9)
  | andnG (d : Dst) (src : Src2) (r : Gpr)
  | orI (i : BitVec 9)
  | orG (d : Dst) (src : Src2) (r : Gpr)
  | xorI (i : BitVec 9)
  | xorG (d : Dst) (src : Src2) (r : Gpr)
  | inc (d : Dst) (src : Src1) (r : Gpr)
  | dec (d : Dst) (src : Src1) (r : Gpr)
  | rol (d : Dst) (src : Src1) (r : Gpr)
  | sl0 (d : Dst) (src : Src1) (r : Gpr)
  | sl1 (d : Dst) (src : Src1) (r : Gpr)
  | slc (d : Dst) (src : Src1) (r : Gpr)
  | ror (d : Dst) (src : Src1) (r : Gpr)
  | sr0 (d : Dst) (src : Src1) (r : Gpr)
  | sra (d : Dst) (src : Src1) (r : Gpr)
  | src (d : Dst) (src : Src1) (r : Gpr)
  | ldpI (i : BitVec 9)
  | ldpX
  | stpI (i : BitVec 9)
  | stpX
  | lddI (i : BitVec 9)
  | lddS (r : Idx) (k : BitVec 4)
  | lddSPost (p : Post) (r : Idx) (k : BitVec 4)
  | stdI (i : BitVec 9)
  | stdS (r : Idx) (k : BitVec 4)
  | stdSPost (p : Post) (r : Idx) (k : BitVec 4)
  | movAReg (r : Gpr)
  | movRegA (r : Gpr)
  | iorrI (i : BitVec 9)
  | iorrS (r : Idx) (k : BitVec 4)
  | iorrSPost (p : Post) (r : Idx) (k : BitVec 4)
  | iordI (i : BitVec 9)
  | iordS (r : Idx) (k : BitVec 4)
  | iordSPost (p : Post) (r : Idx) (k : BitVec 4)
  | iowrI (i : BitVec 9)
  | iowrS (r : Idx) (k : BitVec 4)
  | iowrSPost (p : Post) (r : Idx) (k : BitVec 4)
  | movsRead (r : Idx)
  | movsReadPost (p : Post) (r : Idx)
  | movsReadMcsr
  | movsReadBswap
  | movsWrite (r : Idx)
  | win (k : BitVec 4)
  | movsSwap (r : Idx)
  | movsSwapMcsr (k : BitVec 4)
  | movsNone
  /-- MOVS with no transfer and `sel` not 00, beside its row of the table (R134 restricts `mod` and `imm4` only; log 57): `sel` is a
  field of the word without effect. With `sel` = 00 it is `movsNone`. -/
  | movsNoneSel (sel : BitVec 2)
  | ldi (i : BitVec 9)
  | imm (i : BitVec 9)
  | xcc (i : BitVec 9)
  | ba (cc : Cond) (i : BitVec 9)
  | br (cc : Cond) (i : BitVec 9)
  | bal (cc : Cond) (i : BitVec 9)
  | brl (cc : Cond) (i : BitVec 9)
  | bax (cc : Cond)
  | brx (cc : Cond)
  | balx (cc : Cond)
  | brlx (cc : Cond)
  /-- NOP, the word 0xC200: BA with `cc` = never and immediate 0, under its own name (R65, D24; log 16). -/
  | nop
deriving DecidableEq, Repr

end Sys2Proof
end

