-- ==== Sys2Proof/WellFormed.lean ====
section
/-! DEFINITION. Which terms of `Instr` stand for an instruction word. The field types admit no other ill-formed term:
an operand value that the spec excludes (R61) has no term at all. -/

namespace Sys2Proof

/-- The word 0xC200 is NOP (R65), so BA with `cc` = never and {s, imm8} = 0 is written `nop`, not `ba .never 0` (log 16);
and MOVS with no transfer and `sel` = 00 is written `movsNone`, not `movsNoneSel 0` (log 57). -/
def Instr.spelledOnce : Instr → Bool
  | .ba .never i => i != 0
  | .movsNoneSel sel => sel != 0
  | _ => true

/-- The one check of well-formedness. -/
def Instr.wellFormed (i : Instr) : Bool := i.spelledOnce

end Sys2Proof
end

