-- ==== Sys2Proof/Decode.lean ====
section
/-! DEFINITION. Decoding and encoding (30_encoding.md R50 to R65). The opcodes of the Special class (101xxx) are the
parameter `SPECIAL_OPC` (R60), an argument here; its default is the assignment of spec/opcode_table.json (log 15). -/

namespace Sys2Proof

/-- Encodings the source itself excludes: R61 items 1 to 7. -/
inductive IllegalEncoding where
  /-- item 1: an opcode absent from the sub-op tables (R61, R124) -/
  | reservedOpcode
  /-- item 2: an opcode in a format not valid for it (R59, R101) -/
  | formatNotValid
  /-- item 3: `mod` = 01 (R53, R54) -/
  | modReserved
  /-- item 4: `mod` not 00 with `sel` = 10 or 11 -/
  | modWithoutIndex
  /-- item 5: a data or IO access with `sel` = 10 or 11 -/
  | selNotIndex
  /-- item 5: LDP/STP with `sel` not 00 or `imm4` not 0 (R107) -/
  | progOperand
  /-- item 6: an S-fmt branch with `mod`, `sel` or `imm4` not 0 (R152) -/
  | branchOperand
  /-- item 7: a one-operand instruction with `src` = 00 or 10 (R90) -/
  | oneOperandSrc
deriving DecidableEq, Repr

/-- Encodings on which the source is silent and the spec raises `Unspecified`: R61 items 8 and 9 and the `mod` clause of item 5. -/
inductive OpenEncoding where
  /-- "MOV with non-canonical d/src" (R112, R113) -/
  | movNonCanonical
  /-- "post-modify on program access" (R107) -/
  | progPostModify
  /-- the I-fmt move with `ab` other than 10 (R133 (5)) -/
  | ldiNotAb10
  /-- "imm4 on MOVS" (R130, R131, R133 (1)) -/
  | movsImm4
  /-- "write to BSWAP" (R131, R133 (2)) -/
  | bswapWrite
  /-- "post-modify of a register being written" (R131, R133 (3)) -/
  | movsWritePostModify
  /-- the move with `a` = `b` = 0 and `mod` or `imm4` not 0 (R134) -/
  | movsNoTransferFields
  /-- the move in G-fmt (R133 (4)) -/
  | movsGFormat
deriving DecidableEq, Repr

/-- What the decoder answers for a word that is no instruction. -/
inductive Reject where
  | illegal (why : IllegalEncoding)
  | unspecified (what : OpenEncoding)
deriving DecidableEq, Repr

/-! ## Fields (R50 to R53) -/

/-- Bits 15:10. -/
def opcodeOf (w : Word) : BitVec 6 := w.extractLsb' 10 6

/-- Bits 9:8, which tell the format. -/
def fmtOf (w : Word) : BitVec 2 := w.extractLsb' 8 2

/-- Bits 8:0 of an I-fmt word: {s, imm8}. -/
def immOf (w : Word) : BitVec 9 := w.extractLsb' 0 9

/-- Bit 7 of a G-fmt word. -/
def dOf (w : Word) : BitVec 1 := w.extractLsb' 7 1

/-- Bits 6:5 of a G-fmt word. -/
def srcOf (w : Word) : BitVec 2 := w.extractLsb' 5 2

/-- Bit 4 of a G-fmt word: the bank. -/
def bankOf (w : Word) : BitVec 1 := w.extractLsb' 4 1

/-- Bits 3:0: the register within the bank, or `imm4`. -/
def lowOf (w : Word) : BitVec 4 := w.extractLsb' 0 4

/-- Bits 7:6 of an S-fmt word. -/
def modOf (w : Word) : BitVec 2 := w.extractLsb' 6 2

/-- Bits 5:4 of an S-fmt word. -/
def selOf (w : Word) : BitVec 2 := w.extractLsb' 4 2

def dstOfBit (b : BitVec 1) : Dst := if b = 0#1 then .a else .gpr

def src2OfBits (b : BitVec 2) : Src2 :=
  if b = 0b00#2 then .aGpr else if b = 0b01#2 then .aImm else if b = 0b10#2 then .gprA else .gprImm

/-- R90: "only 01 and 11 being valid". -/
def src1OfBits (b : BitVec 2) : Option Src1 :=
  if b = 0b01#2 then some .a else if b = 0b11#2 then some .gpr else none

def bankOfBit (b : BitVec 1) : Bank := if b = 0#1 then .r else .s

/-- The GPR named by bits 4:0 (R11, R52). -/
def gprOf (w : Word) : Gpr := ⟨bankOfBit (bankOf w), lowOf w⟩

/-- `sel` = 00 or 01 (R53). -/
def idxOfBits (b : BitVec 2) : Option Idx :=
  if b = 0b00#2 then some .x else if b = 0b01#2 then some .y else none

def condOfBits (b : BitVec 2) : Cond :=
  if b = 0b00#2 then .never else if b = 0b01#2 then .always else if b = 0b10#2 then .z0 else .z1

/-- The three uses of `mod` (R53): none, a post-modification, reserved. -/
inductive ModField where
  | none
  | post (p : Post)
  | reserved
deriving DecidableEq, Repr

def modOfBits (b : BitVec 2) : ModField :=
  if b = 0b00#2 then .none else if b = 0b01#2 then .reserved else if b = 0b10#2 then .post .inc else .post .dec

/-! ## Decoding, format by format (R58, R59) -/

/-- The six opcodes of the one-operand class that its table lacks (R61 item 1). -/
def reservedAlu1 (sub : BitVec 4) : Bool := 2 ≤ sub.toNat && sub.toNat ≤ 7

/-- The control-flow class in I-fmt: `l` and `r` are the two upper bits of the sub op, `cc` the lower two (R145). BA never 0 is NOP (R65). -/
def decodeBranchI (sub : BitVec 4) (i : BitVec 9) : Instr :=
  let cc := condOfBits (sub.extractLsb' 0 2)
  match (sub.extractLsb' 2 2).toNat with
  | 0b00 => if cc = .never ∧ i = 0 then .nop else .ba cc i
  | 0b01 => .br cc i
  | 0b10 => .bal cc i
  | _ => .brl cc i

/-- What an opcode 101xxx is (R60). -/
inductive SpecialRole where
  | movsNone
  | movsWrite
  | movsRead
  | movsSwap
  | imm
  | xcc
  | reserved
deriving DecidableEq, Repr

/-- What the opcode 101 followed by `sub` is (R60). -/
def specialRole (o : SpecialOpc) (sub : BitVec 3) : SpecialRole :=
  if sub = o.movsNone then .movsNone
  else if sub = o.movsWrite then .movsWrite
  else if sub = o.movsRead then .movsRead
  else if sub = o.movsSwap then .movsSwap
  else if sub = o.imm then .imm
  else if sub = o.xcc then .xcc
  else .reserved

/-- The Special class in I-fmt (R136 to R138, R133 (5)). -/
def decodeSpecialI (role : SpecialRole) (i : BitVec 9) : Except Reject Instr :=
  match role with
  | .movsNone => .error (.unspecified .ldiNotAb10)
  | .movsWrite => .error (.unspecified .ldiNotAb10)
  | .movsRead => .ok (.ldi i)
  | .movsSwap => .error (.unspecified .ldiNotAb10)
  | .imm => .ok (.imm i)
  | .xcc => .ok (.xcc i)
  | .reserved => .error (.illegal .reservedOpcode)

/-- I-fmt. -/
def decodeI (o : SpecialOpc) (op : BitVec 6) (i : BitVec 9) : Except Reject Instr :=
  match (op.extractLsb' 4 2).toNat, (op.extractLsb' 0 4).toNat with
  | 0b00, 0b0000 => .ok (.addNwI i)
  | 0b00, 0b0001 => .ok (.addcyNwI i)
  | 0b00, 0b0010 => .ok (.cmpI i)
  | 0b00, 0b0011 => .ok (.subcyNwI i)
  | 0b00, 0b0100 => .ok (.testI i)
  | 0b00, 0b0101 => .ok (.andnNwI i)
  | 0b00, 0b0110 => .ok (.orNwI i)
  | 0b00, 0b0111 => .ok (.xorNwI i)
  | 0b00, 0b1000 => .ok (.addI i)
  | 0b00, 0b1001 => .ok (.addcyI i)
  | 0b00, 0b1010 => .ok (.subI i)
  | 0b00, 0b1011 => .ok (.subcyI i)
  | 0b00, 0b1100 => .ok (.andI i)
  | 0b00, 0b1101 => .ok (.andnI i)
  | 0b00, 0b1110 => .ok (.orI i)
  | 0b00, 0b1111 => .ok (.xorI i)
  | 0b01, _ => .error (.illegal (if reservedAlu1 (op.extractLsb' 0 4) then .reservedOpcode else .formatNotValid))
  | 0b10, 0b0000 => .ok (.ldpI i)
  | 0b10, 0b0001 => .ok (.stpI i)
  | 0b10, 0b0010 => .ok (.lddI i)
  | 0b10, 0b0011 => .ok (.stdI i)
  | 0b10, 0b0100 => .ok (.iorrI i)
  | 0b10, 0b0101 => .ok (.iordI i)
  | 0b10, 0b0110 => .ok (.iowrI i)
  | 0b10, 0b0111 => .error (.illegal .reservedOpcode)
  | 0b10, _ => decodeSpecialI (specialRole o (op.extractLsb' 0 3)) i
  | _, _ => .ok (decodeBranchI (op.extractLsb' 0 4) i)

/-- A one-operand instruction, if `src` is valid (R90). -/
def decodeAlu1 (c : Dst → Src1 → Gpr → Instr) (d : Dst) (src : BitVec 2) (r : Gpr) : Except Reject Instr :=
  match src1OfBits src with
  | some one => .ok (c d one r)
  | none => .error (.illegal .oneOperandSrc)

/-- The Special class in G-fmt: no instruction (R133 (4), R59). -/
def rejectSpecialG (role : SpecialRole) : Reject :=
  match role with
  | .movsNone => .unspecified .movsGFormat
  | .movsWrite => .unspecified .movsGFormat
  | .movsRead => .unspecified .movsGFormat
  | .movsSwap => .unspecified .movsGFormat
  | .imm => .illegal .formatNotValid
  | .xcc => .illegal .formatNotValid
  | .reserved => .illegal .reservedOpcode

/-- G-fmt. -/
def decodeG (o : SpecialOpc) (op : BitVec 6) (db : BitVec 1) (sb : BitVec 2) (r : Gpr) : Except Reject Instr :=
  let d := dstOfBit db
  let src := src2OfBits sb
  match (op.extractLsb' 4 2).toNat, (op.extractLsb' 0 4).toNat with
  | 0b00, 0b0000 => .ok (.addNwG d src r)
  | 0b00, 0b0001 => .ok (.addcyNwG d src r)
  | 0b00, 0b0010 => .ok (.cmpG d src r)
  | 0b00, 0b0011 => .ok (.subcyNwG d src r)
  | 0b00, 0b0100 => .ok (.testG d src r)
  | 0b00, 0b0101 => .ok (.andnNwG d src r)
  | 0b00, 0b0110 => .ok (.orNwG d src r)
  | 0b00, 0b0111 => .ok (.xorNwG d src r)
  | 0b00, 0b1000 => .ok (.addG d src r)
  | 0b00, 0b1001 => .ok (.addcyG d src r)
  | 0b00, 0b1010 => .ok (.subG d src r)
  | 0b00, 0b1011 => .ok (.subcyG d src r)
  | 0b00, 0b1100 => .ok (.andG d src r)
  | 0b00, 0b1101 => .ok (.andnG d src r)
  | 0b00, 0b1110 => .ok (.orG d src r)
  | 0b00, 0b1111 => .ok (.xorG d src r)
  | 0b01, 0b0000 => decodeAlu1 .inc d sb r
  | 0b01, 0b0001 => decodeAlu1 .dec d sb r
  | 0b01, 0b1000 => decodeAlu1 .rol d sb r
  | 0b01, 0b1001 => decodeAlu1 .sl0 d sb r
  | 0b01, 0b1010 => decodeAlu1 .sl1 d sb r
  | 0b01, 0b1011 => decodeAlu1 .slc d sb r
  | 0b01, 0b1100 => decodeAlu1 .ror d sb r
  | 0b01, 0b1101 => decodeAlu1 .sr0 d sb r
  | 0b01, 0b1110 => decodeAlu1 .sra d sb r
  | 0b01, 0b1111 => decodeAlu1 .src d sb r
  | 0b01, _ => .error (.illegal .reservedOpcode)
  | 0b10, 0b0010 => if db = 0#1 ∧ sb = 0b10#2 then .ok (.movAReg r) else .error (.unspecified .movNonCanonical)
  | 0b10, 0b0011 => if db = 1#1 ∧ sb = 0b00#2 then .ok (.movRegA r) else .error (.unspecified .movNonCanonical)
  | 0b10, 0b0111 => .error (.illegal .reservedOpcode)
  | 0b10, sub =>
    if 8 ≤ sub then .error (rejectSpecialG (specialRole o (op.extractLsb' 0 3))) else .error (.illegal .formatNotValid)
  | _, _ => .error (.illegal .formatNotValid)

/-- LDP/STP in S-fmt (R107, R61 items 3 to 5). -/
def decodeProgS (i : Instr) (mod sel : BitVec 2) (k : BitVec 4) : Except Reject Instr :=
  if mod = 0b01#2 then .error (.illegal .modReserved)
  else if sel ≠ 0b00#2 ∨ k ≠ 0 then .error (.illegal .progOperand)
  else if mod ≠ 0b00#2 then .error (.unspecified .progPostModify)
  else .ok i

/-- A data or IO access in S-fmt (R54, R61 items 3 and 5). -/
def decodeIndexed (plain : Idx → BitVec 4 → Instr) (post : Post → Idx → BitVec 4 → Instr) (mod sel : BitVec 2) (k : BitVec 4) :
    Except Reject Instr :=
  match modOfBits mod, idxOfBits sel with
  | .reserved, _ => .error (.illegal .modReserved)
  | _, none => .error (.illegal .selNotIndex)
  | .none, some r => .ok (plain r k)
  | .post p, some r => .ok (post p r k)

/-- MOVS with `a` = `b` = 0: "the model allows only `mod` = `00`, `imm4` = 0", whatever `sel` is (R134; log 57). -/
def decodeMovsNone (mod sel : BitVec 2) (k : BitVec 4) : Except Reject Instr :=
  if mod = 0b01#2 then .error (.illegal .modReserved)
  else if mod ≠ 0b00#2 ∧ idxOfBits sel = none then .error (.illegal .modWithoutIndex)
  else if mod = 0b00#2 ∧ k = 0 then .ok (if sel = 0b00#2 then .movsNone else .movsNoneSel sel)
  else .error (.unspecified .movsNoTransferFields)

/-- MOVS read: `a` = 1, `b` = 0 (R130, R133). -/
def decodeMovsRead (mod sel : BitVec 2) (k : BitVec 4) : Except Reject Instr :=
  match modOfBits mod, idxOfBits sel with
  | .reserved, _ => .error (.illegal .modReserved)
  | .post _, none => .error (.illegal .modWithoutIndex)
  | .none, none =>
    if k ≠ 0 then .error (.unspecified .movsImm4) else .ok (if sel = 0b10#2 then .movsReadMcsr else .movsReadBswap)
  | .none, some r => if k ≠ 0 then .error (.unspecified .movsImm4) else .ok (.movsRead r)
  | .post p, some r => if k ≠ 0 then .error (.unspecified .movsImm4) else .ok (.movsReadPost p r)

/-- MOVS write and MOVS swap: `b` = 1 (R131, R132, R133, R135). Neither R133 nor R162 orders two open cases of one word: a write of
BSWAP or a post-modification is reported over `imm4` not 0 (DESIGN CHOICE, safe: log 55). -/
def decodeMovsWrite (plain : Idx → Instr) (window : BitVec 4 → Instr) (mod sel : BitVec 2) (k : BitVec 4) :
    Except Reject Instr :=
  match modOfBits mod, idxOfBits sel with
  | .reserved, _ => .error (.illegal .modReserved)
  | .post _, none => .error (.illegal .modWithoutIndex)
  | .none, none => if sel = 0b10#2 then .ok (window k) else .error (.unspecified .bswapWrite)
  | .post _, some _ => .error (.unspecified .movsWritePostModify)
  | .none, some r => if k ≠ 0 then .error (.unspecified .movsImm4) else .ok (plain r)

/-- The control-flow class in S-fmt: "Only mod=00, 'sel'=00 and imm4=0000 is supported" (R152). -/
def decodeBranchS (sub : BitVec 4) (mod sel : BitVec 2) (k : BitVec 4) : Except Reject Instr :=
  let cc := condOfBits (sub.extractLsb' 0 2)
  if mod ≠ 0b00#2 ∨ sel ≠ 0b00#2 ∨ k ≠ 0 then .error (.illegal .branchOperand)
  else match (sub.extractLsb' 2 2).toNat with
    | 0b00 => .ok (.bax cc)
    | 0b01 => .ok (.brx cc)
    | 0b10 => .ok (.balx cc)
    | _ => .ok (.brlx cc)

/-- The Special class in S-fmt (R130 to R135, R59). -/
def decodeSpecialS (role : SpecialRole) (mod sel : BitVec 2) (k : BitVec 4) : Except Reject Instr :=
  match role with
  | .movsNone => decodeMovsNone mod sel k
  | .movsWrite => decodeMovsWrite .movsWrite .win mod sel k
  | .movsRead => decodeMovsRead mod sel k
  | .movsSwap => decodeMovsWrite .movsSwap .movsSwapMcsr mod sel k
  | .imm => .error (.illegal .formatNotValid)
  | .xcc => .error (.illegal .formatNotValid)
  | .reserved => .error (.illegal .reservedOpcode)

/-- S-fmt. -/
def decodeS (o : SpecialOpc) (op : BitVec 6) (mod sel : BitVec 2) (k : BitVec 4) : Except Reject Instr :=
  match (op.extractLsb' 4 2).toNat, (op.extractLsb' 0 4).toNat with
  | 0b00, _ => .error (.illegal .formatNotValid)
  | 0b01, _ => .error (.illegal (if reservedAlu1 (op.extractLsb' 0 4) then .reservedOpcode else .formatNotValid))
  | 0b10, 0b0000 => decodeProgS .ldpX mod sel k
  | 0b10, 0b0001 => decodeProgS .stpX mod sel k
  | 0b10, 0b0010 => decodeIndexed .lddS .lddSPost mod sel k
  | 0b10, 0b0011 => decodeIndexed .stdS .stdSPost mod sel k
  | 0b10, 0b0100 => decodeIndexed .iorrS .iorrSPost mod sel k
  | 0b10, 0b0101 => decodeIndexed .iordS .iordSPost mod sel k
  | 0b10, 0b0110 => decodeIndexed .iowrS .iowrSPost mod sel k
  | 0b10, 0b0111 => .error (.illegal .reservedOpcode)
  | 0b10, _ => decodeSpecialS (specialRole o (op.extractLsb' 0 3)) mod sel k
  | _, _ => decodeBranchS (op.extractLsb' 0 4) mod sel k

/-- Decoding of one word (R50): bit 9 = 1 is I-fmt, bits 9:8 = 00 is G-fmt, 01 is S-fmt. -/
def decode (o : SpecialOpc) (w : Word) : Except Reject Instr :=
  if fmtOf w = 0b00#2 then decodeG o (opcodeOf w) (dOf w) (srcOf w) (gprOf w)
  else if fmtOf w = 0b01#2 then decodeS o (opcodeOf w) (modOf w) (selOf w) (lowOf w)
  else decodeI o (opcodeOf w) (immOf w)

/-! ## Encoding -/

/-- R51: "| opcode | 1 | s | imm8 |". -/
def iWord (op : BitVec 6) (i : BitVec 9) : Word := op ++ 1#1 ++ i

def dBit : Dst → BitVec 1
  | .a => 0#1
  | .gpr => 1#1

def src2Bits : Src2 → BitVec 2
  | .aGpr => 0b00#2
  | .aImm => 0b01#2
  | .gprA => 0b10#2
  | .gprImm => 0b11#2

def src1Bits : Src1 → BitVec 2
  | .a => 0b01#2
  | .gpr => 0b11#2

def bankBit : Bank → BitVec 1
  | .r => 0#1
  | .s => 1#1

def idxBits : Idx → BitVec 2
  | .x => 0b00#2
  | .y => 0b01#2

def postBits : Post → BitVec 2
  | .inc => 0b10#2
  | .dec => 0b11#2

def condBits : Cond → BitVec 2
  | .never => 0b00#2
  | .always => 0b01#2
  | .z0 => 0b10#2
  | .z1 => 0b11#2

/-- R52: "| opcode | 0 | 0 | d | src | reg |". -/
def gWord (op : BitVec 6) (d : BitVec 1) (src : BitVec 2) (r : Gpr) : Word :=
  op ++ 0b00#2 ++ d ++ src ++ bankBit r.bank ++ r.num

/-- R53: "| opcode | 0 | 1 | mod | sel | imm 4 |". -/
def sWord (op : BitVec 6) (mod sel : BitVec 2) (k : BitVec 4) : Word := op ++ 0b01#2 ++ mod ++ sel ++ k

/-- A two-operand G-fmt word. -/
def g2Word (op : BitVec 6) (d : Dst) (src : Src2) (r : Gpr) : Word := gWord op (dBit d) (src2Bits src) r

/-- A one-operand G-fmt word. -/
def g1Word (op : BitVec 6) (d : Dst) (src : Src1) (r : Gpr) : Word := gWord op (dBit d) (src1Bits src) r

/-- An I-fmt branch: 11 l r cc (R145). -/
def branchWordI (lr : BitVec 2) (cc : Cond) (i : BitVec 9) : Word := iWord (0b11#2 ++ lr ++ condBits cc) i

/-- An S-fmt branch (R152, R153). -/
def branchWordS (lr : BitVec 2) (cc : Cond) : Word := sWord (0b11#2 ++ lr ++ condBits cc) 0b00#2 0b00#2 0b0000#4

/-- The word of an instruction (R50: always one). -/
def encode (o : SpecialOpc) : Instr → Word
  | .addNwI i => iWord 0b000000#6 i
  | .addNwG d src r => g2Word 0b000000#6 d src r
  | .addcyNwI i => iWord 0b000001#6 i
  | .addcyNwG d src r => g2Word 0b000001#6 d src r
  | .cmpI i => iWord 0b000010#6 i
  | .cmpG d src r => g2Word 0b000010#6 d src r
  | .subcyNwI i => iWord 0b000011#6 i
  | .subcyNwG d src r => g2Word 0b000011#6 d src r
  | .testI i => iWord 0b000100#6 i
  | .testG d src r => g2Word 0b000100#6 d src r
  | .andnNwI i => iWord 0b000101#6 i
  | .andnNwG d src r => g2Word 0b000101#6 d src r
  | .orNwI i => iWord 0b000110#6 i
  | .orNwG d src r => g2Word 0b000110#6 d src r
  | .xorNwI i => iWord 0b000111#6 i
  | .xorNwG d src r => g2Word 0b000111#6 d src r
  | .addI i => iWord 0b001000#6 i
  | .addG d src r => g2Word 0b001000#6 d src r
  | .addcyI i => iWord 0b001001#6 i
  | .addcyG d src r => g2Word 0b001001#6 d src r
  | .subI i => iWord 0b001010#6 i
  | .subG d src r => g2Word 0b001010#6 d src r
  | .subcyI i => iWord 0b001011#6 i
  | .subcyG d src r => g2Word 0b001011#6 d src r
  | .andI i => iWord 0b001100#6 i
  | .andG d src r => g2Word 0b001100#6 d src r
  | .andnI i => iWord 0b001101#6 i
  | .andnG d src r => g2Word 0b001101#6 d src r
  | .orI i => iWord 0b001110#6 i
  | .orG d src r => g2Word 0b001110#6 d src r
  | .xorI i => iWord 0b001111#6 i
  | .xorG d src r => g2Word 0b001111#6 d src r
  | .inc d src r => g1Word 0b010000#6 d src r
  | .dec d src r => g1Word 0b010001#6 d src r
  | .rol d src r => g1Word 0b011000#6 d src r
  | .sl0 d src r => g1Word 0b011001#6 d src r
  | .sl1 d src r => g1Word 0b011010#6 d src r
  | .slc d src r => g1Word 0b011011#6 d src r
  | .ror d src r => g1Word 0b011100#6 d src r
  | .sr0 d src r => g1Word 0b011101#6 d src r
  | .sra d src r => g1Word 0b011110#6 d src r
  | .src d src r => g1Word 0b011111#6 d src r
  | .ldpI i => iWord 0b100000#6 i
  | .ldpX => sWord 0b100000#6 0b00#2 0b00#2 0b0000#4
  | .stpI i => iWord 0b100001#6 i
  | .stpX => sWord 0b100001#6 0b00#2 0b00#2 0b0000#4
  | .lddI i => iWord 0b100010#6 i
  | .lddS r k => sWord 0b100010#6 0b00#2 (idxBits r) k
  | .lddSPost p r k => sWord 0b100010#6 (postBits p) (idxBits r) k
  | .stdI i => iWord 0b100011#6 i
  | .stdS r k => sWord 0b100011#6 0b00#2 (idxBits r) k
  | .stdSPost p r k => sWord 0b100011#6 (postBits p) (idxBits r) k
  | .movAReg r => gWord 0b100010#6 0#1 0b10#2 r
  | .movRegA r => gWord 0b100011#6 1#1 0b00#2 r
  | .iorrI i => iWord 0b100100#6 i
  | .iorrS r k => sWord 0b100100#6 0b00#2 (idxBits r) k
  | .iorrSPost p r k => sWord 0b100100#6 (postBits p) (idxBits r) k
  | .iordI i => iWord 0b100101#6 i
  | .iordS r k => sWord 0b100101#6 0b00#2 (idxBits r) k
  | .iordSPost p r k => sWord 0b100101#6 (postBits p) (idxBits r) k
  | .iowrI i => iWord 0b100110#6 i
  | .iowrS r k => sWord 0b100110#6 0b00#2 (idxBits r) k
  | .iowrSPost p r k => sWord 0b100110#6 (postBits p) (idxBits r) k
  | .movsNone => sWord (0b101#3 ++ o.movsNone) 0b00#2 0b00#2 0b0000#4
  | .movsNoneSel sel => sWord (0b101#3 ++ o.movsNone) 0b00#2 sel 0b0000#4
  | .movsWrite r => sWord (0b101#3 ++ o.movsWrite) 0b00#2 (idxBits r) 0b0000#4
  | .win k => sWord (0b101#3 ++ o.movsWrite) 0b00#2 0b10#2 k
  | .movsRead r => sWord (0b101#3 ++ o.movsRead) 0b00#2 (idxBits r) 0b0000#4
  | .movsReadPost p r => sWord (0b101#3 ++ o.movsRead) (postBits p) (idxBits r) 0b0000#4
  | .movsReadMcsr => sWord (0b101#3 ++ o.movsRead) 0b00#2 0b10#2 0b0000#4
  | .movsReadBswap => sWord (0b101#3 ++ o.movsRead) 0b00#2 0b11#2 0b0000#4
  | .movsSwap r => sWord (0b101#3 ++ o.movsSwap) 0b00#2 (idxBits r) 0b0000#4
  | .movsSwapMcsr k => sWord (0b101#3 ++ o.movsSwap) 0b00#2 0b10#2 k
  | .ldi i => iWord (0b101#3 ++ o.movsRead) i
  | .imm i => iWord (0b101#3 ++ o.imm) i
  | .xcc i => iWord (0b101#3 ++ o.xcc) i
  | .ba cc i => branchWordI 0b00#2 cc i
  | .br cc i => branchWordI 0b01#2 cc i
  | .bal cc i => branchWordI 0b10#2 cc i
  | .brl cc i => branchWordI 0b11#2 cc i
  | .bax cc => branchWordS 0b00#2 cc
  | .brx cc => branchWordS 0b01#2 cc
  | .balx cc => branchWordS 0b10#2 cc
  | .brlx cc => branchWordS 0b11#2 cc
  | .nop => 0xC200#16

/-- The instruction read from a word numbered as spec/opcode_table.json numbers its bits. Every instruction is one 16-bit
word (R50): a row of more than 16 bits does not exist. The table writes the Special class with the default opcodes of R60. -/
def decodeTableWord (nbits w : Nat) : Option Instr :=
  if nbits ≤ 16 then
    match decode Config.specialDefault (BitVec.ofNat 16 (w % 2 ^ nbits)) with
    | .ok i => some i
    | .error _ => none
  else none

end Sys2Proof
end

