-- ==== Sys2Proof/Machine/State.lean ====
section
/-! DEFINITION. The state of the machine (10_state.md R10 to R26), what can stop a step, and the state after reset (R25, R170). -/

namespace Sys2Proof.Machine

/-- What the spec calls `Unspecified(what)` (R160): a combination of instructions or operands that the source leaves open.
Every one stops the run, which is safe: the hardware does something the spec does not say. -/
inductive Unspecified where
  /-- an encoding the source is silent on; raised by `step` when it decodes (R61 items 8, 9, R107) -/
  | encoding (what : OpenEncoding)
  /-- "I-fmt after two IMM" (R56); raised by every I-fmt instruction but IMM -/
  | iAfterTwoImm
  /-- "G-fmt immediate without exactly two IMM" (R56); raised by two-operand G-fmt instructions with `src` = 01 or 11 -/
  | gWithoutTwoImm
  /-- "IMM before an instruction that takes no immediate" (R56); raised by every other G-fmt and every S-fmt instruction -/
  | immWithoutUse
  /-- "three IMM" (R22, R137); raised by IMM -/
  | threeImm
  /-- "IMM in delay slot" (R155); raised by IMM -/
  | immInDelaySlot
  /-- "branch in delay slot" (R154); raised by control-flow instructions other than the NOP form -/
  | branchInDelaySlot
  /-- "S window past end of data RAM" (R11); raised by an access to a GPR of bank S -/
  | sWindowPastEnd
  /-- a write into the ROM range (R36, R106, "store to boot ROM" in D3); raised by STP -/
  | storeToRom
  /-- "IO request while not ready" (R120); raised by IORR and IOWR -/
  | ioNotReady
  /-- "XCC immediate" (R138); raised by XCC -/
  | xccImmediate
  /-- "link after program access" (R177, R156): the return address is not described; raised by a taken control-flow instruction with
  `l` = 1 right after LDP or STP -/
  | linkAfterProg
  /-- "read of unwritten state" (R25, R173), for a program word that nothing has written; raised by the fetch of a step -/
  | unwritten
deriving DecidableEq, Repr

/-- What the spec calls `Hazard(what)` (R160): software broke a rule of R175 to R182. Every one stops the run, which is safe: D26 calls
the stop "the conservative treatment". The two reads that the source itself calls undefined values go on with a free value: a data
word right after its write (R175; log 20) and `A` right after LDP (R178; log 22). -/
inductive Hazard where
  /-- "consecutive program accesses" (R179); raised by LDP and STP -/
  | consecutiveProg
  /-- "fetch after STP" (R44, R181; log 13); raised by `step` -/
  | fetchAfterStp
  /-- "A after LDP" (R178): which write of `A` wins is not said; raised by an instruction that writes `A` right after LDP -/
  | aAfterLdp
  /-- "index register after post-modify" (R176; log 21); raised by an instruction that reads `X` or `Y` right after it changed -/
  | indexLate
  /-- "GPR access after WIN" (R182; log 24); raised by an access to a GPR of a bank whose window a WIN just wrote -/
  | gprAfterWin
deriving DecidableEq, Repr

/-- Why a step stops: the kinds of R160, model-level stops since the hardware has no exception. Each is safe. -/
inductive Fault where
  /-- raised by `step` when the fetched word is no instruction (R61 items 1 to 7) -/
  | illegalInstruction (why : IllegalEncoding)
  /-- raised as the constructors of `Unspecified` say -/
  | unspecified (what : Unspecified)
  /-- raised as the constructors of `Hazard` say -/
  | hazard (what : Hazard)
  /-- an address outside the implemented memory (R33, R36, R38); raised by fetch, LDP, STP, LDD, STD -/
  | badAddress (space : Space) (addr : Word)
deriving DecidableEq, Repr

/-- Why a step has no meaning. -/
inductive Refusal where
  /-- an instruction without a meaning in this model, raised by `exec`; safe; no arm raises it now -/
  | notModelled (mnemonic : String)
deriving DecidableEq, Repr

/-- The four flags (R17). -/
structure Flags where
  z : Bool
  c : Bool
  n : Bool
  v : Bool
deriving DecidableEq, Repr

/-- Words of a memory by address, in one canonical form (`Cells.wf`). The word is the smallest unit there is (R31; log 1). -/
abbrev Cells := List (Nat × Word)

/-- The memories behind the data space and the program space (R24). -/
structure Memory where
  /-- data RAM (R35): an unlisted word reads as 0 (log 2) -/
  data : Cells
  /-- program SPRAM (R36): an unlisted word has no known value (log 3) -/
  sram : Cells
  /-- boot ROM, by offset from `BOOT_ADDR` (R36): an unlisted word has no known value (log 3) -/
  rom : Cells
deriving DecidableEq, Repr

/-- A program-memory access (R177 to R179). -/
inductive ProgAccess where
  | load
  | store
deriving DecidableEq, Repr

/-- What the previous instructions did, kept only to detect hazards (R23; log 48). -/
structure History where
  /-- the data address the previous instruction wrote (R175) -/
  dataWritten : Option Nat
  /-- the previous instruction changed `X` (R176) -/
  xLate : Bool
  /-- the previous instruction changed `Y` (R176) -/
  yLate : Bool
  /-- the previous instruction was LDP or STP (R177 to R179) -/
  lastProg : Option ProgAccess
  /-- the previous instruction was a taken branch whose delay slot comes now (R154, R155) -/
  slot : Bool
  /-- the previous instruction was a WIN that wrote the R window (R182) -/
  winRMoved : Bool
  /-- the previous instruction was a WIN that wrote the S window (R182) -/
  winSMoved : Bool
  /-- what the last `STP_FETCH_WINDOW` instructions stored to, newest first (R44, R181) -/
  stpAddrs : List (Option Word)
deriving DecidableEq, Repr

/-- The machine (R10). -/
structure State where
  /-- accumulator (R14) -/
  a : Word
  /-- index and link register (R15) -/
  x : Word
  /-- index register (R16) -/
  y : Word
  /-- Z C N V (R17) -/
  flags : Flags
  /-- R-bank window (R12) -/
  winR : BitVec 1
  /-- S-bank window (R13), below `DATA_WORDS`/4: 14 bits hold it for every size of data RAM, the default size uses 6 -/
  winS : BitVec 14
  /-- address of the current instruction (R18) -/
  pc : Word
  /-- address of the next instruction (R18) -/
  npc : Word
  /-- pending IMM bytes, oldest first (R22) -/
  immq : List Byte
  /-- data and program memory (R24) -/
  mem : Memory
  /-- `io_req_ready` (R120) -/
  ioReqReady : Bool
  /-- `io_read_ready` (R120) -/
  ioReadReady : Bool
  /-- the word `IoReadData()` returns (R120) -/
  ioData : Word
  /-- the requests handed to the IO agent, oldest first (R120) -/
  ioLog : List IoEvent
  /-- hazard history (R23) -/
  hist : History
  /-- the open parameters (R3); the model's own field, which no instruction writes (log 8) -/
  params : Params
  /-- which free values the current instruction draws (R6); the model's own field (log 17) -/
  freeCount : Nat
deriving DecidableEq, Repr

/-- Where a program address leads (R36 `prog_map`). -/
inductive ProgLoc where
  /-- the boot ROM word at this offset -/
  | rom (offset : Nat)
  /-- the SPRAM word at this address -/
  | sram (addr : Nat)
  /-- no implemented word -/
  | absent
deriving DecidableEq, Repr

/-- How an instruction leaves `pc` and `npc` (R18, R145, R156). -/
inductive Flow where
  /-- not a taken branch: pc <- npc, npc <- npc + 1 -/
  | seq
  /-- a taken branch with its delay slot: pc <- npc, npc <- target -/
  | delayed (target : Word)
  /-- a taken branch whose delay slot is lost: pc <- target, npc <- target + 1 -/
  | now (target : Word)
deriving DecidableEq, Repr

/-- All that one instruction writes, computed from the state before it (R7: every read comes before every write).
`none` leaves the item as it is. -/
structure Effect where
  a : Option Word := none
  x : Option Word := none
  y : Option Word := none
  flags : Option Flags := none
  winR : Option (BitVec 1) := none
  winS : Option (BitVec 14) := none
  /-- the data word stored: address, value -/
  data : Option (Nat × Word) := none
  /-- the program word stored by STP: address, value -/
  stp : Option (Word × Word) := none
  /-- LDP or STP -/
  prog : Option ProgAccess := none
  io : Option IoEvent := none
  /-- the byte an IMM appends -/
  imm : Option Byte := none
  flow : Flow := .seq
deriving DecidableEq, Repr

/-- No hazard pending (R173). -/
def History.empty : History :=
  { dataWritten := none, xLate := false, yLate := false, lastProg := none, slot := false,
    winRMoved := false, winSMoved := false, stpAddrs := [] }

/-- After hardware reset (R25, R170): `pc` = BOOT_ADDR, `npc` = BOOT_ADDR + 1, `immq` empty; what the spec leaves unspecified
holds the value that log 2 to 7, 17 and 28 name (DESIGN CHOICE, unsafe). Of the memories nothing is listed. No hazard is pending: R25 has
no row for the hazard history and R173 says so of the launch state only, so for reset it is a DESIGN CHOICE, unsafe (log 53). -/
def State.reset : State :=
  { a := 0, x := 0, y := 0,
    flags := { z := false, c := false, n := false, v := false },
    winR := 0, winS := 0,
    pc := Config.paramsAtReset.bootAddr, npc := Config.paramsAtReset.bootAddr + 1,
    immq := [],
    mem := { data := [], sram := [], rom := [] },
    ioReqReady := true, ioReadReady := false, ioData := 0, ioLog := [],
    hist := History.empty,
    params := Config.paramsAtReset,
    freeCount := 0 }

end Sys2Proof.Machine
end

