-- ==== Sys2Proof/Machine/Flags.lean ====
section
/-! DEFINITION. What the ALU computes: results and flags (40_alu2.md R71 to R83, 41_alu1.md R90 to R102), and the extended
conditions (45_special.md R138). -/

namespace Sys2Proof.Machine

/-- The two-operand functions, `fff` of the opcode (R70). -/
inductive Alu2Fn where
  | add
  | addcy
  | sub
  | subcy
  | and
  | andn
  | or
  | xor
deriving DecidableEq, Repr

/-- The one-operand functions (R90). -/
inductive Alu1Fn where
  | inc
  | dec
  | rol
  | sl0
  | sl1
  | slc
  | ror
  | sr0
  | sra
  | src
deriving DecidableEq, Repr

/-- `zext_17(x) + zext_17(b) + cin` (R71). -/
def sum17 (x b : Word) (cin : Bool) : BitVec 17 :=
  x.zeroExtend 17 + b.zeroExtend 17 + (BitVec.ofBool cin).zeroExtend 17

/-- Result and flags of a sum (R71; the flag formulas are D7, UNVERIFIED: log 37). -/
def arith (x b : Word) (cin : Bool) : Word × Flags :=
  let sum := sum17 x b cin
  let r : Word := sum.extractLsb' 0 16
  (r, { z := r == 0, c := sum.msb, n := r.msb, v := (x.msb == b.msb) && (r.msb != x.msb) })

/-- Result and flags of a logic operation (R72): `C` and `V` are the free bits `fc` and `fv` (log 18). -/
def logic (r : Word) (fc fv : Bool) : Word × Flags :=
  (r, { z := r == 0, c := fc, n := r.msb, v := fv })

/-- A two-operand function (R73 to R83): `cin` is the flag `C` before the instruction. -/
def alu2 (f : Alu2Fn) (opA opB : Word) (cin fc fv : Bool) : Word × Flags :=
  match f with
  | .add => arith opA opB false
  | .addcy => arith opA opB cin
  | .sub => arith (~~~opA) opB true
  | .subcy => arith (~~~opA) opB cin
  | .and => logic (opA &&& opB) fc fv
  | .andn => logic (~~~opA &&& opB) fc fv
  | .or => logic (opA ||| opB) fc fv
  | .xor => logic (opA ^^^ opB) fc fv

/-- The result of a one-operand function (R92 to R102; D11: log 46). -/
def alu1Result (f : Alu1Fn) (opA : Word) (cin : Bool) : Word :=
  match f with
  | .inc => opA + 1
  | .dec => opA - 1
  | .rol => opA.extractLsb' 0 15 ++ opA.extractLsb' 15 1
  | .sl0 => opA.extractLsb' 0 15 ++ 0#1
  | .sl1 => opA.extractLsb' 0 15 ++ 1#1
  | .slc => opA.extractLsb' 0 15 ++ BitVec.ofBool cin
  | .ror => opA.extractLsb' 0 1 ++ opA.extractLsb' 1 15
  | .sr0 => 0#1 ++ opA.extractLsb' 1 15
  | .sra => opA.extractLsb' 15 1 ++ opA.extractLsb' 1 15
  | .src => BitVec.ofBool cin ++ opA.extractLsb' 1 15

/-- `C` after a one-operand function (R91, D9, UNVERIFIED: log 19). -/
def alu1Carry (f : Alu1Fn) (opA : Word) : Bool :=
  match f with
  | .inc => (sum17 opA 1 false).msb
  | .dec => (sum17 opA 0xFFFF false).msb
  | .rol => opA.msb
  | .sl0 => opA.msb
  | .sl1 => opA.msb
  | .slc => opA.msb
  | .ror => opA.getLsbD 0
  | .sr0 => opA.getLsbD 0
  | .sra => opA.getLsbD 0
  | .src => opA.getLsbD 0

/-- Result and flags of a one-operand function (R91): `V` is the free bit `fv`. -/
def alu1 (f : Alu1Fn) (opA : Word) (cin fv : Bool) : Word × Flags :=
  let r := alu1Result f opA cin
  (r, { z := r == 0, c := alu1Carry f opA, n := r.msb, v := fv })

/-- The extended condition of code `k` (R138), on the flags and readiness bits before the instruction. -/
def extCond (k : BitVec 3) (f : Flags) (reqReady readReady : Bool) : Bool :=
  match k.toNat with
  | 0b000 => f.n
  | 0b001 => f.v
  | 0b010 => reqReady
  | 0b011 => readReady
  | 0b100 => f.c
  | 0b101 => f.n == f.v
  | 0b110 => !f.z && f.c
  | _ => !f.z && (f.n == f.v)

/-- The condition of a branch (R146); the polarity of codes 10 and 11 is `CC_POLARITY` (C1, D30: log 12). -/
def condHolds (p : Polarity) (cc : Cond) (z : Bool) : Bool :=
  match cc, p with
  | .never, _ => false
  | .always, _ => true
  | .z0, .field => !z
  | .z1, .field => z
  | .z0, .suffix => z
  | .z1, .suffix => !z

end Sys2Proof.Machine
end

