-- ==== Sys2Proof/Machine/Ops.lean ====
section
/-! DEFINITION. The named operations over memory and registers, and how an instruction's writes take effect
(00_scope.md R6, R7; 20_memory.md R33, R36; 70_reset_and_hazards.md R175 to R182). The hardware has no exception, so there is
no exception entry and no return from one (R160 to R164). -/

namespace Sys2Proof.Machine

/-! ## Cells: words by address, strictly rising -/

/-- The listed word at `a`, if there is one. -/
def cellGet : Cells → Nat → Option Word
  | [], _ => none
  | (b, v) :: m, a => if a = b then some v else cellGet m a

/-- List the word `v` at `a`, in its place. -/
def cellSet : Cells → Nat → Word → Cells
  | [], a, v => [(a, v)]
  | (b, u) :: m, a, v =>
    if a < b then (a, v) :: (b, u) :: m else if a = b then (a, v) :: m else (b, u) :: cellSet m a v

/-- Unlist the word at `a`. -/
def cellErase : Cells → Nat → Cells
  | [], _ => []
  | (b, u) :: m, a => if a = b then cellErase m a else (b, u) :: cellErase m a

/-- Addresses strictly rising, the first at least `lo`. -/
def risingFrom : Nat → Cells → Bool
  | _, [] => true
  | lo, (b, _) :: m => decide (lo ≤ b) && risingFrom (b + 1) m

/-- Every address is below `n`. -/
def below (n : Nat) (m : Cells) : Bool := m.all fun c => decide (c.1 < n)

/-- No listed word is the value an unlisted data word reads as. -/
def noZero (m : Cells) : Bool := m.all fun c => c.2 != 0

/-- The canonical form of the memories: equal memories are equal data. -/
def Memory.wf (m : Memory) : Bool := (risingFrom 0 m.data && noZero m.data) && risingFrom 0 m.sram && risingFrom 0 m.rom

/-- No memory lists an address that it does not have (R24, R36). -/
def Memory.within (p : Params) (m : Memory) : Bool :=
  below p.dataWords m.data && below p.progWords m.sram && below Config.bootRomWords m.rom

/-! ## The data space (R33, R35) -/

/-- What an unlisted data word reads as: the EBR's initial contents are a configuration input (R25), here 0
(DESIGN CHOICE, unsafe: log 2). -/
def unlistedData : Word := 0

/-- The data word at `a`. -/
def Memory.dataGet (m : Memory) (a : Nat) : Word := (cellGet m.data a).getD unlistedData

/-- Store the data word at `a`, keeping the canonical form. -/
def Memory.dataSet (m : Memory) (a : Nat) (v : Word) : Memory :=
  { m with data := if v = unlistedData then cellErase m.data a else cellSet m.data a v }

/-- The address check of R33: an address at or above `DATA_WORDS` is not implemented (D5; log 31). -/
def dataAddr (s : State) (ea : Word) : Except Fault Nat :=
  if ea.toNat < s.params.dataWords then .ok ea.toNat else .error (.badAddress .data ea)

/-- `MemRead(DATA, a, 1)` (R33): a word the previous instruction wrote reads as a free value (R175; log 20). -/
def readData (s : State) (a : Nat) : Word :=
  if s.hist.dataWritten = some a then Config.freeWord s.freeCount .dataAfterWrite else s.mem.dataGet a

/-! ## The program space (R36) -/

/-- `prog_map` (R36): the ROM has priority over the SPRAM (D3). For a `BOOT_ADDR` above 0xFFF0 the spec does not say whether the 16
words wrap past 0xFFFF (R5): addresses are compared as natural numbers, so the ROM is cut there (DESIGN CHOICE, unsafe: log 52). -/
def progMap (p : Params) (a : Word) : ProgLoc :=
  if p.bootAddr.toNat ≤ a.toNat ∧ a.toNat < p.bootAddr.toNat + Config.bootRomWords then .rom (a.toNat - p.bootAddr.toNat)
  else if a.toNat < p.progWords then .sram a.toNat
  else .absent

/-- The program word listed at `a`, if the address is implemented (R33, R36). -/
def progCell (s : State) (a : Word) : Except Fault (Option Word) :=
  match progMap s.params a with
  | .rom k => .ok (cellGet s.mem.rom k)
  | .sram k => .ok (cellGet s.mem.sram k)
  | .absent => .error (.badAddress .prog a)

/-- `MemRead(PROG, a, 1)` by LDP (R33, R36, R105). A word that nothing has written has no stated value (R25): it is the free
word of that address (log 3). -/
def readProg (s : State) (a : Word) : Except Fault Word :=
  match progCell s a with
  | .ok (some v) => .ok v
  | .ok none => .ok (Config.unwrittenProg a)
  | .error f => .error f

/-- May STP store at `a`? A write into the ROM range is unspecified (R36, R106; log 33). -/
def storeProgCheck (s : State) (a : Word) : Except Fault Unit :=
  match progMap s.params a with
  | .rom _ => .error (.unspecified .storeToRom)
  | .sram _ => .ok ()
  | .absent => .error (.badAddress .prog a)

/-- Store a program word in the SPRAM. -/
def Memory.sramSet (m : Memory) (a : Nat) (v : Word) : Memory := { m with sram := cellSet m.sram a v }

/-! ## Registers -/

/-- `A` as an instruction reads it: right after LDP "its value is undefined", a free value (R178, D26; log 22). -/
def readA (s : State) : Word :=
  if s.hist.lastProg = some .load then Config.freeWord s.freeCount .aAfterLdp else s.a

/-- The index register `r`. -/
def State.idx (s : State) : Idx → Word
  | .x => s.x
  | .y => s.y

/-- Did the previous instruction change the index register (R176)? -/
def idxLate (s : State) : Idx → Bool
  | .x => s.hist.xLate
  | .y => s.hist.yLate

/-- May this instruction write `A`? Not right after LDP: which write wins is not said (R178). -/
def mayWriteA (s : State) : Except Fault Unit :=
  if s.hist.lastProg = some .load then .error (.hazard .aAfterLdp) else .ok ()

/-- `X` or `Y` as an instruction reads it: not right after it changed (R176; for writers other than a post-modification D26; log 21). -/
def readIdx (s : State) (r : Idx) : Except Fault Word :=
  if idxLate s r then .error (.hazard .indexLate) else .ok (s.idx r)

/-- The MCSR read value (R19, R20), by `MCSR_LAYOUT` (log 14). The table of R20 has room for six bits of `winS`.
Right after a WIN it holds the new window, which R135 leaves open (DESIGN CHOICE, unsafe: log 56). -/
def State.mcsr (s : State) : Word :=
  match s.params.mcsr with
  | .provisional =>
    0b00000#5 ++ s.winR ++ s.winS.extractLsb' 0 6 ++ BitVec.ofBool s.flags.v ++ BitVec.ofBool s.flags.n ++ BitVec.ofBool s.flags.c ++
      BitVec.ofBool s.flags.z
  | .other k => Config.mcsrRead k s.flags.z s.flags.c s.flags.n s.flags.v s.winR s.winS

/-- The R operand of WIN (R20, R135). -/
def opR (l : McsrLayout) (v : Word) : BitVec 1 :=
  match l with
  | .provisional => v.extractLsb' 10 1
  | .other k => Config.winOpR k v

/-- The S operand of WIN (R20, R135). -/
def opS (l : McsrLayout) (v : Word) : BitVec 14 :=
  match l with
  | .provisional => (v.extractLsb' 4 6).zeroExtend 14
  | .other k => Config.winOpS k v

/-- `BSWAP(A)` (R21): the two halves exchanged. -/
def bswap (v : Word) : Word := v.extractLsb' 0 8 ++ v.extractLsb' 8 8

/-! ## Writes -/

/-- R18, R145, R156. -/
def newPc (s : State) (e : Effect) : Word :=
  match e.flow with
  | .seq => s.npc
  | .delayed _ => s.npc
  | .now t => t

/-- R18, R145, R156. -/
def newNpc (s : State) (e : Effect) : Word :=
  match e.flow with
  | .seq => s.npc + 1
  | .delayed t => t
  | .now t => t + 1

/-- IMM appends its byte; every other instruction leaves `immq` empty (R22, R56, R137). -/
def newImmq (s : State) (e : Effect) : List Byte :=
  match e.imm with
  | none => []
  | some b => s.immq ++ [b]

/-- The memories after the stores of an instruction. -/
def newMem (s : State) (e : Effect) : Memory :=
  let m := match e.data with
    | none => s.mem
    | some (a, v) => s.mem.dataSet a v
  match e.stp with
  | none => m
  | some (a, v) => m.sramSet a.toNat v

/-- What this instruction leaves for the hazard rules of the next ones (R23, R175 to R182). -/
def newHist (s : State) (e : Effect) : History :=
  { dataWritten := e.data.map Prod.fst
    xLate := e.x.isSome
    yLate := e.y.isSome
    lastProg := e.prog
    slot := match e.flow with | .delayed _ => true | _ => false
    winRMoved := e.winR.isSome
    winSMoved := e.winS.isSome
    stpAddrs := (e.stp.map Prod.fst :: s.hist.stpAddrs).take s.params.stpFetchWindow }

/-- The writes of an instruction take effect and `pc` moves on (R7 steps 7 and 8). -/
def commit (s : State) (e : Effect) : State :=
  { s with
    a := e.a.getD s.a
    x := e.x.getD s.x
    y := e.y.getD s.y
    flags := e.flags.getD s.flags
    winR := e.winR.getD s.winR
    winS := e.winS.getD s.winS
    pc := newPc s e
    npc := newNpc s e
    immq := newImmq s e
    mem := newMem s e
    ioLog := s.ioLog ++ e.io.toList
    hist := newHist s e }

/-- Go on with a value, or stop. -/
def andThen {α β : Type} (r : Except Fault α) (k : α → Except Fault β) : Except Fault β :=
  match r with
  | .ok v => k v
  | .error f => .error f

/-- The outcome of an instruction. A stop leaves no state: the faulted state is never a final state (R160). -/
def run (s : State) (r : Except Fault Effect) : Host.Outcome State Fault Refusal :=
  match r with
  | .ok e => .next (commit s e)
  | .error f => .fault f

/-! ## Around an instruction: fetch, the fetch hazard, the IO agent's turn -/

/-- The instruction word at `a` (R39). An unwritten one is no instruction the model knows: "read of unwritten state"
(R25, R173; log 3). -/
def fetchAt (s : State) (a : Word) : Except Fault Word :=
  match progCell s a with
  | .ok (some v) => .ok v
  | .ok none => .error (.unspecified .unwritten)
  | .error f => .error f

/-- R7 step 1. -/
def fetch (s : State) : Except Fault Word := fetchAt s s.pc

/-- Was the word at `pc` stored by one of the last `STP_FETCH_WINDOW` instructions (R44, R181; log 13)? -/
def fetchHazard (s : State) : Bool := s.hist.stpAddrs.contains (some s.pc)

/-- The fault for a word that is no instruction (R61). -/
def rejectFault : Reject → Fault
  | .illegal why => .illegalInstruction why
  | .unspecified what => .unspecified (.encoding what)

/-- Is this a fault of the IMM-prefix rule (R56), which R162 reports before a hazard? -/
def isPrefixMisuse : Fault → Bool
  | .unspecified .iAfterTwoImm => true
  | .unspecified .gWithoutTwoImm => true
  | .unspecified .immWithoutUse => true
  | .unspecified .threeImm => true
  | _ => false

/-- After an instruction the IO agent answers anew (R120: each value is "a draw of the IO agent at the time it is sampled";
log 28) and the next instruction draws new free values (log 17). -/
def State.tick (t : State) : State :=
  { t with
    ioReqReady := Config.ioReqReady t.freeCount t.ioLog
    ioReadReady := Config.ioReadReady t.freeCount t.ioLog
    ioData := Config.ioData t.freeCount t.ioLog
    freeCount := t.freeCount + 1 }

/-- The outcome of a step whose instruction gave `o`: on a fetch hazard the step stops, with the hazard unless R162 puts
the instruction's own fault first. R162 orders kinds only: a fetch hazard is reported over any other hazard, and over the stops of XCC
immediate, delay slot and link, which count with the access (DESIGN CHOICE, safe: log 55). -/
def settle (hazard : Bool) (o : Host.Outcome State Fault Refusal) : Host.Outcome State Fault Refusal :=
  match o with
  | .next t => if hazard then .fault (.hazard .fetchAfterStp) else .next t.tick
  | .fault f => if hazard && !isPrefixMisuse f then .fault (.hazard .fetchAfterStp) else .fault f
  | .refused r => .refused r

/-- Put a word where `pc` fetches (the loader of log 9), with no hazard from an earlier STP to that place. -/
def placeAtPc (s : State) (w : Word) : State :=
  { s with
    mem := match progMap s.params s.pc with
      | .rom k => { s.mem with rom := cellSet s.mem.rom k w }
      | .sram k => s.mem.sramSet k w
      | .absent => s.mem
    hist := { s.hist with stpAddrs := s.hist.stpAddrs.filter (fun a => a != some s.pc) } }

end Sys2Proof.Machine
end

