-- ==== Sys2Proof/Machine/Operands.lean ====
section
/-! DEFINITION. Operand forms: the effective immediate (30_encoding.md R56), the GPR selector (R55, 10_state.md R11), the indexed
operand (R54), the destination (R55). -/

namespace Sys2Proof.Machine

/-! ## The effective immediate `I` (R56) -/

/-- I-fmt, not IMM: the sign-extended 9-bit value, or the prefix byte over `imm8`. -/
def immI (q : List Byte) (i : BitVec 9) : Except Fault Word :=
  match q with
  | [] => .ok (i.signExtend 16)
  | [h] => .ok (h ++ i.extractLsb' 0 8)
  | _ => .error (.unspecified .iAfterTwoImm)

/-- Two-operand G-fmt with `src` = 01 or 11: the two prefix bytes, the first one high. -/
def immG (q : List Byte) : Except Fault Word :=
  match q with
  | [h, l] => .ok (h ++ l)
  | _ => .error (.unspecified .gWithoutTwoImm)

/-- Every other instruction takes no immediate. -/
def immNone (q : List Byte) : Except Fault Unit :=
  match q with
  | [] => .ok ()
  | _ => .error (.unspecified .immWithoutUse)

/-- The immediate of a two-operand G-fmt instruction; where `src` names none, no byte may be pending and the value is not used. -/
def imm2 (src : Src2) (q : List Byte) : Except Fault Word :=
  match src with
  | .aGpr => andThen (immNone q) fun _ => .ok 0
  | .aImm => immG q
  | .gprA => andThen (immNone q) fun _ => .ok 0
  | .gprImm => immG q

/-! ## General registers (R11 to R13) -/

/-- Did the previous instruction write the window of the bank (R182)? -/
def windowMoved (s : State) : Bank → Bool
  | .r => s.hist.winRMoved
  | .s => s.hist.winSMoved

/-- `gpr_addr` (R11): bank R at the bottom or the top of data RAM, bank S at `4 * winS`; no access right after WIN (R182; log 24). -/
def gprAddr (s : State) (r : Gpr) : Except Fault Nat :=
  if windowMoved s r.bank then .error (.hazard .gprAfterWin)
  else match r.bank with
    | .r => dataAddr s (BitVec.ofNat 16 ((if s.winR = 0 then 0 else s.params.dataWords - 16) + r.num.toNat))
    | .s =>
      if 4 * s.winS.toNat + r.num.toNat < s.params.dataWords then .ok (4 * s.winS.toNat + r.num.toNat)
      else .error (.unspecified .sWindowPastEnd)

/-- `x[i]` (R6, R11). -/
def readGpr (s : State) (r : Gpr) : Except Fault Word :=
  andThen (gprAddr s r) fun a => .ok (readData s a)

/-- `x[i] <- v` (R6, R11). -/
def writeGpr (s : State) (r : Gpr) (v : Word) : Except Fault Effect :=
  andThen (gprAddr s r) fun a => .ok { data := some (a, v) }

/-- (OpA, OpB) of a two-operand G-fmt instruction with immediate `i` (R55). -/
def operands2 (src : Src2) (r : Gpr) (i : Word) (s : State) : Except Fault (Word × Word) :=
  match src with
  | .aGpr => andThen (readGpr s r) fun g => .ok (readA s, g)
  | .aImm => .ok (readA s, i)
  | .gprA => andThen (readGpr s r) fun g => .ok (g, readA s)
  | .gprImm => andThen (readGpr s r) fun g => .ok (g, i)

/-- OpA of a one-operand instruction (R90). -/
def operand1 (src : Src1) (r : Gpr) (s : State) : Except Fault Word :=
  match src with
  | .a => .ok (readA s)
  | .gpr => readGpr s r

/-- May a G-fmt instruction write its result (R178)? -/
def mayWriteDst (d : Dst) (s : State) : Except Fault Unit :=
  match d with
  | .a => mayWriteA s
  | .gpr => .ok ()

/-- The write of a G-fmt result (R55). -/
def writeDst (d : Dst) (r : Gpr) (v : Word) (s : State) : Except Fault Effect :=
  match d with
  | .a => .ok { a := some v }
  | .gpr => writeGpr s r v

/-! ## The indexed operand (R54) -/

/-- `ea = spr + zext_16(imm4)`, from the value before the instruction. -/
def indexedEa (v : Word) (k : BitVec 4) : Word := v + k.zeroExtend 16

/-- The step of a post-modification. -/
def postStep (p : Post) (v : Word) : Word :=
  match p with
  | .inc => v + 1
  | .dec => v - 1

/-- The effect `e` and a write of the index register. -/
def withIdx (e : Effect) (r : Idx) (v : Word) : Effect :=
  match r with
  | .x => { e with x := some v }
  | .y => { e with y := some v }

/-- The effect `e` and the post-modification of the index register `r` with value `v`, if there is one. -/
def postModify (p : Option Post) (r : Idx) (v : Word) (e : Effect) : Effect :=
  match p with
  | none => e
  | some p => withIdx e r (postStep p v)

/-- An S-fmt access: `f` at the effective address, then the post-modification if there is one. -/
def indexed (s : State) (p : Option Post) (r : Idx) (k : BitVec 4) (f : Word → Except Fault Effect) : Except Fault Effect :=
  andThen (immNone s.immq) fun _ => andThen (readIdx s r) fun v => andThen (f (indexedEa v k)) fun e => .ok (postModify p r v e)

end Sys2Proof.Machine
end

