-- ==== Sys2Proof/Machine/Alu1.lean ====
section
/-! DEFINITION. ALU, one operand (41_alu1.md): opcode 01xxxx, G-fmt. -/

namespace Sys2Proof.Machine

/-- The result and flags of function `f`, with the free bit of the current instruction (R90, R91). -/
def alu1At (f : Alu1Fn) (opA : Word) (s : State) : Word × Flags :=
  alu1 f opA s.flags.c (Config.freeBit s.freeCount .overflow)

/-- The template of R90. -/
def alu1Gpr (f : Alu1Fn) (d : Dst) (src : Src1) (r : Gpr) (s : State) : Except Fault Effect :=
  andThen (immNone s.immq) fun _ => andThen (mayWriteDst d s) fun _ => andThen (operand1 src r s) fun opA =>
    andThen (writeDst d r (alu1At f opA s).1 s) fun e => .ok { e with flags := some (alu1At f opA s).2 }

/-- INC (R92). -/
def execInc (d : Dst) (src : Src1) (r : Gpr) (s : State) : Host.Outcome State Fault Refusal := run s (alu1Gpr .inc d src r s)

/-- DEC (R93). -/
def execDec (d : Dst) (src : Src1) (r : Gpr) (s : State) : Host.Outcome State Fault Refusal := run s (alu1Gpr .dec d src r s)

/-- ROL (R94). -/
def execRol (d : Dst) (src : Src1) (r : Gpr) (s : State) : Host.Outcome State Fault Refusal := run s (alu1Gpr .rol d src r s)

/-- SL0 (R95). -/
def execSl0 (d : Dst) (src : Src1) (r : Gpr) (s : State) : Host.Outcome State Fault Refusal := run s (alu1Gpr .sl0 d src r s)

/-- SL1 (R96). -/
def execSl1 (d : Dst) (src : Src1) (r : Gpr) (s : State) : Host.Outcome State Fault Refusal := run s (alu1Gpr .sl1 d src r s)

/-- SLC (R97). -/
def execSlc (d : Dst) (src : Src1) (r : Gpr) (s : State) : Host.Outcome State Fault Refusal := run s (alu1Gpr .slc d src r s)

/-- ROR (R98). -/
def execRor (d : Dst) (src : Src1) (r : Gpr) (s : State) : Host.Outcome State Fault Refusal := run s (alu1Gpr .ror d src r s)

/-- SR0 (R99). -/
def execSr0 (d : Dst) (src : Src1) (r : Gpr) (s : State) : Host.Outcome State Fault Refusal := run s (alu1Gpr .sr0 d src r s)

/-- SRA (R100). -/
def execSra (d : Dst) (src : Src1) (r : Gpr) (s : State) : Host.Outcome State Fault Refusal := run s (alu1Gpr .sra d src r s)

/-- SRC (R102). -/
def execSrc (d : Dst) (src : Src1) (r : Gpr) (s : State) : Host.Outcome State Fault Refusal := run s (alu1Gpr .src d src r s)

end Sys2Proof.Machine
end

