-- ==== Sys2Proof/Machine/Alu2.lean ====
section
/-! DEFINITION. ALU, two operands (40_alu2.md): opcode 00wfff, each function with its result written and not written. -/

namespace Sys2Proof.Machine

/-- The result and flags of function `f` on the operands, with the free bits of the current instruction (R70, R72). -/
def alu2At (f : Alu2Fn) (opA opB : Word) (s : State) : Word × Flags :=
  alu2 f opA opB s.flags.c (Config.freeBit s.freeCount .carry) (Config.freeBit s.freeCount .overflow)

/-- I-fmt: OpA and dst are `A`, OpB is `I` (R70); `w` is the write enable. -/
def alu2Imm (f : Alu2Fn) (w : Bool) (i : BitVec 9) (s : State) : Except Fault Effect :=
  andThen (immI s.immq i) fun opB => andThen (if w then mayWriteA s else .ok ()) fun _ =>
    .ok { a := if w then some (alu2At f (readA s) opB s).1 else none, flags := some (alu2At f (readA s) opB s).2 }

/-- G-fmt: operands by `src`, destination by `d` (R70, R55). -/
def alu2Gpr (f : Alu2Fn) (w : Bool) (d : Dst) (src : Src2) (r : Gpr) (s : State) : Except Fault Effect :=
  andThen (imm2 src s.immq) fun i => andThen (if w then mayWriteDst d s else .ok ()) fun _ => andThen (operands2 src r i s) fun ab =>
    andThen (if w then writeDst d r (alu2At f ab.1 ab.2 s).1 s else .ok {}) fun e =>
      .ok { e with flags := some (alu2At f ab.1 ab.2 s).2 }

/-- ADD.nw, I-fmt (R81). -/
def execAddNwI (i : BitVec 9) (s : State) : Host.Outcome State Fault Refusal := run s (alu2Imm .add false i s)

/-- ADD.nw, G-fmt (R81). -/
def execAddNwG (d : Dst) (src : Src2) (r : Gpr) (s : State) : Host.Outcome State Fault Refusal := run s (alu2Gpr .add false d src r s)

/-- ADDCY.nw, I-fmt (R81). -/
def execAddcyNwI (i : BitVec 9) (s : State) : Host.Outcome State Fault Refusal := run s (alu2Imm .addcy false i s)

/-- ADDCY.nw, G-fmt (R81). -/
def execAddcyNwG (d : Dst) (src : Src2) (r : Gpr) (s : State) : Host.Outcome State Fault Refusal := run s (alu2Gpr .addcy false d src r s)

/-- CMP, I-fmt (R79). -/
def execCmpI (i : BitVec 9) (s : State) : Host.Outcome State Fault Refusal := run s (alu2Imm .sub false i s)

/-- CMP, G-fmt (R79). -/
def execCmpG (d : Dst) (src : Src2) (r : Gpr) (s : State) : Host.Outcome State Fault Refusal := run s (alu2Gpr .sub false d src r s)

/-- SUBCY.nw, I-fmt (R81). -/
def execSubcyNwI (i : BitVec 9) (s : State) : Host.Outcome State Fault Refusal := run s (alu2Imm .subcy false i s)

/-- SUBCY.nw, G-fmt (R81). -/
def execSubcyNwG (d : Dst) (src : Src2) (r : Gpr) (s : State) : Host.Outcome State Fault Refusal := run s (alu2Gpr .subcy false d src r s)

/-- TEST, I-fmt (R80). -/
def execTestI (i : BitVec 9) (s : State) : Host.Outcome State Fault Refusal := run s (alu2Imm .and false i s)

/-- TEST, G-fmt (R80). -/
def execTestG (d : Dst) (src : Src2) (r : Gpr) (s : State) : Host.Outcome State Fault Refusal := run s (alu2Gpr .and false d src r s)

/-- ANDN.nw, I-fmt (R81). -/
def execAndnNwI (i : BitVec 9) (s : State) : Host.Outcome State Fault Refusal := run s (alu2Imm .andn false i s)

/-- ANDN.nw, G-fmt (R81). -/
def execAndnNwG (d : Dst) (src : Src2) (r : Gpr) (s : State) : Host.Outcome State Fault Refusal := run s (alu2Gpr .andn false d src r s)

/-- OR.nw, I-fmt (R81). -/
def execOrNwI (i : BitVec 9) (s : State) : Host.Outcome State Fault Refusal := run s (alu2Imm .or false i s)

/-- OR.nw, G-fmt (R81). -/
def execOrNwG (d : Dst) (src : Src2) (r : Gpr) (s : State) : Host.Outcome State Fault Refusal := run s (alu2Gpr .or false d src r s)

/-- XOR.nw, I-fmt (R81). -/
def execXorNwI (i : BitVec 9) (s : State) : Host.Outcome State Fault Refusal := run s (alu2Imm .xor false i s)

/-- XOR.nw, G-fmt (R81). -/
def execXorNwG (d : Dst) (src : Src2) (r : Gpr) (s : State) : Host.Outcome State Fault Refusal := run s (alu2Gpr .xor false d src r s)

/-- ADD, I-fmt (R73). -/
def execAddI (i : BitVec 9) (s : State) : Host.Outcome State Fault Refusal := run s (alu2Imm .add true i s)

/-- ADD, G-fmt (R73). -/
def execAddG (d : Dst) (src : Src2) (r : Gpr) (s : State) : Host.Outcome State Fault Refusal := run s (alu2Gpr .add true d src r s)

/-- ADDCY, I-fmt (R74). -/
def execAddcyI (i : BitVec 9) (s : State) : Host.Outcome State Fault Refusal := run s (alu2Imm .addcy true i s)

/-- ADDCY, G-fmt (R74). -/
def execAddcyG (d : Dst) (src : Src2) (r : Gpr) (s : State) : Host.Outcome State Fault Refusal := run s (alu2Gpr .addcy true d src r s)

/-- SUB, I-fmt (R75). -/
def execSubI (i : BitVec 9) (s : State) : Host.Outcome State Fault Refusal := run s (alu2Imm .sub true i s)

/-- SUB, G-fmt (R75). -/
def execSubG (d : Dst) (src : Src2) (r : Gpr) (s : State) : Host.Outcome State Fault Refusal := run s (alu2Gpr .sub true d src r s)

/-- SUBCY, I-fmt (R76). -/
def execSubcyI (i : BitVec 9) (s : State) : Host.Outcome State Fault Refusal := run s (alu2Imm .subcy true i s)

/-- SUBCY, G-fmt (R76). -/
def execSubcyG (d : Dst) (src : Src2) (r : Gpr) (s : State) : Host.Outcome State Fault Refusal := run s (alu2Gpr .subcy true d src r s)

/-- AND, I-fmt (R77). -/
def execAndI (i : BitVec 9) (s : State) : Host.Outcome State Fault Refusal := run s (alu2Imm .and true i s)

/-- AND, G-fmt (R77). -/
def execAndG (d : Dst) (src : Src2) (r : Gpr) (s : State) : Host.Outcome State Fault Refusal := run s (alu2Gpr .and true d src r s)

/-- ANDN, I-fmt (R78). -/
def execAndnI (i : BitVec 9) (s : State) : Host.Outcome State Fault Refusal := run s (alu2Imm .andn true i s)

/-- ANDN, G-fmt (R78). -/
def execAndnG (d : Dst) (src : Src2) (r : Gpr) (s : State) : Host.Outcome State Fault Refusal := run s (alu2Gpr .andn true d src r s)

/-- OR, I-fmt (R82). -/
def execOrI (i : BitVec 9) (s : State) : Host.Outcome State Fault Refusal := run s (alu2Imm .or true i s)

/-- OR, G-fmt (R82). -/
def execOrG (d : Dst) (src : Src2) (r : Gpr) (s : State) : Host.Outcome State Fault Refusal := run s (alu2Gpr .or true d src r s)

/-- XOR, I-fmt (R83). -/
def execXorI (i : BitVec 9) (s : State) : Host.Outcome State Fault Refusal := run s (alu2Imm .xor true i s)

/-- XOR, G-fmt (R83). -/
def execXorG (d : Dst) (src : Src2) (r : Gpr) (s : State) : Host.Outcome State Fault Refusal := run s (alu2Gpr .xor true d src r s)

end Sys2Proof.Machine
end

