-- ==== Sys2Proof/Machine/Control.lean ====
section
/-! DEFINITION. Control flow (46_control.md): branches, calls, and NOP. -/

namespace Sys2Proof.Machine

/-- R145: relative or absolute. -/
def branchTarget (rel : Bool) (t : Word) (s : State) : Word :=
  if rel then s.pc + s.params.relBase + t else t

/-- The return address (R147). -/
def linkValue (s : State) : Word := s.pc + s.params.linkOffset

/-- Where control goes (R145); after LDP or STP the delay slot of a taken branch is lost (R156, R177). -/
def branchFlow (taken : Bool) (target : Word) (s : State) : Flow :=
  if taken then (if s.hist.lastProg.isSome then .now target else .delayed target) else .seq

/-- May the instruction write the link? Not if it is taken right after LDP or STP: the return address is not described (R177; log 23). -/
def mayLink (link taken : Bool) (s : State) : Except Fault Unit :=
  if link && taken && s.hist.lastProg.isSome then .error (.unspecified .linkAfterProg) else .ok ()

/-- A control-flow instruction with target operand `t` (R145, R154). -/
def branch (link rel : Bool) (cc : Cond) (t : Word) (s : State) : Except Fault Effect :=
  if s.hist.slot && (link || cc != .never) then .error (.unspecified .branchInDelaySlot)
  else
    let taken := condHolds s.params.ccPolarity cc s.flags.z
    andThen (mayLink link taken s) fun _ =>
      .ok { x := if link then some (linkValue s) else none
            flow := branchFlow taken (branchTarget rel t s) s }

/-- I-fmt: the target operand is `I` (R145). -/
def branchImm (link rel : Bool) (cc : Cond) (i : BitVec 9) (s : State) : Except Fault Effect :=
  andThen (immI s.immq i) fun t => branch link rel cc t s

/-- S-fmt: the target operand is `X`, read before the link is written (R147, R152, R153). -/
def branchX (link rel : Bool) (cc : Cond) (s : State) : Except Fault Effect :=
  andThen (immNone s.immq) fun _ => andThen (readIdx s .x) fun t => branch link rel cc t s

/-- BA (R148). -/
def execBa (cc : Cond) (i : BitVec 9) (s : State) : Host.Outcome State Fault Refusal := run s (branchImm false false cc i s)

/-- BAX (R152). -/
def execBax (cc : Cond) (s : State) : Host.Outcome State Fault Refusal := run s (branchX false false cc s)

/-- BR (R149). -/
def execBr (cc : Cond) (i : BitVec 9) (s : State) : Host.Outcome State Fault Refusal := run s (branchImm false true cc i s)

/-- BRX (R152). -/
def execBrx (cc : Cond) (s : State) : Host.Outcome State Fault Refusal := run s (branchX false true cc s)

/-- BAL (R150). -/
def execBal (cc : Cond) (i : BitVec 9) (s : State) : Host.Outcome State Fault Refusal := run s (branchImm true false cc i s)

/-- BALX (R153). -/
def execBalx (cc : Cond) (s : State) : Host.Outcome State Fault Refusal := run s (branchX true false cc s)

/-- BRL (R151). -/
def execBrl (cc : Cond) (i : BitVec 9) (s : State) : Host.Outcome State Fault Refusal := run s (branchImm true true cc i s)

/-- BRLX (R153). -/
def execBrlx (cc : Cond) (s : State) : Host.Outcome State Fault Refusal := run s (branchX true true cc s)

/-- NOP: BA with `cc` = never and immediate 0 (R65, R146). -/
def execNop (s : State) : Host.Outcome State Fault Refusal := run s (branchImm false false .never 0 s)

end Sys2Proof.Machine
end

