-- ==== Sys2Proof/Machine/DataMem.lean ====
section
/-! DEFINITION. Data memory access (43_datamem.md): LDD, STD, MOV. -/

namespace Sys2Proof.Machine

/-- The load of LDD (R110). -/
def loadData (ea : Word) (s : State) : Except Fault Effect :=
  andThen (mayWriteA s) fun _ => andThen (dataAddr s ea) fun a => .ok { a := some (readData s a) }

/-- The store of STD (R111). -/
def storeData (ea : Word) (s : State) : Except Fault Effect :=
  andThen (dataAddr s ea) fun a => .ok { data := some (a, readA s) }

/-- LDD, absolute address (R110). -/
def execLddI (i : BitVec 9) (s : State) : Host.Outcome State Fault Refusal := run s (andThen (immI s.immq i) fun ea => loadData ea s)

/-- LDD, indexed (R110, R54). -/
def execLddS (r : Idx) (k : BitVec 4) (s : State) : Host.Outcome State Fault Refusal := run s (indexed s none r k fun ea => loadData ea s)

/-- LDD, indexed with post-modification (R110, R54). -/
def execLddSPost (p : Post) (r : Idx) (k : BitVec 4) (s : State) : Host.Outcome State Fault Refusal :=
  run s (indexed s (some p) r k fun ea => loadData ea s)

/-- STD, absolute address (R111). -/
def execStdI (i : BitVec 9) (s : State) : Host.Outcome State Fault Refusal := run s (andThen (immI s.immq i) fun ea => storeData ea s)

/-- STD, indexed (R111, R54). -/
def execStdS (r : Idx) (k : BitVec 4) (s : State) : Host.Outcome State Fault Refusal := run s (indexed s none r k fun ea => storeData ea s)

/-- STD, indexed with post-modification (R111, R54). -/
def execStdSPost (p : Post) (r : Idx) (k : BitVec 4) (s : State) : Host.Outcome State Fault Refusal :=
  run s (indexed s (some p) r k fun ea => storeData ea s)

/-- MOV A, reg (R112). -/
def execMovAReg (r : Gpr) (s : State) : Host.Outcome State Fault Refusal :=
  run s (andThen (immNone s.immq) fun _ => andThen (mayWriteA s) fun _ => andThen (readGpr s r) fun g => .ok { a := some g })

/-- MOV reg, A (R113). -/
def execMovRegA (r : Gpr) (s : State) : Host.Outcome State Fault Refusal :=
  run s (andThen (immNone s.immq) fun _ => writeGpr s r (readA s))

end Sys2Proof.Machine
end

