-- ==== Sys2Proof/Machine/Io.lean ====
section
/-! DEFINITION. IO access (44_io.md): a read request, the collection of its data, a write request. -/

namespace Sys2Proof.Machine

/-- "IO request while not ready" (R120; log 29). -/
def ioReady (s : State) : Except Fault Unit :=
  if s.ioReqReady then .ok () else .error (.unspecified .ioNotReady)

/-- IORR at `ea` (R121). -/
def ioReadRequest (ea : Word) (s : State) : Except Fault Effect :=
  andThen (ioReady s) fun _ => .ok { io := some (.readRequest ea) }

/-- What IORD loads (R122): the IO agent's word, or a free value while none is ready (log 30). -/
def ioWord (s : State) : Word :=
  if s.ioReadReady then s.ioData else Config.freeWord s.freeCount .ioNotReady

/-- IORD: the address operand goes into the event record and is not otherwise used (R122). Whether the very next instruction can use
the word "is not stated": here it can, `A` holds it at once and no hazard is left behind (DESIGN CHOICE, unsafe: log 54). -/
def ioReadData (ea : Word) (s : State) : Except Fault Effect :=
  andThen (mayWriteA s) fun _ => .ok { a := some (ioWord s), io := some (.readData ea (ioWord s)) }

/-- IOWR at `ea` (R123). -/
def ioWriteRequest (ea : Word) (s : State) : Except Fault Effect :=
  andThen (ioReady s) fun _ => .ok { io := some (.writeRequest ea (readA s)) }

/-- IORR, absolute address (R121). -/
def execIorrI (i : BitVec 9) (s : State) : Host.Outcome State Fault Refusal := run s (andThen (immI s.immq i) fun ea => ioReadRequest ea s)

/-- IORR, indexed (R121, R54). -/
def execIorrS (r : Idx) (k : BitVec 4) (s : State) : Host.Outcome State Fault Refusal := run s (indexed s none r k fun ea => ioReadRequest ea s)

/-- IORR, indexed with post-modification (R121, R54). -/
def execIorrSPost (p : Post) (r : Idx) (k : BitVec 4) (s : State) : Host.Outcome State Fault Refusal :=
  run s (indexed s (some p) r k fun ea => ioReadRequest ea s)

/-- IORD, absolute address (R122). -/
def execIordI (i : BitVec 9) (s : State) : Host.Outcome State Fault Refusal := run s (andThen (immI s.immq i) fun ea => ioReadData ea s)

/-- IORD, indexed (R122, R54). -/
def execIordS (r : Idx) (k : BitVec 4) (s : State) : Host.Outcome State Fault Refusal := run s (indexed s none r k fun ea => ioReadData ea s)

/-- IORD, indexed with post-modification (R122, R54). -/
def execIordSPost (p : Post) (r : Idx) (k : BitVec 4) (s : State) : Host.Outcome State Fault Refusal :=
  run s (indexed s (some p) r k fun ea => ioReadData ea s)

/-- IOWR, absolute address (R123). -/
def execIowrI (i : BitVec 9) (s : State) : Host.Outcome State Fault Refusal := run s (andThen (immI s.immq i) fun ea => ioWriteRequest ea s)

/-- IOWR, indexed (R123, R54). -/
def execIowrS (r : Idx) (k : BitVec 4) (s : State) : Host.Outcome State Fault Refusal := run s (indexed s none r k fun ea => ioWriteRequest ea s)

/-- IOWR, indexed with post-modification (R123, R54). -/
def execIowrSPost (p : Post) (r : Idx) (k : BitVec 4) (s : State) : Host.Outcome State Fault Refusal :=
  run s (indexed s (some p) r k fun ea => ioWriteRequest ea s)

end Sys2Proof.Machine
end

