-- ==== Sys2Proof/Machine/ProgMem.lean ====
section
/-! DEFINITION. Program memory access (42_progmem.md): LDP and STP. -/

namespace Sys2Proof.Machine

/-- "Two accesses can't be done right after the other" (R108 (4), R179; log 25). Of LDP right after LDP, which R178 names too, the spec
expects this hazard (95_test_vectors.md, `LDP [0x40]; LDP [0x40]`). -/
def notConsecutive (s : State) : Except Fault Unit :=
  if s.hist.lastProg.isSome then .error (.hazard .consecutiveProg) else .ok ()

/-- LDP from `ea` (R105). -/
def loadProg (ea : Word) (s : State) : Except Fault Effect :=
  andThen (notConsecutive s) fun _ => andThen (readProg s ea) fun v => .ok { a := some v, prog := some .load }

/-- STP to `ea` (R106). -/
def storeProg (ea : Word) (s : State) : Except Fault Effect :=
  andThen (notConsecutive s) fun _ => andThen (storeProgCheck s ea) fun _ =>
    .ok { stp := some (ea, readA s), prog := some .store }

/-- LDP, absolute address (R105). -/
def execLdpI (i : BitVec 9) (s : State) : Host.Outcome State Fault Refusal := run s (andThen (immI s.immq i) fun ea => loadProg ea s)

/-- LDP through `X` (R105, R107). -/
def execLdpX (s : State) : Host.Outcome State Fault Refusal := run s (andThen (immNone s.immq) fun _ => andThen (readIdx s .x) fun ea => loadProg ea s)

/-- STP, absolute address (R106). -/
def execStpI (i : BitVec 9) (s : State) : Host.Outcome State Fault Refusal := run s (andThen (immI s.immq i) fun ea => storeProg ea s)

/-- STP through `X` (R106, R107). -/
def execStpX (s : State) : Host.Outcome State Fault Refusal := run s (andThen (immNone s.immq) fun _ => andThen (readIdx s .x) fun ea => storeProg ea s)

end Sys2Proof.Machine
end

