-- ==== Sys2Proof/Machine/Special.lean ====
section
/-! DEFINITION. Special instructions (45_special.md): MOVS, WIN, LDI, IMM, XCC. -/

namespace Sys2Proof.Machine

/-- An S-fmt move that leaves `A`: no pending IMM (R56), then its effect. -/
def movs (s : State) (e : Effect) : Except Fault Effect := andThen (immNone s.immq) fun _ => .ok e

/-- An S-fmt move to `A` of `v`: no pending IMM, no LDP right before (R178), then the write of `A` with the rest of the effect. -/
def movsToA (s : State) (v : Word) (e : Effect) : Except Fault Effect :=
  andThen (immNone s.immq) fun _ => andThen (mayWriteA s) fun _ => .ok { e with a := some v }

/-- An S-fmt move to `A` of the index register `r`, whose value gives the rest of the effect (R130, R132). -/
def movsIdx (s : State) (r : Idx) (e : Word → Effect) : Except Fault Effect :=
  andThen (immNone s.immq) fun _ => andThen (readIdx s r) fun v => movsToA s v (e v)

/-- The new R window of WIN `k` on operand `v`, if its update is enabled (R135). The old window is the one in force
right after any WIN before it (DESIGN CHOICE, unsafe: log 56). -/
def winNewR (s : State) (k : BitVec 4) (v : Word) : Option (BitVec 1) :=
  if k.getLsbD 3 then some (if k.getLsbD 2 then s.winR + opR s.params.mcsr v else opR s.params.mcsr v) else none

/-- The new S window of WIN `k` on operand `v`, if its update is enabled (R135), modulo the number of windows (R13, D19; log 40). The old
window is the one in force right after any WIN before it (DESIGN CHOICE, unsafe: log 56). -/
def winNewS (s : State) (k : BitVec 4) (v : Word) : Option (BitVec 14) :=
  if k.getLsbD 1 then
    some (BitVec.ofNat 14 (((if k.getLsbD 0 then s.winS.toNat else 0) + (opS s.params.mcsr v).toNat) % (s.params.dataWords / 4)))
  else none

/-- MOVS read of `X` or `Y` (R130). -/
def execMovsRead (r : Idx) (s : State) : Host.Outcome State Fault Refusal := run s (movsIdx s r fun _ => {})

/-- MOVS read with post-modification (R130, R54). -/
def execMovsReadPost (p : Post) (r : Idx) (s : State) : Host.Outcome State Fault Refusal :=
  run s (movsIdx s r fun v => postModify (some p) r v {})

/-- MOVS read of MCSR (R130, R19). -/
def execMovsReadMcsr (s : State) : Host.Outcome State Fault Refusal := run s (movsToA s s.mcsr {})

/-- MOVS read of BSWAP(A) (R130, R21). -/
def execMovsReadBswap (s : State) : Host.Outcome State Fault Refusal := run s (movsToA s (bswap (readA s)) {})

/-- MOVS write of `X` or `Y` (R131). -/
def execMovsWrite (r : Idx) (s : State) : Host.Outcome State Fault Refusal := run s (movs s (withIdx {} r (readA s)))

/-- WIN, the move from `A` to MCSR (R135). -/
def execWin (k : BitVec 4) (s : State) : Host.Outcome State Fault Refusal :=
  run s (movs s { winR := winNewR s k (readA s), winS := winNewS s k (readA s) })

/-- MOVS swap with `X` or `Y` (R132). -/
def execMovsSwap (r : Idx) (s : State) : Host.Outcome State Fault Refusal :=
  run s (movsIdx s r fun _ => withIdx {} r (readA s))

/-- MOVS swap with MCSR: `A` gets the value from before the window change (R132, U15; log 43). -/
def execMovsSwapMcsr (k : BitVec 4) (s : State) : Host.Outcome State Fault Refusal :=
  run s (movsToA s s.mcsr { winR := winNewR s k (readA s), winS := winNewS s k (readA s) })

/-- MOVS with no transfer (R134). -/
def execMovsNone (s : State) : Host.Outcome State Fault Refusal := run s (movs s {})

/-- MOVS with no transfer: nothing is read or written, whatever `sel` names (R134; log 57). -/
def execMovsNoneSel (_sel : BitVec 2) (s : State) : Host.Outcome State Fault Refusal := run s (movs s {})

/-- LDI (R136). -/
def execLdi (i : BitVec 9) (s : State) : Host.Outcome State Fault Refusal := run s (andThen (immI s.immq i) fun v => andThen (mayWriteA s) fun _ => .ok { a := some v })

/-- IMM (R137, R22, R155): the byte is appended, the `s` bit ignored. -/
def immPrefix (i : BitVec 9) (s : State) : Except Fault Effect :=
  if 2 ≤ s.immq.length then .error (.unspecified .threeImm)
  else if s.hist.slot then .error (.unspecified .immInDelaySlot)
  else .ok { imm := some (i.extractLsb' 0 8) }

/-- IMM (R137). -/
def execImm (i : BitVec 9) (s : State) : Host.Outcome State Fault Refusal := run s (immPrefix i s)

/-- The condition an XCC selects: the bits of `I` above bit 2 must be 0 (R138; log 44). R162 does not place
this stop; it counts with the access, after a hazard (DESIGN CHOICE, safe: log 55). -/
def xccOn (v : Word) (s : State) : Except Fault Effect :=
  if v.toNat < 8 then
    .ok { flags := some { s.flags with z := extCond (v.extractLsb' 0 3) s.flags s.ioReqReady s.ioReadReady } }
  else .error (.unspecified .xccImmediate)

/-- XCC (R138). -/
def execXcc (i : BitVec 9) (s : State) : Host.Outcome State Fault Refusal := run s (andThen (immI s.immq i) fun v => xccOn v s)

end Sys2Proof.Machine
end

