-- ==== Sys2Proof/Machine/Dispatch.lean ====
section
/-! DEFINITION. The meaning of each instruction, one arm each (00_scope.md R7). -/

namespace Sys2Proof.Machine

def exec (i : Instr) (s : State) : Host.Outcome State Fault Refusal :=
  match i with
  | .addNwI v => Sys2Proof.Machine.execAddNwI v s
  | .addNwG d src r => Sys2Proof.Machine.execAddNwG d src r s
  | .addcyNwI v => Sys2Proof.Machine.execAddcyNwI v s
  | .addcyNwG d src r => Sys2Proof.Machine.execAddcyNwG d src r s
  | .cmpI v => Sys2Proof.Machine.execCmpI v s
  | .cmpG d src r => Sys2Proof.Machine.execCmpG d src r s
  | .subcyNwI v => Sys2Proof.Machine.execSubcyNwI v s
  | .subcyNwG d src r => Sys2Proof.Machine.execSubcyNwG d src r s
  | .testI v => Sys2Proof.Machine.execTestI v s
  | .testG d src r => Sys2Proof.Machine.execTestG d src r s
  | .andnNwI v => Sys2Proof.Machine.execAndnNwI v s
  | .andnNwG d src r => Sys2Proof.Machine.execAndnNwG d src r s
  | .orNwI v => Sys2Proof.Machine.execOrNwI v s
  | .orNwG d src r => Sys2Proof.Machine.execOrNwG d src r s
  | .xorNwI v => Sys2Proof.Machine.execXorNwI v s
  | .xorNwG d src r => Sys2Proof.Machine.execXorNwG d src r s
  | .addI v => Sys2Proof.Machine.execAddI v s
  | .addG d src r => Sys2Proof.Machine.execAddG d src r s
  | .addcyI v => Sys2Proof.Machine.execAddcyI v s
  | .addcyG d src r => Sys2Proof.Machine.execAddcyG d src r s
  | .subI v => Sys2Proof.Machine.execSubI v s
  | .subG d src r => Sys2Proof.Machine.execSubG d src r s
  | .subcyI v => Sys2Proof.Machine.execSubcyI v s
  | .subcyG d src r => Sys2Proof.Machine.execSubcyG d src r s
  | .andI v => Sys2Proof.Machine.execAndI v s
  | .andG d src r => Sys2Proof.Machine.execAndG d src r s
  | .andnI v => Sys2Proof.Machine.execAndnI v s
  | .andnG d src r => Sys2Proof.Machine.execAndnG d src r s
  | .orI v => Sys2Proof.Machine.execOrI v s
  | .orG d src r => Sys2Proof.Machine.execOrG d src r s
  | .xorI v => Sys2Proof.Machine.execXorI v s
  | .xorG d src r => Sys2Proof.Machine.execXorG d src r s
  | .inc d src r => Sys2Proof.Machine.execInc d src r s
  | .dec d src r => Sys2Proof.Machine.execDec d src r s
  | .rol d src r => Sys2Proof.Machine.execRol d src r s
  | .sl0 d src r => Sys2Proof.Machine.execSl0 d src r s
  | .sl1 d src r => Sys2Proof.Machine.execSl1 d src r s
  | .slc d src r => Sys2Proof.Machine.execSlc d src r s
  | .ror d src r => Sys2Proof.Machine.execRor d src r s
  | .sr0 d src r => Sys2Proof.Machine.execSr0 d src r s
  | .sra d src r => Sys2Proof.Machine.execSra d src r s
  | .src d src r => Sys2Proof.Machine.execSrc d src r s
  | .ldpI v => Sys2Proof.Machine.execLdpI v s
  | .ldpX => Sys2Proof.Machine.execLdpX s
  | .stpI v => Sys2Proof.Machine.execStpI v s
  | .stpX => Sys2Proof.Machine.execStpX s
  | .lddI v => Sys2Proof.Machine.execLddI v s
  | .lddS r k => Sys2Proof.Machine.execLddS r k s
  | .lddSPost p r k => Sys2Proof.Machine.execLddSPost p r k s
  | .stdI v => Sys2Proof.Machine.execStdI v s
  | .stdS r k => Sys2Proof.Machine.execStdS r k s
  | .stdSPost p r k => Sys2Proof.Machine.execStdSPost p r k s
  | .movAReg r => Sys2Proof.Machine.execMovAReg r s
  | .movRegA r => Sys2Proof.Machine.execMovRegA r s
  | .iorrI v => Sys2Proof.Machine.execIorrI v s
  | .iorrS r k => Sys2Proof.Machine.execIorrS r k s
  | .iorrSPost p r k => Sys2Proof.Machine.execIorrSPost p r k s
  | .iordI v => Sys2Proof.Machine.execIordI v s
  | .iordS r k => Sys2Proof.Machine.execIordS r k s
  | .iordSPost p r k => Sys2Proof.Machine.execIordSPost p r k s
  | .iowrI v => Sys2Proof.Machine.execIowrI v s
  | .iowrS r k => Sys2Proof.Machine.execIowrS r k s
  | .iowrSPost p r k => Sys2Proof.Machine.execIowrSPost p r k s
  | .movsRead r => Sys2Proof.Machine.execMovsRead r s
  | .movsReadPost p r => Sys2Proof.Machine.execMovsReadPost p r s
  | .movsReadMcsr => Sys2Proof.Machine.execMovsReadMcsr s
  | .movsReadBswap => Sys2Proof.Machine.execMovsReadBswap s
  | .movsWrite r => Sys2Proof.Machine.execMovsWrite r s
  | .win k => Sys2Proof.Machine.execWin k s
  | .movsSwap r => Sys2Proof.Machine.execMovsSwap r s
  | .movsSwapMcsr k => Sys2Proof.Machine.execMovsSwapMcsr k s
  | .movsNone => Sys2Proof.Machine.execMovsNone s
  | .movsNoneSel sel => Sys2Proof.Machine.execMovsNoneSel sel s
  | .ldi v => Sys2Proof.Machine.execLdi v s
  | .imm v => Sys2Proof.Machine.execImm v s
  | .xcc v => Sys2Proof.Machine.execXcc v s
  | .ba cc v => Sys2Proof.Machine.execBa cc v s
  | .br cc v => Sys2Proof.Machine.execBr cc v s
  | .bal cc v => Sys2Proof.Machine.execBal cc v s
  | .brl cc v => Sys2Proof.Machine.execBrl cc v s
  | .bax cc => Sys2Proof.Machine.execBax cc s
  | .brx cc => Sys2Proof.Machine.execBrx cc s
  | .balx cc => Sys2Proof.Machine.execBalx cc s
  | .brlx cc => Sys2Proof.Machine.execBrlx cc s
  | .nop => Sys2Proof.Machine.execNop s

end Sys2Proof.Machine
end

