-- ==== Sys2Proof/Machine/Step.lean ====
section
/-! DEFINITION. One step of the machine (00_scope.md R7), and a state with a given instruction where the step fetches. -/

namespace Sys2Proof.Machine

/-- Fetch at `pc`, decode, execute; then the IO agent's turn. The order of the stops is R162's: a fetch outside memory, an
illegal word, the IMM-prefix rule, a hazard, the access itself (log 36; what R162 leaves open DESIGN CHOICE, safe: log 55). -/
def step (s : State) : Host.Outcome State Fault Refusal :=
  match fetch s with
  | .error f => .fault f
  | .ok w =>
    match decode s.params.special w with
    | .error r => .fault (rejectFault r)
    | .ok i => settle (fetchHazard s) (exec i s)

/-- `s` with the instruction word `w` at the place `step` fetches from: the SPRAM or ROM word at `pc` (log 9). -/
def State.withFetchWord (s : State) (nbits w : Nat) : State :=
  placeAtPc s (BitVec.ofNat 16 (w % 2 ^ nbits))

end Sys2Proof.Machine
end

