-- ==== Sys2Proof/Machine/Boot.lean ====
section
/-! DEFINITION. The launch state of a model run (70_reset_and_hazards.md R173): what the first-stage boot loader leaves (R171). -/

namespace Sys2Proof.Machine

/-- The words of an image as cells from address `at_` on. -/
def imageCells (at_ : Nat) : List Word → Cells
  | [] => []
  | w :: ws => (at_, w) :: imageCells (at_ + 1) ws

/-- The image as data RAM: a word that reads as an unlisted one is not listed. -/
def imageData (at_ : Nat) : List Word → Cells
  | [] => []
  | w :: ws => if w = unlistedData then imageData (at_ + 1) ws else (at_, w) :: imageData (at_ + 1) ws

/-- The entry of the application (R173): `pc` = 0, `npc` = 1, `immq` empty, no hazard pending, the image, which data RAM can
hold (R172), in program memory from address 0 and still in data RAM. The registers, and the IO side of which R25 says only "platform"
(`io_req_ready` = 1, `io_read_ready` = 0, data word 0), are as after reset (DESIGN CHOICE, unsafe: log 28, 47). -/
def State.launch (image : List Word) : State :=
  { State.reset with
    pc := 0
    npc := 1
    mem := { State.reset.mem with
      sram := imageCells 0 (image.take State.reset.params.dataWords)
      data := imageData 0 (image.take State.reset.params.dataWords) } }

end Sys2Proof.Machine
end

