-- ==== Sys2Proof/Safety.lean ====
section
/-! DEFINITION. What counts as a safe run and as its end (70_reset_and_hazards.md R174), the invariant every step keeps, and the
assumption on the IO agent that a claim may add (44_io.md R120). -/

namespace Sys2Proof.Machine

/-- The invariant of the model's states: the parameters are values a machine can have, the memories are in canonical form and within
their sizes, `winS` is one of the windows of data RAM (R13), at most two IMM bytes are pending (R22), the STP history is no longer than
its window (R44), and a remembered data address exists. -/
def State.inv (s : State) : Bool :=
  s.params.ok &&
  s.mem.wf &&
  s.mem.within s.params &&
  decide (s.winS.toNat < s.params.dataWords / 4) &&
  decide (s.immq.length ≤ 2) &&
  decide (s.hist.stpAddrs.length ≤ s.params.stpFetchWindow) &&
  (match s.hist.dataWritten with
    | none => true
    | some a => decide (a < s.params.dataWords))

/-- The end of a run (R174): `pc` is `HALT_PC`, the word there is an always-taken absolute branch to itself, a NOP follows,
and no IMM is pending. It says nothing about the chip, which goes on for ever (D32; log 50). -/
def State.halted (s : State) (haltPc : Word) : Bool :=
  decide (s.pc = haltPc) && s.immq.isEmpty &&
  (match fetchAt s haltPc, fetchAt s (haltPc + 1) with
    | .ok w, .ok w' =>
      decide (w' = 0xC200#16) &&
      (match decode s.params.special w with
        | .ok (.ba .always i) => decide (i.signExtend 16 = haltPc)
        | _ => false)
    | _, _ => false)

/-- `k` steps from `s` reach `t` with no stop on the way. -/
def Reaches (s : State) (k : Nat) (t : State) : Prop := Sys2Proof.core.run k s = .next t

/-- A run of `k` steps is safe when nothing stops it. -/
def SafeFor (s : State) (k : Nat) : Prop := ∃ t, Reaches s k t

/-- The next instruction of `s` is the XCC that copies a readiness bit into Z: condition `k`, 2 for `ior`, 3 for `iod` (R138). -/
def Samples (s : State) (k : Word) : Prop :=
  ∃ w i, fetch s = .ok w ∧ decode s.params.special w = .ok (.xcc i) ∧ immI s.immq i = .ok k

/-- IORR or IOWR, the instructions that match `io_req_ready` (R120). -/
def IoEvent.isRequest : IoEvent → Bool
  | .readRequest _ => true
  | .readData _ _ => false
  | .writeRequest _ _ => true

/-- IORD, the instruction that matches `io_read_ready` (R120). -/
def IoEvent.isCollect : IoEvent → Bool
  | .readRequest _ => false
  | .readData _ _ => true
  | .writeRequest _ _ => false

/-- No event that `p` holds of was recorded between `t` and the later state `u`. -/
def NoneSince (p : IoEvent → Bool) (t u : State) : Prop := ∀ e ∈ u.ioLog.drop t.ioLog.length, p e = false

/-- `IO_READY_STABLE` (R120), of the run from `s` on: a readiness bit that an XCC sampled as 1 stays 1 until the CPU executes the
matching instruction. Of a bit that no XCC sampled it says nothing. An assumption that a claim may state, not a fact of the spec. -/
def IoReadyStable (s : State) : Prop :=
  ∀ (n m : Nat) (t u : State), Reaches s n t → Reaches t m u →
    (Samples t 2 → t.ioReqReady = true → NoneSince IoEvent.isRequest t u → u.ioReqReady = true) ∧
    (Samples t 3 → t.ioReadReady = true → NoneSince IoEvent.isCollect t u → u.ioReadReady = true)

/-! ## The words of the statements: results as the rules give them, and which instructions a rule names -/

/-- `s` after an instruction that writes no register, flag or memory: `pc` and `npc` move on (R18), `immq` is empty (R22), no
hazard is left behind (R23). -/
def State.advance (s : State) : State :=
  { s with
    pc := s.npc
    npc := s.npc + 1
    immq := []
    hist := { History.empty with stpAddrs := (none :: s.hist.stpAddrs).take s.params.stpFetchWindow } }

/-- `s` after the index register `r` got the value `v`, which the next instruction must not read (R176; log 21). -/
def State.withIdxReg (s : State) (r : Idx) (v : Word) : State :=
  match r with
  | .x => { s with x := v, hist := { s.hist with xLate := true } }
  | .y => { s with y := v, hist := { s.hist with yLate := true } }

/-- `s` after an S-fmt access that wrote nothing but the index register, if it has a post-modification (R54). -/
def State.postModified (s : State) (p : Option Post) (r : Idx) : State :=
  match p with
  | none => s.advance
  | some p => s.advance.withIdxReg r (postStep p (s.idx r))

/-- `t` is `u` but for the memories, where the data word `a` of `s` became `v` and nothing else changed; the next instruction
cannot rely on reading that word (R175). -/
def StoredData (s u t : State) (a : Nat) (v : Word) : Prop :=
  t.mem.dataGet a = v ∧ (∀ b, b ≠ a → t.mem.dataGet b = s.mem.dataGet b) ∧ t.mem.sram = s.mem.sram ∧ t.mem.rom = s.mem.rom ∧
  t = { u with mem := t.mem, hist := { u.hist with dataWritten := some a } }

/-- `s` after a control-flow instruction wrote the link if it has one (R147), control not yet moved off the next word. -/
def State.linked (s : State) (link : Bool) : State :=
  if link then s.advance.withIdxReg .x (linkValue s) else s.advance

/-- Result and flags of `a + b + carry` from exact sums (R71): `C` is a sum of at least 2^16, `V` a signed sum that does not fit. -/
def exactAdd (a b : Word) (carry : Nat) : Word × Flags :=
  let r := a + b + BitVec.ofNat 16 carry
  (r, { z := r == 0, c := decide (2 ^ 16 ≤ a.toNat + b.toNat + carry), n := r.msb, v := decide (r.toInt ≠ a.toInt + b.toInt + carry) })

/-- Result and flags of `b - a - borrow` from exact differences (R71, R75, R76): `C` means no borrow. -/
def exactSub (a b : Word) (borrow : Nat) : Word × Flags :=
  let r := b - a - BitVec.ofNat 16 borrow
  (r, { z := r == 0, c := decide (a.toNat + borrow ≤ b.toNat), n := r.msb, v := decide (r.toInt ≠ b.toInt - a.toInt - borrow) })

/-- The flags after an instruction with result `r` that leaves `V` open, and `C` as given (R72, R91; log 18, 19). -/
def openFlags (s : State) (r : Word) (c : Bool) : Flags :=
  { z := r == 0, c := c, n := r.msb, v := Config.freeBit s.freeCount .overflow }

end Sys2Proof.Machine

namespace Sys2Proof

/-- The ALU instructions, two operands, G-fmt: `src` (R70). -/
def Instr.src2 : Instr → Option Src2
  | .addNwG _ b _ | .addcyNwG _ b _ | .cmpG _ b _ | .subcyNwG _ b _ | .testG _ b _ | .andnNwG _ b _
  | .orNwG _ b _ | .xorNwG _ b _ | .addG _ b _ | .addcyG _ b _ | .subG _ b _ | .subcyG _ b _ | .andG _ b _
  | .andnG _ b _ | .orG _ b _ | .xorG _ b _ => some b
  | _ => none

/-- Where an ALU instruction with the write enabled, in G-fmt, puts its result (R70, R90). -/
def Instr.aluDst : Instr → Option Dst
  | .addG d _ _ | .addcyG d _ _ | .subG d _ _ | .subcyG d _ _ | .andG d _ _ | .andnG d _ _ | .orG d _ _ | .xorG d _ _
  | .inc d _ _ | .dec d _ _ | .rol d _ _ | .sl0 d _ _ | .sl1 d _ _ | .slc d _ _ | .ror d _ _ | .sr0 d _ _ | .sra d _ _
  | .src d _ _ => some d
  | _ => none

/-- The ALU instructions, two operands, I-fmt, with the result not written (R79 to R81). -/
def Instr.isNoWriteI : Instr → Bool
  | .addNwI _ | .addcyNwI _ | .cmpI _ | .subcyNwI _ | .testI _ | .andnNwI _ | .orNwI _ | .xorNwI _ => true
  | _ => false

/-- The ALU instructions, two operands, I-fmt, with the result written to `A` (R70). -/
def Instr.isWriteI : Instr → Bool
  | .addI _ | .addcyI _ | .subI _ | .subcyI _ | .andI _ | .andnI _ | .orI _ | .xorI _ => true
  | _ => false

/-- The two ALU classes: 00xxxx and 01xxxx (R57). -/
def Instr.isAlu (i : Instr) : Bool := i.isNoWriteI || i.isWriteI || i.src2.isSome || i.aluDst.isSome

/-- The control-flow class: 11xxxx (R57). -/
def Instr.isControl : Instr → Bool
  | .ba _ _ | .br _ _ | .bal _ _ | .brl _ _ | .bax _ | .brx _ | .balx _ | .brlx _ | .nop => true
  | _ => false

/-- LDP and STP (R57). -/
def Instr.isProg : Instr → Bool
  | .ldpI _ | .ldpX | .stpI _ | .stpX => true
  | _ => false

/-- STP (R106). -/
def Instr.isStp : Instr → Bool
  | .stpI _ | .stpX => true
  | _ => false

/-- IMM (R137). -/
def Instr.isImm : Instr → Bool
  | .imm _ => true
  | _ => false

/-- XCC (R138). -/
def Instr.isXcc : Instr → Bool
  | .xcc _ => true
  | _ => false

/-- The I-fmt instructions but IMM: those that form `I` from `imm8` (R56). -/
def Instr.formsI : Instr → Bool
  | .ldpI _ | .stpI _ | .lddI _ | .stdI _ | .iorrI _ | .iordI _ | .iowrI _ | .ldi _ | .xcc _ | .ba _ _ | .br _ _ | .bal _ _
  | .brl _ _ | .nop => true
  | i => i.isNoWriteI || i.isWriteI

/-- The two-operand G-fmt instructions whose `src` names the immediate: `src[0]` = 1 (R55, R56). -/
def Instr.formsG (i : Instr) : Bool := i.src2 = some .aImm || i.src2 = some .gprImm

/-- The number of pending IMM bytes that the instruction can take (R56). -/
def Instr.takesBytes (i : Instr) (n : Nat) : Bool :=
  if i.isImm || i.formsI then n < 2 else if i.formsG then n == 2 else n == 0

/-- The instructions that store to data memory: STD, `MOV reg, A`, and the ALU with `d` = 1 and the write enabled (R175). -/
def Instr.storesData : Instr → Bool
  | .stdI _ | .stdS _ _ | .stdSPost _ _ _ | .movRegA _ => true
  | i => i.aluDst = some .gpr

/-- The instructions that write `A` (R10, R14). -/
def Instr.writesA : Instr → Bool
  | .ldpI _ | .ldpX | .lddI _ | .lddS _ _ | .lddSPost _ _ _ | .movAReg _ | .iordI _ | .iordS _ _ | .iordSPost _ _ _
  | .movsRead _ | .movsReadPost _ _ | .movsReadMcsr | .movsReadBswap | .movsSwap _ | .movsSwapMcsr _ | .ldi _ => true
  | i => i.isWriteI || i.aluDst = some .a

/-- The instructions that write the index register `r`: a post-modification, a move, the link (R10, R15, R16). -/
def Instr.writesIdx (r : Idx) : Instr → Bool
  | .lddSPost _ q _ | .stdSPost _ q _ | .iorrSPost _ q _ | .iordSPost _ q _ | .iowrSPost _ q _ | .movsReadPost _ q
  | .movsWrite q | .movsSwap q => q = r
  | .bal _ _ | .brl _ _ | .balx _ | .brlx _ => r = .x
  | _ => false

/-- The instructions that read the index register `r`: as the base of an access, as the target of a branch, through MOVS (R176). -/
def Instr.readsIdx (r : Idx) : Instr → Bool
  | .lddS q _ | .stdS q _ | .iorrS q _ | .iordS q _ | .iowrS q _ | .lddSPost _ q _ | .stdSPost _ q _ | .iorrSPost _ q _
  | .iordSPost _ q _ | .iowrSPost _ q _ | .movsRead q | .movsReadPost _ q | .movsSwap q => q = r
  | .ldpX | .stpX | .bax _ | .brx _ | .balx _ | .brlx _ => r = .x
  | _ => false

/-- The GPR of a two-operand G-fmt instruction, if the form reads it or writes it: an operand by `src`, or the destination. -/
def accessedGpr (d : Dst) (src : Src2) (r : Gpr) (writes : Bool) : Option Gpr :=
  if src ≠ .aImm ∨ (d = .gpr ∧ writes = true) then some r else none

/-- The GPR that an instruction reads or writes (R11, R55, R90, R112, R113). -/
def Instr.gprAccess : Instr → Option Gpr
  | .addNwG d b r | .addcyNwG d b r | .cmpG d b r | .subcyNwG d b r | .testG d b r | .andnNwG d b r | .orNwG d b r | .xorNwG d b r =>
    accessedGpr d b r false
  | .addG d b r | .addcyG d b r | .subG d b r | .subcyG d b r | .andG d b r | .andnG d b r | .orG d b r | .xorG d b r =>
    accessedGpr d b r true
  | .inc d b r | .dec d b r | .rol d b r | .sl0 d b r | .sl1 d b r | .slc d b r | .ror d b r | .sr0 d b r | .sra d b r | .src d b r =>
    if b = .gpr ∨ d = .gpr then some r else none
  | .movAReg r | .movRegA r => some r
  | _ => none

/-- The instructions that write the windows: WIN, and the swap that applies it (R12, R13, R132). -/
def Instr.writesWindows : Instr → Bool
  | .win _ | .movsSwapMcsr _ => true
  | _ => false

/-- A control-flow instruction that may not stand in a delay slot: every one but those with `cc` = 00 and `l` = 0 (R154). -/
def Instr.barredFromSlot : Instr → Bool
  | .ba cc _ | .br cc _ | .bax cc | .brx cc => cc != .never
  | .bal _ _ | .brl _ _ | .balx _ | .brlx _ => true
  | _ => false

/-- The S-fmt access by index register `r` and offset `k`: plain or with a post-modification (R53). -/
def indexedForms (plain : Idx → BitVec 4 → Instr) (post : Post → Idx → BitVec 4 → Instr) (p : Option Post) (r : Idx) (k : BitVec 4) : Instr :=
  match p with
  | none => plain r k
  | some p => post p r k

end Sys2Proof
end

