-- ==== Sys2Proof/Certificates/Slice0/Obligations.lean ====
section
/-! DEFINITION. The statements for the provers. A docstring names the rules of spec/ that a statement formalises, and the
decisions of the spec (D<n>) or the choices of the model (log <n>) it rests on. -/

section Statements

open Sys2Proof Sys2Proof.Machine

/-- O1. Decoding the word of a well-formed instruction gives the instruction back, every operand at every value (R50, R51, R52,
R53, R58, R61). SPECIAL_OPC is a parameter (D17, log 15); rests on the spelling of NOP (D24, log 16); movsNoneSel is a reading
of R134 (log 57, DEDUCED). -/
def Obligations.DecodeOfEncode : Prop :=
  ∀ (o : SpecialOpc) (i : Instr), o.distinct = true → i.wellFormed = true → decode o (encode o i) = .ok i

/-- O2. A word that decodes is the word of exactly that well-formed instruction: no bit is dropped (R50, R58, R59, R61).
SPECIAL_OPC is a parameter (D17, log 15); movsNoneSel is a reading of R134 (log 57, DEDUCED). -/
def Obligations.EncodeOfDecode : Prop :=
  ∀ (o : SpecialOpc) (w : Word) (i : Instr), decode o w = .ok i → encode o i = w ∧ i.wellFormed = true

/-- O3. Words that the spec writes out decode to the instructions it says they are (R73, R92, R105, R110, R113, R123, R130,
R135, R137, R138, R148, R152). A sanity check on examples; the Special words are provisional (D17, log 15), the word of NOP is
R65, D24 (log 16). -/
def Obligations.SpecWordsDecode : Prop :=
  ∀ o : SpecialOpc, o = Config.specialDefault →
  decode o 0x2205 = .ok (.addI 5) ∧ decode o 0x2082 = .ok (.addG .gpr .aGpr ⟨.r, 2⟩) ∧ decode o 0x4064 = .ok (.inc .a .gpr ⟨.r, 4⟩) ∧
  decode o 0x8100 = .ok .ldpX ∧ decode o 0x89DF = .ok (.lddSPost .dec .y 15) ∧ decode o 0x8C9F = .ok (.movRegA ⟨.s, 15⟩) ∧
  decode o 0x9911 = .ok (.iowrS .y 1) ∧ decode o 0xA980 = .ok (.movsReadPost .inc .x) ∧ decode o 0xA52A = .ok (.win 0b1010) ∧
  decode o 0xB212 = .ok (.imm 0x12) ∧ decode o 0xBA06 = .ok (.xcc 6) ∧ decode o 0xC610 = .ok (.ba .always 0x10) ∧
  decode o 0xCD00 = .ok (.bax .z1) ∧ decode o 0xC200 = .ok .nop

/-- O4. Opcode 100111 stops as an illegal instruction in every format (R124). -/
def Obligations.IoSubOpElevenIsIllegal : Prop :=
  ∀ (s : State) (w : Word), w.extractLsb' 10 6 = 0b100111#6 → fetch s = .ok w → ∃ why, step s = .fault (.illegalInstruction why)

/-- O5. Opcode 01xxxx in S-fmt and in I-fmt stops as an illegal instruction (R101). -/
def Obligations.OneOperandOtherFormatsAreIllegal : Prop :=
  ∀ (s : State) (w : Word), w.extractLsb' 14 2 = 0b01#2 → (w.extractLsb' 8 2 = 0b01#2 ∨ w.getLsbD 9 = true) → fetch s = .ok w →
    ∃ why, step s = .fault (.illegalInstruction why)

/-- O6. A step runs the instruction decoded from the word at pc, then the IO agent answers anew (R7, R120). That the IO agent
answers once a step is log 28. -/
def Obligations.StepRunsDecodedInstruction : Prop :=
  ∀ (s : State) (w : Word) (i : Instr), fetch s = .ok w → decode s.params.special w = .ok i → fetchHazard s = false →
    (∀ t, exec i s = .next t → step s = .next { t with
      ioReqReady := Config.ioReqReady t.freeCount t.ioLog
      ioReadReady := Config.ioReadReady t.freeCount t.ioLog
      ioData := Config.ioData t.freeCount t.ioLog
      freeCount := t.freeCount + 1 }) ∧
    (∀ f, exec i s = .fault f → step s = .fault f)

/-- O7. A fetch of a word that one of the last STP_FETCH_WINDOW instructions stored stops the step (R44, R181, R162). The window
and the stop are D27 (log 13), the order of stops R162 (log 36). -/
def Obligations.FetchAfterStpStops : Prop :=
  ∀ (s : State) (w : Word) (i : Instr), fetch s = .ok w → decode s.params.special w = .ok i → some s.pc ∈ s.hist.stpAddrs →
    (∀ t, step s ≠ .next t) ∧ (∀ t, exec i s = .next t → step s = .fault (.hazard .fetchAfterStp))

/-- O8. A fetch outside program memory, of an unwritten word, or of a word that is no instruction stops the step (R36, R39, R61,
R160, R162). The faults are D3, D22 and D33 (log 3, 31, 35). That the ROM ends at 0xFFFF and does not wrap to address 0 is the
model's choice (log 52, DESIGN CHOICE, unsafe). That a stop of the fetch, and an encoding that R61 calls unspecified, are
reported with IMM bytes pending and with a fetch hazard too is the model's choice (log 55, DESIGN CHOICE, safe); R162 orders
only the illegal word first. -/
def Obligations.StepStopsAtTheFetch : Prop :=
  ∀ s : State,
    (¬(s.params.bootAddr.toNat ≤ s.pc.toNat ∧ s.pc.toNat < s.params.bootAddr.toNat + 16) → s.params.progWords ≤ s.pc.toNat →
      step s = .fault (.badAddress .prog s.pc)) ∧
    (progCell s s.pc = .ok none → step s = .fault (.unspecified .unwritten)) ∧
    (∀ w why, fetch s = .ok w → decode s.params.special w = .error (.illegal why) → step s = .fault (.illegalInstruction why)) ∧
    (∀ w what, fetch s = .ok w → decode s.params.special w = .error (.unspecified what) → step s = .fault (.unspecified (.encoding what)))

/-- O9. A word placed at pc is the word the step fetches, with no hazard from an earlier STP (R36, R39). The loader is the
model's (log 9). -/
def Obligations.PlacedWordIsFetched : Prop :=
  ∀ (s : State) (w : Nat), progMap s.params s.pc ≠ .absent → w < 65536 →
    (s.withFetchWord 16 w).pc = s.pc ∧ fetch (s.withFetchWord 16 w) = .ok (BitVec.ofNat 16 w) ∧
    fetchHazard (s.withFetchWord 16 w) = false

/-- O10. Every step keeps the invariant: canonical memories within their sizes, a legal S window, at most two IMM bytes, a
bounded history (R11, R13, R22, R33, R44). The canonical form of the memories (log 2, 3) and the admitted sizes (log 34) are the
model's. -/
def Obligations.StepKeepsInvariant : Prop :=
  ∀ s t : State, s.inv = true → step s = .next t → t.inv = true

/-- O11. The launch state of any image meets the invariant, and holds the image in program and data memory (R172, R173). The
launch state is D23 (log 47). That the ROM hides no word of the image rests on BOOT_ADDR = 0x8000, the model's choice (log 7,
DESIGN CHOICE, unsafe). -/
def Obligations.LaunchMeetsInvariant : Prop :=
  ∀ image : List Word,
    (State.launch image).inv = true ∧ (State.launch image).pc = 0 ∧ (State.launch image).npc = 1 ∧ (State.launch image).immq = [] ∧
    ∀ (k : Nat) (h : k < image.length), k < 256 →
      fetchAt (State.launch image) (BitVec.ofNat 16 k) = .ok image[k] ∧ (State.launch image).mem.dataGet k = image[k]

/-- O12. After reset pc is BOOT_ADDR, npc the next address, nothing is pending, memory lists nothing; with any word placed the
invariant holds (R25, R170). The empty immq is D23; the empty hazard history (log 53) and that memory lists nothing (log 2, 3)
are the model's choices. -/
def Obligations.ResetState : Prop :=
  State.reset.pc = State.reset.params.bootAddr ∧ State.reset.npc = State.reset.params.bootAddr + 1 ∧ State.reset.immq = [] ∧
  State.reset.hist = History.empty ∧ State.reset.ioLog = [] ∧ State.reset.mem = { data := [], sram := [], rom := [] } ∧
  State.reset.inv = true ∧ ∀ w : Nat, (State.reset.withFetchWord 16 w).inv = true

/-- O13. From the end of a run the machine loops for ever and changes nothing a program can see (R174, R148, R18). The end of a
run is D32 (log 50). -/
def Obligations.HaltedLoopGoesOn : Prop :=
  ∀ (s : State) (h : Word) (n : Nat), s.halted h = true → s.npc = h + 1 → s.hist.slot = false → s.hist.lastProg = none →
    some h ∉ s.hist.stpAddrs → some (h + 1) ∉ s.hist.stpAddrs →
    ∃ t, Reaches s (2 * n) t ∧ t.halted h = true ∧ t.npc = h + 1 ∧ t.a = s.a ∧ t.x = s.x ∧ t.y = s.y ∧ t.flags = s.flags ∧
      t.winR = s.winR ∧ t.winS = s.winS ∧ t.mem = s.mem ∧ t.ioLog = s.ioLog ∧ t.hist.slot = false ∧ t.hist.lastProg = none ∧
      some h ∉ t.hist.stpAddrs ∧ some (h + 1) ∉ t.hist.stpAddrs

/-- O14. Only the ALU classes and XCC change a flag, and XCC changes Z only (R17, R138). That no other instruction changes a
flag is D10 (log 45). -/
def Obligations.FlagsChangeOnlyByAluAndXcc : Prop :=
  ∀ (i : Instr) (s t : State), exec i s = .next t →
    (i.isAlu = false → i.isXcc = false → t.flags = s.flags) ∧
    (i.isXcc = true → t.flags.c = s.flags.c ∧ t.flags.n = s.flags.n ∧ t.flags.v = s.flags.v)

/-- O15. Only ALU results to A, loads, IORD, LDI and MOVS reads and swaps change A (R10, R14, R111, R121, R135). -/
def Obligations.AccumulatorChangesOnlyByItsWriters : Prop :=
  ∀ (i : Instr) (s t : State), exec i s = .next t → i.writesA = false → t.a = s.a

/-- O16. X and Y change only by a post-modification, a MOVS write or swap of them, and X by a link (R10, R15, R16, R147). -/
def Obligations.IndexRegistersChangeOnlyByTheirWriters : Prop :=
  ∀ (i : Instr) (s t : State) (r : Idx), exec i s = .next t → i.writesIdx r = false → t.idx r = s.idx r

/-- O17. The window registers change only by WIN and by the swap with MCSR (R10, R12, R13, R132). -/
def Obligations.WindowsChangeOnlyByWin : Prop :=
  ∀ (i : Instr) (s t : State), exec i s = .next t → i.writesWindows = false → t.winR = s.winR ∧ t.winS = s.winS

/-- O18. Data memory changes only by STD, MOV reg,A and ALU results to a GPR (R10, R30, R40, R175). -/
def Obligations.DataMemoryChangesOnlyByStores : Prop :=
  ∀ (i : Instr) (s t : State), exec i s = .next t → i.storesData = false →
    (∀ a, t.mem.dataGet a = s.mem.dataGet a) ∧ t.hist.dataWritten = none

/-- O19. Program memory changes only by STP, the boot ROM never (R10, R30, R36, R106). -/
def Obligations.ProgramMemoryChangesOnlyByStp : Prop :=
  ∀ (i : Instr) (s t : State), exec i s = .next t →
    (∀ k, cellGet t.mem.rom k = cellGet s.mem.rom k) ∧ (i.isStp = false → ∀ a, cellGet t.mem.sram a = cellGet s.mem.sram a)

/-- O20. IMM appends its byte to the pending list; every other instruction leaves the list empty (R22, R56, R137). The list immq
is D12 (log 38). -/
def Obligations.PendingImmediateAfterAnInstruction : Prop :=
  ∀ (i : Instr) (s t : State), exec i s = .next t →
    (∀ v, i = .imm v → t.immq = s.immq ++ [v.extractLsb' 0 8]) ∧ (i.isImm = false → t.immq = [])

/-- O21. An instruction that is not control flow moves pc to npc and npc on by one, and opens no delay slot (R18, R145). The
wrap of npc is D2 (log 41). -/
def Obligations.NonBranchAdvancesByOne : Prop :=
  ∀ (i : Instr) (s t : State), exec i s = .next t → i.isControl = false → t.pc = s.npc ∧ t.npc = s.npc + 1 ∧ t.hist.slot = false

/-- O22. No instruction writes the IO readiness bits, the IO data word or a parameter, and the IO record only grows, by at most
one event (R23, R120). That no instruction writes a parameter is log 8. -/
def Obligations.CpuNeverWritesTheIoSide : Prop :=
  ∀ (i : Instr) (s t : State), exec i s = .next t →
    t.ioReqReady = s.ioReqReady ∧ t.ioReadReady = s.ioReadReady ∧ t.ioData = s.ioData ∧ t.params = s.params ∧
    t.freeCount = s.freeCount ∧ ∃ e : Option IoEvent, t.ioLog = s.ioLog ++ e.toList

/-- O23. The wrong number of pending IMM bytes stops every instruction by name (R22, R56, R137). The faults are D12 (log 27). -/
def Obligations.PrefixMisuseStops : Prop :=
  ∀ (i : Instr) (s : State),
    (i.formsI = true → 2 ≤ s.immq.length → exec i s = .fault (.unspecified .iAfterTwoImm)) ∧
    (i.formsG = true → s.immq.length ≠ 2 → exec i s = .fault (.unspecified .gWithoutTwoImm)) ∧
    (i.isImm = true → 2 ≤ s.immq.length → exec i s = .fault (.unspecified .threeImm)) ∧
    (i.formsI = false → i.formsG = false → i.isImm = false → s.immq ≠ [] → exec i s = .fault (.unspecified .immWithoutUse))

/-- O24. The effective immediate by the number of IMM bytes pending, and the operands that the src field selects (R51, R55, R56,
R90). The order of the IMM bytes and that s is ignored under a prefix are D12 (log 38). -/
def Obligations.OperandFormation : Prop :=
  ∀ (s : State) (r : Gpr) (g : Nat) (i : BitVec 9) (h l : Byte) (v : Word),
    immI [] i = .ok (i.signExtend 16) ∧ immI [h] i = .ok (h ++ i.extractLsb' 0 8) ∧
    imm2 .aImm [h, l] = .ok (h ++ l) ∧ imm2 .gprImm [h, l] = .ok (h ++ l) ∧ (∃ w, imm2 .aGpr [] = .ok w) ∧ (∃ w, imm2 .gprA [] = .ok w) ∧
    operands2 .aImm r v s = .ok (readA s, v) ∧ operand1 .a r s = .ok (readA s) ∧
    (gprAddr s r = .ok g → operands2 .aGpr r v s = .ok (readA s, readData s g) ∧ operands2 .gprA r v s = .ok (readData s g, readA s) ∧
      operands2 .gprImm r v s = .ok (readData s g, v) ∧ operand1 .gpr r s = .ok (readData s g))

/-- O25. Where a general register lies in data memory (R11, R12, R13). The placement and the value of winR that means bottom are
D6 (log 40). -/
def Obligations.GprAddress : Prop :=
  ∀ (s : State) (n : BitVec 4), 16 ≤ s.params.dataWords → s.params.dataWords ≤ 65536 →
    (s.hist.winRMoved = false → s.winR = 0 → gprAddr s ⟨.r, n⟩ = .ok n.toNat) ∧
    (s.hist.winRMoved = false → s.winR = 1 → gprAddr s ⟨.r, n⟩ = .ok (s.params.dataWords - 16 + n.toNat)) ∧
    (s.hist.winSMoved = false → 4 * s.winS.toNat + n.toNat < s.params.dataWords →
      gprAddr s ⟨.s, n⟩ = .ok (4 * s.winS.toNat + n.toNat))

/-- O26. Right after a WIN that enables a bank, every access to a GPR of that bank stops with the hazard of R182 (R132, R135,
R182). The guard is D26; that naming a register means accessing it, and that the swap counts as WIN, is the model's reading (log
24). -/
def Obligations.GprRightAfterWinStops : Prop :=
  ∀ (i j : Instr) (k : BitVec 4) (r : Gpr) (s t : State), (i = .win k ∨ i = .movsSwapMcsr k) → exec i s = .next t →
    j.gprAccess = some r → (if r.bank = .r then k.getLsbD 3 else k.getLsbD 1) = true → j.takesBytes 0 = true →
    exec j t.tick = .fault (.hazard .gprAfterWin)

/-- O27. Right after an instruction that changed X or Y, every instruction that reads that register stops with the hazard of
R176 (R15, R16, R176). For writers other than a post-modification the rule is D26 (log 21). That the hazard is reported over the
stop of a delay slot is the model's choice (log 55). -/
def Obligations.IndexRightAfterChangeStops : Prop :=
  ∀ (i j : Instr) (r : Idx) (s t : State), i.writesIdx r = true → exec i s = .next t → j.readsIdx r = true →
    exec j t.tick = .fault (.hazard .indexLate)

/-- O28. Right after LDP, every instruction that writes A stops, and A reads as a free value (R14, R105, R178). The free value
is one of the two treatments R178 allows for a read (log 22). -/
def Obligations.AWriteRightAfterLdpStops : Prop :=
  ∀ (i j : Instr) (s t : State), ((∃ v, i = .ldpI v) ∨ i = .ldpX) → exec i s = .next t →
    readA t.tick = Config.freeWord (s.freeCount + 1) .aAfterLdp ∧
    (j.writesA = true → j.isProg = false → j.takesBytes 0 = true → exec j t.tick = .fault (.hazard .aAfterLdp))

/-- O29. A taken control-flow instruction with l = 1 right after LDP or STP stops; without l its delay slot is lost (R147, R156,
R177). The stop is the treatment of R177 (log 23). -/
def Obligations.LinkRightAfterProgramAccessStops : Prop :=
  ∀ (i : Instr) (s t : State) (cc : Cond) (v : BitVec 9), i.isProg = true → exec i s = .next t →
    condHolds t.params.ccPolarity cc t.flags.z = true →
    exec (.bal cc v) t.tick = .fault (.unspecified .linkAfterProg) ∧ exec (.brl cc v) t.tick = .fault (.unspecified .linkAfterProg) ∧
    exec (.balx cc) t.tick = .fault (.unspecified .linkAfterProg) ∧ exec (.brlx cc) t.tick = .fault (.unspecified .linkAfterProg) ∧
    (∃ u, exec (.ba cc v) t.tick = .next u ∧ u.pc = v.signExtend 16 ∧ u.npc = v.signExtend 16 + 1) ∧
    (∃ u, exec (.bax cc) t.tick = .next u ∧ u.pc = t.x ∧ u.npc = t.x + 1)

/-- O30. A GPR access past the end of data memory stops: MOV both ways (R11). The stop is D6 (log 32). -/
def Obligations.SWindowPastEndStops : Prop :=
  ∀ (s : State) (n : BitVec 4), s.hist.winSMoved = false → s.immq = [] → s.hist.lastProg ≠ some .load →
    s.params.dataWords ≤ 4 * s.winS.toNat + n.toNat →
    exec (.movAReg ⟨.s, n⟩) s = .fault (.unspecified .sWindowPastEnd) ∧
    exec (.movRegA ⟨.s, n⟩) s = .fault (.unspecified .sWindowPastEnd)

/-- O31. What A, an index register and a data word read as: their value, or what the hazard rules say right after the access
they name (R175, R176, R178). The free values are among the treatments the rules allow (log 20, 22). -/
def Obligations.HazardReads : Prop :=
  ∀ (s : State) (r : Idx) (a : Nat),
    (s.hist.lastProg = some .load → readA s = Config.freeWord s.freeCount .aAfterLdp ∧ mayWriteA s = .error (.hazard .aAfterLdp)) ∧
    (s.hist.lastProg ≠ some .load → readA s = s.a ∧ mayWriteA s = .ok ()) ∧
    (idxLate s r = true → readIdx s r = .error (.hazard .indexLate)) ∧
    (idxLate s r = false → readIdx s r = .ok (s.idx r)) ∧
    (s.hist.dataWritten = some a → readData s a = Config.freeWord s.freeCount .dataAfterWrite) ∧
    (s.hist.dataWritten ≠ some a → readData s a = s.mem.dataGet a)

/-- O32. A load right after a store to the same word reads a free value, with a NOP between it reads the stored word (R40, R175,
R110, R111). The free value is one of the two treatments R175 allows (log 20). -/
def Obligations.StoreThenLoad : Prop :=
  ∀ (s : State) (i : BitVec 9), s.immq = [] → s.hist.lastProg ≠ some .load → (i.signExtend 16).toNat < s.params.dataWords →
    ∃ t, exec (.stdI i) s = .next t ∧
      (∃ u, exec (.lddI i) t.tick = .next u ∧ u.a = Config.freeWord (s.freeCount + 1) .dataAfterWrite) ∧
      (∃ u v, exec .nop t.tick = .next u ∧ exec (.lddI i) u.tick = .next v ∧ v.a = s.a)

/-- O33. After LDP and a NOP, A holds the loaded word and every hazard of the access is over (R105, R178, R180). NOP as 0xC200
is D24 (log 16). -/
def Obligations.LdpThenNopThenUse : Prop :=
  ∀ (s : State) (i : BitVec 9) (v : Word), s.immq = [] → s.hist.lastProg = none → readProg s (i.signExtend 16) = .ok v →
    ∃ t u, exec (.ldpI i) s = .next t ∧ exec .nop t.tick = .next u ∧ readA u.tick = v ∧ u.a = v ∧ u.hist.lastProg = none

/-- O34. ADD, ADDCY, SUB, SUBCY and ADD.nw, ADDCY.nw, CMP, SUBCY.nw in I-fmt complete with the exact sum or OpB - OpA, and exact
flags (R70, R71, R73, R74, R75, R76, R79, R81). The flag formulas are D7 (log 37), the immediate D12 (log 38). -/
def Obligations.ArithmeticImmediate : Prop :=
  ∀ (s : State) (i : BitVec 9) (b : Word) (k nw : BitVec 9 → Instr) (f : Word → Word → Nat → Word × Flags),
    (k, nw, f) ∈ [(Instr.addI, Instr.addNwI, fun a b _ => exactAdd a b 0), (Instr.addcyI, Instr.addcyNwI, fun a b c => exactAdd a b c),
      (Instr.subI, Instr.cmpI, fun a b _ => exactSub a b 0), (Instr.subcyI, Instr.subcyNwI, fun a b c => exactSub a b (1 - c))] →
    immI s.immq i = .ok b →
    (s.hist.lastProg ≠ some .load → exec (k i) s = .next { s.advance with
      a := (f (readA s) b s.flags.c.toNat).1, flags := (f (readA s) b s.flags.c.toNat).2 }) ∧
    exec (nw i) s = .next { s.advance with flags := (f (readA s) b s.flags.c.toNat).2 }

/-- O35. ADD, ADDCY, SUB, SUBCY and their no-write forms in G-fmt: result to A or to the GPR, exact flags, frame (R55, R70, R71,
R73, R74, R75, R76, R79, R81). The flag formulas are D7 (log 37). -/
def Obligations.ArithmeticGpr : Prop :=
  ∀ (s : State) (d : Dst) (src : Src2) (r : Gpr) (v a b : Word) (k nw : Dst → Src2 → Gpr → Instr)
    (f : Word → Word → Nat → Word × Flags),
    (k, nw, f) ∈ [(Instr.addG, Instr.addNwG, fun a b _ => exactAdd a b 0), (Instr.addcyG, Instr.addcyNwG, fun a b c => exactAdd a b c),
      (Instr.subG, Instr.cmpG, fun a b _ => exactSub a b 0), (Instr.subcyG, Instr.subcyNwG, fun a b c => exactSub a b (1 - c))] →
    imm2 src s.immq = .ok v → operands2 src r v s = .ok (a, b) →
    exec (nw d src r) s = .next { s.advance with flags := (f a b s.flags.c.toNat).2 } ∧
    (s.hist.lastProg ≠ some .load → exec (k .a src r) s = .next { s.advance with
      a := (f a b s.flags.c.toNat).1, flags := (f a b s.flags.c.toNat).2 }) ∧
    ∀ g, gprAddr s r = .ok g →
      ∃ t, exec (k .gpr src r) s = .next t ∧
        StoredData s { s.advance with flags := (f a b s.flags.c.toNat).2 } t g (f a b s.flags.c.toNat).1

/-- O36. AND, ANDN, OR, XOR and TEST, ANDN.nw, OR.nw, XOR.nw in I-fmt complete with the bitwise result, Z and N; C and V are
free (R70, R72, R77, R78, R80, R81, R82, R83). C and V free is D8 (log 18), the immediate D12 (log 38). -/
def Obligations.LogicImmediate : Prop :=
  ∀ (s : State) (i : BitVec 9) (b : Word) (k nw : BitVec 9 → Instr) (f : Word → Word → Word),
    (k, nw, f) ∈ [(Instr.andI, Instr.testI, fun a b => a &&& b), (Instr.andnI, Instr.andnNwI, fun a b => ~~~a &&& b),
      (Instr.orI, Instr.orNwI, fun a b => a ||| b), (Instr.xorI, Instr.xorNwI, fun a b => a ^^^ b)] →
    immI s.immq i = .ok b →
    (s.hist.lastProg ≠ some .load → exec (k i) s = .next { s.advance with
      a := f (readA s) b, flags := openFlags s (f (readA s) b) (Config.freeBit s.freeCount .carry) }) ∧
    exec (nw i) s = .next { s.advance with flags := openFlags s (f (readA s) b) (Config.freeBit s.freeCount .carry) }

/-- O37. AND, ANDN, OR, XOR and their no-write forms in G-fmt: result to A or to the GPR, flags, frame (R55, R70, R72, R77, R78,
R80, R81, R82, R83). C and V free is D8 (log 18). -/
def Obligations.LogicGpr : Prop :=
  ∀ (s : State) (d : Dst) (src : Src2) (r : Gpr) (v a b : Word) (k nw : Dst → Src2 → Gpr → Instr) (f : Word → Word → Word),
    (k, nw, f) ∈ [(Instr.andG, Instr.testG, fun a b => a &&& b), (Instr.andnG, Instr.andnNwG, fun a b => ~~~a &&& b),
      (Instr.orG, Instr.orNwG, fun a b => a ||| b), (Instr.xorG, Instr.xorNwG, fun a b => a ^^^ b)] →
    imm2 src s.immq = .ok v → operands2 src r v s = .ok (a, b) →
    exec (nw d src r) s = .next { s.advance with flags := openFlags s (f a b) (Config.freeBit s.freeCount .carry) } ∧
    (s.hist.lastProg ≠ some .load → exec (k .a src r) s = .next { s.advance with
      a := f a b, flags := openFlags s (f a b) (Config.freeBit s.freeCount .carry) }) ∧
    ∀ g, gprAddr s r = .ok g →
      ∃ t, exec (k .gpr src r) s = .next t ∧
        StoredData s { s.advance with flags := openFlags s (f a b) (Config.freeBit s.freeCount .carry) } t g (f a b)

/-- O38. After CMP the conditions hs, ge, hi, gt compare OpB with OpA, unsigned and signed, and Z is equality (R71, R79, R138).
Rests on the flag formulas of D7 (log 37). -/
def Obligations.CompareThenConditions : Prop :=
  ∀ (s : State) (i : Instr) (a b : Word),
    ((∃ d src r v, i = .cmpG d src r ∧ imm2 src s.immq = .ok v ∧ operands2 src r v s = .ok (a, b)) ∨ (∃ v, i = .cmpI v ∧ a = readA s ∧ immI s.immq v = .ok b)) →
    ∃ t, exec i s = .next t ∧ t.flags.z = decide (a = b) ∧
      (∃ u, exec (.xcc 4) t.tick = .next u ∧ u.flags.z = decide (a.toNat ≤ b.toNat)) ∧
      (∃ u, exec (.xcc 5) t.tick = .next u ∧ u.flags.z = decide (a.toInt ≤ b.toInt)) ∧
      (∃ u, exec (.xcc 6) t.tick = .next u ∧ u.flags.z = decide (a.toNat < b.toNat)) ∧
      (∃ u, exec (.xcc 7) t.tick = .next u ∧ u.flags.z = decide (a.toInt < b.toInt))

/-- O39. INC, DEC, the rotates and the shifts complete with the result, Z, N and C of the rules, to A or to the GPR (R90, R91,
R92, R93, R94, R95, R96, R97, R98, R99, R100, R102). The flags are D9 (log 19), the rotates D11 (log 46). -/
def Obligations.OneOperand : Prop :=
  ∀ (s : State) (src : Src1) (r : Gpr) (a : Word) (k : Dst → Src1 → Gpr → Instr) (f : Word → Bool → Word) (c : Word → Bool),
    (k, f, c) ∈
      ([(Instr.inc, fun a _ => a + 1, fun a => a == 0xFFFF), (Instr.dec, fun a _ => a - 1, fun a => a != 0),
        (Instr.rol, fun a _ => a.rotateLeft 1, fun a => a.msb), (Instr.sl0, fun a _ => a <<< 1, fun a => a.msb),
        (Instr.sl1, fun a _ => a <<< 1 ||| 1, fun a => a.msb),
        (Instr.slc, fun a b => a <<< 1 ||| (BitVec.ofBool b).zeroExtend 16, fun a => a.msb),
        (Instr.ror, fun a _ => a.rotateRight 1, fun a => a.getLsbD 0), (Instr.sr0, fun a _ => a >>> 1, fun a => a.getLsbD 0),
        (Instr.sra, fun a _ => a >>> 1 ||| (a &&& 0x8000), fun a => a.getLsbD 0),
        (Instr.src, fun a b => a >>> 1 ||| (BitVec.ofBool b).zeroExtend 16 <<< 15, fun a => a.getLsbD 0)] :
        List ((Dst → Src1 → Gpr → Instr) × (Word → Bool → Word) × (Word → Bool))) →
    s.immq = [] → operand1 src r s = .ok a →
    (s.hist.lastProg ≠ some .load → exec (k .a src r) s = .next { s.advance with
      a := f a s.flags.c, flags := openFlags s (f a s.flags.c) (c a) }) ∧
    ∀ g, gprAddr s r = .ok g →
      ∃ t, exec (k .gpr src r) s = .next t ∧
        StoredData s { s.advance with flags := openFlags s (f a s.flags.c) (c a) } t g (f a s.flags.c)

/-- O40. LDP loads A from program memory, absolute or through X, and changes nothing else (R36, R105). Flags: none is D10 (log
45); the value of a word never written is log 3. -/
def Obligations.LoadProgram : Prop :=
  ∀ (s : State) (ea v : Word), s.hist.lastProg = none → readProg s ea = .ok v →
    (∀ i, immI s.immq i = .ok ea →
      exec (.ldpI i) s = .next { s.advance with a := v, hist := { s.advance.hist with lastProg := some .load } }) ∧
    (s.immq = [] → readIdx s .x = .ok ea →
      exec .ldpX s = .next { s.advance with a := v, hist := { s.advance.hist with lastProg := some .load } })

/-- O41. Where a program address leads: the ROM at BOOT_ADDR first, then the SPRAM below PROG_WORDS, then nothing (R36, R38).
The map is D3 (log 31), its end at 0xFFFF log 52, the word never written log 3. -/
def Obligations.ProgramWordRead : Prop :=
  ∀ (s : State) (ea : Word),
    (s.params.bootAddr.toNat ≤ ea.toNat → ea.toNat < s.params.bootAddr.toNat + 16 →
      readProg s ea = .ok ((cellGet s.mem.rom (ea.toNat - s.params.bootAddr.toNat)).getD (Config.unwrittenProg ea))) ∧
    (¬(s.params.bootAddr.toNat ≤ ea.toNat ∧ ea.toNat < s.params.bootAddr.toNat + 16) → ea.toNat < s.params.progWords →
      readProg s ea = .ok ((cellGet s.mem.sram ea.toNat).getD (Config.unwrittenProg ea))) ∧
    (¬(s.params.bootAddr.toNat ≤ ea.toNat ∧ ea.toNat < s.params.bootAddr.toNat + 16) → s.params.progWords ≤ ea.toNat →
      readProg s ea = .error (.badAddress .prog ea))

/-- O42. STP stores A to the SPRAM word at the address and changes nothing else (R36, R106). Flags: none is D10 (log 45); the
map is D3 (log 31). -/
def Obligations.StoreProgram : Prop :=
  ∀ (s : State) (i : Instr) (ea : Word), s.hist.lastProg = none → progMap s.params ea = .sram ea.toNat →
    ((∃ v, i = .stpI v ∧ immI s.immq v = .ok ea) ∨ (i = .stpX ∧ s.immq = [] ∧ readIdx s .x = .ok ea)) →
    ∃ t, exec i s = .next t ∧ cellGet t.mem.sram ea.toNat = some s.a ∧
      (∀ b, b ≠ ea.toNat → cellGet t.mem.sram b = cellGet s.mem.sram b) ∧ t.mem.rom = s.mem.rom ∧ t.mem.data = s.mem.data ∧
      t = { s.advance with
        mem := t.mem
        hist := { s.advance.hist with
          lastProg := some .store, stpAddrs := (some ea :: s.hist.stpAddrs).take s.params.stpFetchWindow } }

/-- O43. LDP, STP, LDD and STD at an address with no memory stop, and so does STP into the boot ROM (R33, R36, R38, R105, R106,
R110, R111). The stops are D3 and D5 (log 31, 33). -/
def Obligations.AccessOutsideMemoryStops : Prop :=
  ∀ (s : State) (ea : Word) (i : BitVec 9) (p : Option Post) (r : Idx) (k : BitVec 4),
    (s.hist.lastProg = none → progMap s.params ea = .absent → immI s.immq i = .ok ea →
      exec (.ldpI i) s = .fault (.badAddress .prog ea) ∧ exec (.stpI i) s = .fault (.badAddress .prog ea)) ∧
    (s.hist.lastProg = none → progMap s.params ea = .absent → s.immq = [] → readIdx s .x = .ok ea →
      exec .ldpX s = .fault (.badAddress .prog ea) ∧ exec .stpX s = .fault (.badAddress .prog ea)) ∧
    (∀ o, s.hist.lastProg = none → progMap s.params ea = .rom o → immI s.immq i = .ok ea →
      exec (.stpI i) s = .fault (.unspecified .storeToRom)) ∧
    (∀ o, s.hist.lastProg = none → progMap s.params ea = .rom o → s.immq = [] → readIdx s .x = .ok ea →
      exec .stpX s = .fault (.unspecified .storeToRom)) ∧
    (s.params.dataWords ≤ ea.toNat → immI s.immq i = .ok ea →
      (s.hist.lastProg ≠ some .load → exec (.lddI i) s = .fault (.badAddress .data ea)) ∧
      exec (.stdI i) s = .fault (.badAddress .data ea)) ∧
    (s.params.dataWords ≤ ea.toNat → s.immq = [] → idxLate s r = false → s.idx r + k.zeroExtend 16 = ea →
      (s.hist.lastProg ≠ some .load → exec (indexedForms .lddS .lddSPost p r k) s = .fault (.badAddress .data ea)) ∧
      exec (indexedForms .stdS .stdSPost p r k) s = .fault (.badAddress .data ea))

/-- O44. An LDP or STP right after an LDP or STP stops, whatever the mix (R179). -/
def Obligations.BackToBackProgramAccessesStop : Prop :=
  ∀ (i j : Instr) (s t : State), i.isProg = true → j.isProg = true → exec i s = .next t →
    exec j t.tick = .fault (.hazard .consecutiveProg)

/-- O45. LDD loads A from data memory, absolute or indexed, with its post-modification, and changes nothing else (R54, R110).
Flags: none is D10 (log 45); the indexed operand is D16 (log 39). -/
def Obligations.LoadData : Prop :=
  ∀ (s : State) (ea : Word), ea.toNat < s.params.dataWords →
    (∀ i, s.hist.lastProg ≠ some .load → immI s.immq i = .ok ea →
      exec (.lddI i) s = .next { s.advance with a := readData s ea.toNat }) ∧
    (∀ p r k, s.hist.lastProg ≠ some .load → s.immq = [] → idxLate s r = false → s.idx r + k.zeroExtend 16 = ea →
      exec (indexedForms .lddS .lddSPost p r k) s = .next { s.postModified p r with a := readData s ea.toNat })

/-- O46. STD stores A to the data word at the address, with its post-modification, and changes nothing else (R54, R111). Flags:
none is D10 (log 45); the indexed operand is D16 (log 39). -/
def Obligations.StoreData : Prop :=
  ∀ (s : State) (ea : Word), ea.toNat < s.params.dataWords →
    (∀ i, immI s.immq i = .ok ea → ∃ t, exec (.stdI i) s = .next t ∧ StoredData s s.advance t ea.toNat (readA s)) ∧
    (∀ p r k, s.immq = [] → idxLate s r = false → s.idx r + k.zeroExtend 16 = ea →
      ∃ t, exec (indexedForms .stdS .stdSPost p r k) s = .next t ∧ StoredData s (s.postModified p r) t ea.toNat (readA s))

/-- O47. MOV A,reg loads A from the GPR, MOV reg,A stores A to it, and nothing else changes (R11, R112, R113). Flags: none is
D10 (log 45). -/
def Obligations.MovBothWays : Prop :=
  ∀ (s : State) (r : Gpr) (g : Nat), s.immq = [] →
    (gprAddr s r = .ok g → s.hist.lastProg ≠ some .load → exec (.movAReg r) s = .next { s.advance with a := readData s g }) ∧
    (gprAddr s r = .ok g → ∃ t, exec (.movRegA r) s = .next t ∧ StoredData s s.advance t g (readA s))

/-- O48. IORR and IOWR hand one request to the IO agent and change nothing else but a post-modified register; while not ready
they stop (R54, R120, R121, R123). The IO side is D21 (log 28), the stop D21 (log 29); the indexed operand D16 (log 39). -/
def Obligations.IoRequests : Prop :=
  ∀ (s : State) (ea : Word), (s.ioReqReady = true →
    (∀ i, immI s.immq i = .ok ea →
      exec (.iorrI i) s = .next { s.advance with ioLog := s.ioLog ++ [.readRequest ea] } ∧
      exec (.iowrI i) s = .next { s.advance with ioLog := s.ioLog ++ [.writeRequest ea (readA s)] }) ∧
    (∀ p r k, s.immq = [] → idxLate s r = false → s.idx r + k.zeroExtend 16 = ea →
      exec (indexedForms .iorrS .iorrSPost p r k) s = .next { s.postModified p r with ioLog := s.ioLog ++ [.readRequest ea] } ∧
      exec (indexedForms .iowrS .iowrSPost p r k) s = .next { s.postModified p r with ioLog := s.ioLog ++ [.writeRequest ea (readA s)] })) ∧
    (s.ioReqReady = false →
    (∀ i, immI s.immq i = .ok ea →
      exec (.iorrI i) s = .fault (.unspecified .ioNotReady) ∧ exec (.iowrI i) s = .fault (.unspecified .ioNotReady)) ∧
    (∀ p r k, s.immq = [] → idxLate s r = false → exec (indexedForms .iorrS .iorrSPost p r k) s = .fault (.unspecified .ioNotReady) ∧
      exec (indexedForms .iowrS .iowrSPost p r k) s = .fault (.unspecified .ioNotReady)))

/-- O49. IORD loads A with the word the IO agent holds, or with a free value while none is ready (R54, R120, R122). The IO side
and the free value are D21 (log 28, 30). That A holds the word at once, with no hazard left behind, is the model's choice (log
54, DESIGN CHOICE, unsafe). -/
def Obligations.IoReadData : Prop :=
  ∀ (s : State) (ea v : Word),
    s.hist.lastProg ≠ some .load → (s.ioReadReady = true → v = s.ioData) → (s.ioReadReady = false → v = Config.freeWord s.freeCount .ioNotReady) →
    (∀ i, immI s.immq i = .ok ea →
      exec (.iordI i) s = .next { s.advance with a := v, ioLog := s.ioLog ++ [.readData ea v] }) ∧
    (∀ p r k, s.immq = [] → idxLate s r = false → s.idx r + k.zeroExtend 16 = ea →
      exec (indexedForms .iordS .iordSPost p r k) s =
        .next { s.postModified p r with a := v, ioLog := s.ioLog ++ [.readData ea v] })

/-- O50. MOVS A reads X, Y, MCSR or BSWAP(A), with its post-modification; MOVS with no transfer does nothing (R21, R54, R130,
R134). Flags: none is D10 (log 45); the opcodes are provisional (log 15). That MCSR shows the new window right after a WIN is
the model's choice (log 56, DESIGN CHOICE, unsafe); a sel not 0 without transfer is a reading of R134 (log 57, DEDUCED). -/
def Obligations.MovsReads : Prop :=
  ∀ s : State, s.immq = [] →
    (s.hist.lastProg ≠ some .load →
    (∀ r, idxLate s r = false → exec (.movsRead r) s = .next { s.advance with a := s.idx r }) ∧
    (∀ p r, idxLate s r = false → exec (.movsReadPost p r) s = .next { s.postModified (some p) r with a := s.idx r }) ∧
    exec .movsReadMcsr s = .next { s.advance with a := s.mcsr } ∧
    exec .movsReadBswap s = .next { s.advance with a := s.a.extractLsb' 0 8 ++ s.a.extractLsb' 8 8 }) ∧
    exec .movsNone s = .next s.advance ∧ ∀ sel, exec (.movsNoneSel sel) s = .next s.advance

/-- O51. MOVS r,A copies A to X or Y, MOVS A<>r exchanges them, and nothing else changes (R131, R132). Flags: none is D10 (log
45); the opcodes are provisional (log 15). -/
def Obligations.MovsWritesAndSwaps : Prop :=
  ∀ (s : State) (r : Idx), s.immq = [] →
    exec (.movsWrite r) s = .next (s.advance.withIdxReg r (readA s)) ∧
    (s.hist.lastProg ≠ some .load → idxLate s r = false → exec (.movsSwap r) s = .next { s.advance.withIdxReg r s.a with a := s.idx r })

/-- O52. WIN sets or moves each enabled window by its bits of A; the swap with MCSR also loads A with the MCSR value from before
(R13, R20, R132, R135). The moduli are D19 (log 40), the layout log 14, the swap U15 (log 43). That the old window and MCSR are
those in force right after a WIN before it is the model's choice (log 56, DESIGN CHOICE, unsafe). -/
def Obligations.WindowOperation : Prop :=
  ∀ (s : State) (k : BitVec 4) (r' : BitVec 1) (s' : BitVec 14), s.immq = [] →
    r' = (if k.getLsbD 3 then (if k.getLsbD 2 then s.winR + opR s.params.mcsr (readA s) else opR s.params.mcsr (readA s)) else s.winR) →
    s' = (if k.getLsbD 1 then
        BitVec.ofNat 14 (((if k.getLsbD 0 then s.winS.toNat else 0) + (opS s.params.mcsr (readA s)).toNat) % (s.params.dataWords / 4))
      else s.winS) →
    exec (.win k) s = .next { s.advance with
      winR := r', winS := s', hist := { s.advance.hist with winRMoved := k.getLsbD 3, winSMoved := k.getLsbD 1 } } ∧
    (s.hist.lastProg ≠ some .load → exec (.movsSwapMcsr k) s = .next { s.advance with
      a := s.mcsr, winR := r', winS := s', hist := { s.advance.hist with winRMoved := k.getLsbD 3, winSMoved := k.getLsbD 1 } })

/-- O53. Under the provisional layout the MCSR value is {00000, winR, winS, V, N, C, Z}, and WIN takes bits 10 and 9:4 of A
(R19, R20). The layout has no evidence behind it: D18, D19 (log 14). -/
def Obligations.McsrLayoutDefault : Prop :=
  ∀ (s : State) (v : Word), s.params.mcsr = .provisional →
    s.mcsr.toNat = s.flags.z.toNat + 2 * s.flags.c.toNat + 4 * s.flags.n.toNat + 8 * s.flags.v.toNat + 16 * (s.winS.toNat % 64) +
      1024 * s.winR.toNat ∧
    (opR s.params.mcsr v).toNat = v.toNat / 1024 % 2 ∧ (opS s.params.mcsr v).toNat = v.toNat / 16 % 64

/-- O54. LDI makes A the immediate; IMM appends its byte, or stops in a delay slot; nothing else changes (R136, R137, R22,
R155). immq is D12 (log 38), the stop D15 (log 26), flags none D10 (log 45). -/
def Obligations.LoadConstantAndPrefix : Prop :=
  ∀ (s : State) (i : BitVec 9),
    (∀ v, s.hist.lastProg ≠ some .load → immI s.immq i = .ok v → exec (.ldi i) s = .next { s.advance with a := v }) ∧
    (s.immq.length < 2 → s.hist.slot = false → exec (.imm i) s = .next { s.advance with immq := s.immq ++ [i.extractLsb' 0 8] }) ∧
    (s.immq.length < 2 → s.hist.slot = true → exec (.imm i) s = .fault (.unspecified .immInDelaySlot))

/-- O55. XCC copies the selected condition on the old flags and IO bits into Z and changes nothing else (R138). The stop is D29
(log 44), the opcode provisional (log 15), that only Z changes D10 (log 45). -/
def Obligations.ExtendedConditions : Prop :=
  ∀ (s : State) (i : BitVec 9) (v : Word), immI s.immq i = .ok v →
    (∀ (k : Fin 8), v.toNat = k.val →
      exec (.xcc i) s = .next { s.advance with flags := { s.flags with
        z := [s.flags.n, s.flags.v, s.ioReqReady, s.ioReadReady, s.flags.c, s.flags.n == s.flags.v,
          !s.flags.z && s.flags.c, !s.flags.z && (s.flags.n == s.flags.v)][k.val] } }) ∧
    (8 ≤ v.toNat → exec (.xcc i) s = .fault (.unspecified .xccImmediate))

/-- O56. BA, BR, BAL, BRL in I-fmt complete: delay slot, target, link in X taken or not; the slot is lost right after LDP or STP
(R145, R147, R148, R149, R150, R151, R156, R18). Parameters: log 10, 11, 12; a taken link right after LDP or STP stops (log 23);
the slot rule D15 (log 26), the immediate D12 (log 38). -/
def Obligations.BranchImmediate : Prop :=
  ∀ (s : State) (k : Cond → BitVec 9 → Instr) (link rel : Bool) (cc : Cond) (i : BitVec 9) (t : Word),
    (k, link, rel) ∈ [(Instr.ba, false, false), (Instr.br, false, true), (Instr.bal, true, false), (Instr.brl, true, true)] →
    immI s.immq i = .ok t →
    (s.hist.slot = true → link = false ∧ cc = .never) →
    (condHolds s.params.ccPolarity cc s.flags.z = false → exec (k cc i) s = .next (s.linked link)) ∧
    (condHolds s.params.ccPolarity cc s.flags.z = true → s.hist.lastProg = none →
      exec (k cc i) s = .next { s.linked link with
        npc := if rel then s.pc + s.params.relBase + t else t, hist := { (s.linked link).hist with slot := true } }) ∧
    (condHolds s.params.ccPolarity cc s.flags.z = true → s.hist.lastProg ≠ none → link = false →
      exec (k cc i) s = .next { s.linked link with
        pc := if rel then s.pc + s.params.relBase + t else t, npc := (if rel then s.pc + s.params.relBase + t else t) + 1 })

/-- O57. BAX, BRX, BALX, BRLX complete with the old X as target operand: delay slot, link in X taken or not, lost slot (R145,
R147, R152, R153, R156, R18). Parameters: log 10, 11, 12; a taken link right after LDP or STP stops (log 23); the slot rule D15
(log 26). -/
def Obligations.BranchThroughX : Prop :=
  ∀ (s : State) (k : Cond → Instr) (link rel : Bool) (cc : Cond) (t : Word),
    (k, link, rel) ∈ [(Instr.bax, false, false), (Instr.brx, false, true), (Instr.balx, true, false), (Instr.brlx, true, true)] →
    s.immq = [] → readIdx s .x = .ok t →
    (s.hist.slot = true → link = false ∧ cc = .never) →
    (condHolds s.params.ccPolarity cc s.flags.z = false → exec (k cc) s = .next (s.linked link)) ∧
    (condHolds s.params.ccPolarity cc s.flags.z = true → s.hist.lastProg = none →
      exec (k cc) s = .next { s.linked link with
        npc := if rel then s.pc + s.params.relBase + t else t, hist := { (s.linked link).hist with slot := true } }) ∧
    (condHolds s.params.ccPolarity cc s.flags.z = true → s.hist.lastProg ≠ none → link = false →
      exec (k cc) s = .next { s.linked link with
        pc := if rel then s.pc + s.params.relBase + t else t, npc := (if rel then s.pc + s.params.relBase + t else t) + 1 })

/-- O58. NOP, and every branch with cc = 00 and l = 0, has no effect, in a delay slot and right after LDP or STP too (R62, R65,
R146, R180). NOP as this word is D24 (log 16). -/
def Obligations.NopAndNeverBranches : Prop :=
  ∀ s : State,
    (s.immq.length ≤ 1 → exec .nop s = .next s.advance) ∧
    (∀ i v, immI s.immq i = .ok v → exec (.ba .never i) s = .next s.advance ∧ exec (.br .never i) s = .next s.advance) ∧
    (s.immq = [] → s.hist.xLate = false → exec (.bax .never) s = .next s.advance ∧ exec (.brx .never) s = .next s.advance)

/-- O59. When a branch is taken, by cc and the polarity; and the link value pc + LINK_OFFSET (R146, R147). The polarity is the
resolution of C1, a parameter by D30 (log 12); LINK_OFFSET is D13 (log 10). -/
def Obligations.ConditionsAndLink : Prop :=
  ∀ (s : State) (z : Bool),
    condHolds .field .never z = false ∧ condHolds .field .always z = true ∧ condHolds .field .z0 z = !z ∧ condHolds .field .z1 z = z ∧
    condHolds .suffix .never z = false ∧ condHolds .suffix .always z = true ∧ condHolds .suffix .z0 z = z ∧
    condHolds .suffix .z1 z = !z ∧ linkValue s = s.pc + s.params.linkOffset ∧
    (s.params = State.reset.params → linkValue s = s.pc + 2)

/-- O60. A control-flow instruction other than the NOP form stops in the delay slot of a taken branch (R154). The stop is D15
(log 26). That it is reported over the stop of a link is the model's choice (log 55). -/
def Obligations.BranchInDelaySlotStops : Prop :=
  ∀ (i : Instr) (s : State), s.hist.slot = true → i.barredFromSlot = true →
    (i.readsIdx .x = true → s.hist.xLate = false) →
    (s.immq = [] ∨ (i.formsI = true ∧ s.immq.length = 1)) → exec i s = .fault (.unspecified .branchInDelaySlot)

end Statements
end

