-- ==== Sys2Proof/Laws/Decode.lean ====
section
/-! SUPPORT. The fields of an encoded word (R50 to R53), read back, and the codes of each field. -/

namespace Sys2Proof

@[simp] theorem opcodeOf_iWord (op : BitVec 6) (i : BitVec 9) : opcodeOf (iWord op i) = op := by
  apply BitVec.eq_of_getLsbD_eq
  intro k hk
  simp only [opcodeOf, iWord, BitVec.getLsbD_extractLsb', BitVec.getLsbD_append]
  interval_cases k <;> simp

@[simp] theorem immOf_iWord (op : BitVec 6) (i : BitVec 9) : immOf (iWord op i) = i := by
  apply BitVec.eq_of_getLsbD_eq
  intro k hk
  simp only [immOf, iWord, BitVec.getLsbD_extractLsb', BitVec.getLsbD_append]
  interval_cases k <;> simp

/-- Bit 9 marks the I-fmt. -/
theorem fmtOf_iWord (op : BitVec 6) (i : BitVec 9) : (fmtOf (iWord op i)).getLsbD 1 = true := by
  simp only [fmtOf, iWord, BitVec.getLsbD_extractLsb', BitVec.getLsbD_append]
  simp

theorem fmtOf_iWord_ne_g (op : BitVec 6) (i : BitVec 9) : fmtOf (iWord op i) ≠ 0b00#2 := by
  intro h
  have := fmtOf_iWord op i
  simp [h] at this

theorem fmtOf_iWord_ne_s (op : BitVec 6) (i : BitVec 9) : fmtOf (iWord op i) ≠ 0b01#2 := by
  intro h
  have := fmtOf_iWord op i
  simp [h] at this

@[simp] theorem opcodeOf_gWord (op : BitVec 6) (d : BitVec 1) (src : BitVec 2) (r : Gpr) : opcodeOf (gWord op d src r) = op := by
  apply BitVec.eq_of_getLsbD_eq
  intro k hk
  simp only [opcodeOf, gWord, BitVec.getLsbD_extractLsb', BitVec.getLsbD_append]
  interval_cases k <;> simp

@[simp] theorem fmtOf_gWord (op : BitVec 6) (d : BitVec 1) (src : BitVec 2) (r : Gpr) : fmtOf (gWord op d src r) = 0b00#2 := by
  apply BitVec.eq_of_getLsbD_eq
  intro k hk
  simp only [fmtOf, gWord, BitVec.getLsbD_extractLsb', BitVec.getLsbD_append]
  interval_cases k <;> simp

@[simp] theorem dOf_gWord (op : BitVec 6) (d : BitVec 1) (src : BitVec 2) (r : Gpr) : dOf (gWord op d src r) = d := by
  apply BitVec.eq_of_getLsbD_eq
  intro k hk
  simp only [dOf, gWord, BitVec.getLsbD_extractLsb', BitVec.getLsbD_append]
  interval_cases k
  simp

@[simp] theorem srcOf_gWord (op : BitVec 6) (d : BitVec 1) (src : BitVec 2) (r : Gpr) : srcOf (gWord op d src r) = src := by
  apply BitVec.eq_of_getLsbD_eq
  intro k hk
  simp only [srcOf, gWord, BitVec.getLsbD_extractLsb', BitVec.getLsbD_append]
  interval_cases k <;> simp

@[simp] theorem bankOf_gWord (op : BitVec 6) (d : BitVec 1) (src : BitVec 2) (r : Gpr) : bankOf (gWord op d src r) = bankBit r.bank := by
  apply BitVec.eq_of_getLsbD_eq
  intro k hk
  simp only [bankOf, gWord, BitVec.getLsbD_extractLsb', BitVec.getLsbD_append]
  interval_cases k
  simp

@[simp] theorem lowOf_gWord (op : BitVec 6) (d : BitVec 1) (src : BitVec 2) (r : Gpr) : lowOf (gWord op d src r) = r.num := by
  apply BitVec.eq_of_getLsbD_eq
  intro k hk
  simp only [lowOf, gWord, BitVec.getLsbD_extractLsb', BitVec.getLsbD_append]
  interval_cases k <;> simp

@[simp] theorem opcodeOf_sWord (op : BitVec 6) (mod sel : BitVec 2) (k4 : BitVec 4) : opcodeOf (sWord op mod sel k4) = op := by
  apply BitVec.eq_of_getLsbD_eq
  intro k hk
  simp only [opcodeOf, sWord, BitVec.getLsbD_extractLsb', BitVec.getLsbD_append]
  interval_cases k <;> simp

@[simp] theorem fmtOf_sWord (op : BitVec 6) (mod sel : BitVec 2) (k4 : BitVec 4) : fmtOf (sWord op mod sel k4) = 0b01#2 := by
  apply BitVec.eq_of_getLsbD_eq
  intro k hk
  simp only [fmtOf, sWord, BitVec.getLsbD_extractLsb', BitVec.getLsbD_append]
  interval_cases k <;> simp

@[simp] theorem modOf_sWord (op : BitVec 6) (mod sel : BitVec 2) (k4 : BitVec 4) : modOf (sWord op mod sel k4) = mod := by
  apply BitVec.eq_of_getLsbD_eq
  intro k hk
  simp only [modOf, sWord, BitVec.getLsbD_extractLsb', BitVec.getLsbD_append]
  interval_cases k <;> simp

@[simp] theorem selOf_sWord (op : BitVec 6) (mod sel : BitVec 2) (k4 : BitVec 4) : selOf (sWord op mod sel k4) = sel := by
  apply BitVec.eq_of_getLsbD_eq
  intro k hk
  simp only [selOf, sWord, BitVec.getLsbD_extractLsb', BitVec.getLsbD_append]
  interval_cases k <;> simp

@[simp] theorem lowOf_sWord (op : BitVec 6) (mod sel : BitVec 2) (k4 : BitVec 4) : lowOf (sWord op mod sel k4) = k4 := by
  apply BitVec.eq_of_getLsbD_eq
  intro k hk
  simp only [lowOf, sWord, BitVec.getLsbD_extractLsb', BitVec.getLsbD_append]
  interval_cases k <;> simp

@[simp] theorem dstOfBit_dBit (d : Dst) : dstOfBit (dBit d) = d := by cases d <;> rfl

@[simp] theorem src2OfBits_src2Bits (b : Src2) : src2OfBits (src2Bits b) = b := by cases b <;> rfl

@[simp] theorem src1OfBits_src1Bits (b : Src1) : src1OfBits (src1Bits b) = some b := by cases b <;> rfl

@[simp] theorem bankOfBit_bankBit (b : Bank) : bankOfBit (bankBit b) = b := by cases b <;> rfl

@[simp] theorem idxOfBits_idxBits (r : Idx) : idxOfBits (idxBits r) = some r := by cases r <;> rfl

@[simp] theorem condOfBits_condBits (c : Cond) : condOfBits (condBits c) = c := by cases c <;> rfl

@[simp] theorem modOfBits_postBits (p : Post) : modOfBits (postBits p) = .post p := by cases p <;> rfl

@[simp] theorem gprOf_gWord (op : BitVec 6) (d : BitVec 1) (src : BitVec 2) (r : Gpr) : gprOf (gWord op d src r) = r := by
  simp [gprOf]

/-- An I-fmt word is decoded by its opcode and its 9-bit value. -/
theorem decode_iWord (o : SpecialOpc) (op : BitVec 6) (i : BitVec 9) : decode o (iWord op i) = decodeI o op i := by
  simp [decode, fmtOf_iWord_ne_g, fmtOf_iWord_ne_s]

/-- A G-fmt word is decoded by its opcode, `d`, `src` and register. -/
theorem decode_gWord (o : SpecialOpc) (op : BitVec 6) (d : BitVec 1) (src : BitVec 2) (r : Gpr) :
    decode o (gWord op d src r) = decodeG o op d src r := by
  simp [decode]

/-- An S-fmt word is decoded by its opcode, `mod`, `sel` and `imm4`. -/
theorem decode_sWord (o : SpecialOpc) (op : BitVec 6) (mod sel : BitVec 2) (k : BitVec 4) :
    decode o (sWord op mod sel k) = decodeS o op mod sel k := by
  simp [decode]

end Sys2Proof
end

