-- ==== Sys2Proof/Laws/State.lean ====
section
/-! SUPPORT. One lemma for each field of the state under each update (commit, tick, placeAtPc), and for the memories. -/

namespace Sys2Proof.Machine

section commit

variable (s : State) (e : Effect)

@[simp] theorem commit_a : (commit s e).a = e.a.getD s.a := rfl
@[simp] theorem commit_x : (commit s e).x = e.x.getD s.x := rfl
@[simp] theorem commit_y : (commit s e).y = e.y.getD s.y := rfl
@[simp] theorem commit_flags : (commit s e).flags = e.flags.getD s.flags := rfl
@[simp] theorem commit_winR : (commit s e).winR = e.winR.getD s.winR := rfl
@[simp] theorem commit_winS : (commit s e).winS = e.winS.getD s.winS := rfl
@[simp] theorem commit_pc : (commit s e).pc = newPc s e := rfl
@[simp] theorem commit_npc : (commit s e).npc = newNpc s e := rfl
@[simp] theorem commit_immq : (commit s e).immq = newImmq s e := rfl
@[simp] theorem commit_mem : (commit s e).mem = newMem s e := rfl
@[simp] theorem commit_ioReqReady : (commit s e).ioReqReady = s.ioReqReady := rfl
@[simp] theorem commit_ioReadReady : (commit s e).ioReadReady = s.ioReadReady := rfl
@[simp] theorem commit_ioData : (commit s e).ioData = s.ioData := rfl
@[simp] theorem commit_ioLog : (commit s e).ioLog = s.ioLog ++ e.io.toList := rfl
@[simp] theorem commit_hist : (commit s e).hist = newHist s e := rfl
@[simp] theorem commit_params : (commit s e).params = s.params := rfl
@[simp] theorem commit_freeCount : (commit s e).freeCount = s.freeCount := rfl

end commit

section tick

variable (t : State)

@[simp] theorem tick_a : t.tick.a = t.a := rfl
@[simp] theorem tick_x : t.tick.x = t.x := rfl
@[simp] theorem tick_y : t.tick.y = t.y := rfl
@[simp] theorem tick_flags : t.tick.flags = t.flags := rfl
@[simp] theorem tick_winR : t.tick.winR = t.winR := rfl
@[simp] theorem tick_winS : t.tick.winS = t.winS := rfl
@[simp] theorem tick_pc : t.tick.pc = t.pc := rfl
@[simp] theorem tick_npc : t.tick.npc = t.npc := rfl
@[simp] theorem tick_immq : t.tick.immq = t.immq := rfl
@[simp] theorem tick_mem : t.tick.mem = t.mem := rfl
@[simp] theorem tick_ioReqReady : t.tick.ioReqReady = Config.ioReqReady t.freeCount t.ioLog := rfl
@[simp] theorem tick_ioReadReady : t.tick.ioReadReady = Config.ioReadReady t.freeCount t.ioLog := rfl
@[simp] theorem tick_ioData : t.tick.ioData = Config.ioData t.freeCount t.ioLog := rfl
@[simp] theorem tick_ioLog : t.tick.ioLog = t.ioLog := rfl
@[simp] theorem tick_hist : t.tick.hist = t.hist := rfl
@[simp] theorem tick_params : t.tick.params = t.params := rfl
@[simp] theorem tick_freeCount : t.tick.freeCount = t.freeCount + 1 := rfl

end tick

section placeAtPc

variable (s : State) (w : Word)

@[simp] theorem placeAtPc_a : (placeAtPc s w).a = s.a := rfl
@[simp] theorem placeAtPc_x : (placeAtPc s w).x = s.x := rfl
@[simp] theorem placeAtPc_y : (placeAtPc s w).y = s.y := rfl
@[simp] theorem placeAtPc_flags : (placeAtPc s w).flags = s.flags := rfl
@[simp] theorem placeAtPc_winR : (placeAtPc s w).winR = s.winR := rfl
@[simp] theorem placeAtPc_winS : (placeAtPc s w).winS = s.winS := rfl
@[simp] theorem placeAtPc_pc : (placeAtPc s w).pc = s.pc := rfl
@[simp] theorem placeAtPc_npc : (placeAtPc s w).npc = s.npc := rfl
@[simp] theorem placeAtPc_immq : (placeAtPc s w).immq = s.immq := rfl
@[simp] theorem placeAtPc_ioReqReady : (placeAtPc s w).ioReqReady = s.ioReqReady := rfl
@[simp] theorem placeAtPc_ioReadReady : (placeAtPc s w).ioReadReady = s.ioReadReady := rfl
@[simp] theorem placeAtPc_ioData : (placeAtPc s w).ioData = s.ioData := rfl
@[simp] theorem placeAtPc_ioLog : (placeAtPc s w).ioLog = s.ioLog := rfl
@[simp] theorem placeAtPc_params : (placeAtPc s w).params = s.params := rfl
@[simp] theorem placeAtPc_freeCount : (placeAtPc s w).freeCount = s.freeCount := rfl

end placeAtPc

section memory

variable (m : Memory) (a : Nat) (v : Word)

@[simp] theorem dataSet_sram : (m.dataSet a v).sram = m.sram := rfl
@[simp] theorem dataSet_rom : (m.dataSet a v).rom = m.rom := rfl
@[simp] theorem sramSet_data : (m.sramSet a v).data = m.data := rfl
@[simp] theorem sramSet_rom : (m.sramSet a v).rom = m.rom := rfl
@[simp] theorem sramSet_sram : (m.sramSet a v).sram = cellSet m.sram a v := rfl
@[simp] theorem sramSet_dataGet (b : Nat) : (m.sramSet a v).dataGet b = m.dataGet b := rfl

end memory

section effect

variable (s : State) (e : Effect)

@[simp] theorem newHist_dataWritten : (newHist s e).dataWritten = e.data.map Prod.fst := rfl
@[simp] theorem newHist_xLate : (newHist s e).xLate = e.x.isSome := rfl
@[simp] theorem newHist_yLate : (newHist s e).yLate = e.y.isSome := rfl
@[simp] theorem newHist_lastProg : (newHist s e).lastProg = e.prog := rfl
@[simp] theorem newHist_winRMoved : (newHist s e).winRMoved = e.winR.isSome := rfl
@[simp] theorem newHist_winSMoved : (newHist s e).winSMoved = e.winS.isSome := rfl
@[simp] theorem newHist_stpAddrs :
    (newHist s e).stpAddrs = (e.stp.map Prod.fst :: s.hist.stpAddrs).take s.params.stpFetchWindow := rfl

theorem newPc_seq (h : e.flow = .seq) : newPc s e = s.npc := by simp [newPc, h]

theorem newNpc_seq (h : e.flow = .seq) : newNpc s e = s.npc + 1 := by simp [newNpc, h]

theorem newImmq_none (h : e.imm = none) : newImmq s e = [] := by simp [newImmq, h]

theorem newMem_none (hd : e.data = none) (hp : e.stp = none) : newMem s e = s.mem := by simp [newMem, hd, hp]

theorem newMem_rom : (newMem s e).rom = s.mem.rom := by
  unfold newMem
  cases e.data <;> cases e.stp <;> rfl

end effect

end Sys2Proof.Machine
end

