-- ==== Sys2Proof/Laws/Memory.lean ====
section
/-! SUPPORT. The memory operations: what a read gives after a write, and that every operation keeps the canonical form. -/

namespace Sys2Proof.Machine

theorem cellGet_cellSet_same (m : Cells) (a : Nat) (v : Word) : cellGet (cellSet m a v) a = some v := by
  induction m with
  | nil => simp [cellSet, cellGet]
  | cons c m ih =>
    obtain ⟨b, u⟩ := c
    simp only [cellSet]
    split
    · simp [cellGet]
    · split
      · simp [cellGet]
      · simp_all [cellGet]

theorem cellGet_cellSet_other (m : Cells) {a b : Nat} (v : Word) (h : b ≠ a) : cellGet (cellSet m a v) b = cellGet m b := by
  induction m with
  | nil => simp [cellSet, cellGet, h]
  | cons c m ih =>
    obtain ⟨d, u⟩ := c
    simp only [cellSet]
    split
    · simp [cellGet, h]
    · split
      · rename_i _ hd
        subst hd
        simp [cellGet, h]
      · simp [cellGet, ih]

theorem cellGet_cellErase_same (m : Cells) (a : Nat) : cellGet (cellErase m a) a = none := by
  induction m with
  | nil => simp [cellErase, cellGet]
  | cons c m ih =>
    obtain ⟨b, u⟩ := c
    simp only [cellErase]
    split
    · exact ih
    · simp_all [cellGet]

theorem cellGet_cellErase_other (m : Cells) {a b : Nat} (h : b ≠ a) : cellGet (cellErase m a) b = cellGet m b := by
  induction m with
  | nil => simp [cellErase]
  | cons c m ih =>
    obtain ⟨d, u⟩ := c
    simp only [cellErase]
    split
    · rename_i hd
      subst hd
      simp [cellGet, h, ih]
    · simp [cellGet, ih]

/-- A data word read back after it was stored. -/
@[simp] theorem dataGet_dataSet_same (m : Memory) (a : Nat) (v : Word) : (m.dataSet a v).dataGet a = v := by
  unfold Memory.dataSet Memory.dataGet
  split
  · simp_all [cellGet_cellErase_same]
  · simp [cellGet_cellSet_same]

/-- A store leaves every other data word alone. -/
theorem dataGet_dataSet_other (m : Memory) {a b : Nat} (v : Word) (h : b ≠ a) :
    (m.dataSet a v).dataGet b = m.dataGet b := by
  unfold Memory.dataSet Memory.dataGet
  split
  · simp [cellGet_cellErase_other m.data h]
  · simp [cellGet_cellSet_other m.data v h]

/-! ## The canonical form -/

theorem risingFrom_mono {lo lo' : Nat} {m : Cells} (hl : lo ≤ lo') (h : risingFrom lo' m = true) : risingFrom lo m = true := by
  cases m with
  | nil => rfl
  | cons c m =>
    simp only [risingFrom, Bool.and_eq_true, decide_eq_true_eq] at h ⊢
    exact ⟨by omega, h.2⟩

theorem risingFrom_cellSet {lo : Nat} {m : Cells} {a : Nat} (v : Word) (ha : lo ≤ a) (h : risingFrom lo m = true) :
    risingFrom lo (cellSet m a v) = true := by
  induction m generalizing lo with
  | nil => simp [cellSet, risingFrom, ha]
  | cons c m ih =>
    obtain ⟨b, u⟩ := c
    simp only [risingFrom, Bool.and_eq_true, decide_eq_true_eq] at h
    simp only [cellSet]
    split
    · simp only [risingFrom, Bool.and_eq_true, decide_eq_true_eq]
      exact ⟨ha, by omega, h.2⟩
    · split
      · rename_i _ hab
        subst hab
        simp [risingFrom, h]
      · simp only [risingFrom, Bool.and_eq_true, decide_eq_true_eq]
        exact ⟨h.1, ih (by omega) h.2⟩

theorem risingFrom_cellErase {lo : Nat} {m : Cells} (a : Nat) (h : risingFrom lo m = true) :
    risingFrom lo (cellErase m a) = true := by
  induction m generalizing lo with
  | nil => rfl
  | cons c m ih =>
    obtain ⟨b, u⟩ := c
    simp only [risingFrom, Bool.and_eq_true, decide_eq_true_eq] at h
    simp only [cellErase]
    split
    · exact ih (risingFrom_mono (by omega) h.2)
    · simp only [risingFrom, Bool.and_eq_true, decide_eq_true_eq]
      exact ⟨h.1, ih h.2⟩

/-- Whatever holds of every old cell and of the new one holds of every cell after `cellSet`. -/
theorem all_cellSet {p : Nat × Word → Bool} {m : Cells} {a : Nat} {v : Word} (hp : p (a, v) = true) (h : m.all p = true) :
    (cellSet m a v).all p = true := by
  induction m with
  | nil => simp [cellSet, hp]
  | cons c m ih =>
    obtain ⟨b, u⟩ := c
    simp only [List.all_cons, Bool.and_eq_true] at h
    simp only [cellSet]
    split
    · simp_all
    · split
      · simp_all
      · simp [h.1, ih h.2]

theorem all_cellErase {p : Nat × Word → Bool} {m : Cells} (a : Nat) (h : m.all p = true) : (cellErase m a).all p = true := by
  induction m with
  | nil => rfl
  | cons c m ih =>
    obtain ⟨b, u⟩ := c
    simp only [List.all_cons, Bool.and_eq_true] at h
    simp only [cellErase]
    split
    · exact ih h.2
    · simp [h.1, ih h.2]

/-- A data store keeps the canonical form. -/
theorem wf_dataSet {m : Memory} {a : Nat} (v : Word) (h : m.wf = true) : (m.dataSet a v).wf = true := by
  simp only [Memory.wf, Bool.and_eq_true] at h ⊢
  obtain ⟨⟨⟨hr, hz⟩, hs⟩, ho⟩ := h
  refine ⟨⟨?_, hs⟩, ho⟩
  unfold Memory.dataSet
  split
  · exact ⟨risingFrom_cellErase a hr, all_cellErase a hz⟩
  · rename_i hv
    have hv' : (v != 0) = true := by simpa [unlistedData] using hv
    exact ⟨risingFrom_cellSet v (by omega) hr, all_cellSet hv' hz⟩

/-- A data store at an implemented address stays within the memory. -/
theorem within_dataSet {p : Params} {m : Memory} {a : Nat} (v : Word) (ha : a < p.dataWords) (h : m.within p = true) :
    (m.dataSet a v).within p = true := by
  simp only [Memory.within, Bool.and_eq_true] at h ⊢
  obtain ⟨⟨hb, hs⟩, ho⟩ := h
  refine ⟨⟨?_, hs⟩, ho⟩
  unfold Memory.dataSet
  split
  · exact all_cellErase a hb
  · exact all_cellSet (by simpa using ha) hb

/-- A program store keeps the canonical form. -/
theorem wf_sramSet {m : Memory} {a : Nat} (v : Word) (h : m.wf = true) : (m.sramSet a v).wf = true := by
  simp only [Memory.wf, Bool.and_eq_true] at h ⊢
  exact ⟨⟨h.1.1, risingFrom_cellSet v (by omega) h.1.2⟩, h.2⟩

/-- A program store at an SPRAM address stays within the memory. -/
theorem within_sramSet {p : Params} {m : Memory} {a : Nat} (v : Word) (ha : a < p.progWords) (h : m.within p = true) :
    (m.sramSet a v).within p = true := by
  simp only [Memory.within, Bool.and_eq_true] at h ⊢
  exact ⟨⟨h.1.1, all_cellSet (by simpa using ha) h.1.2⟩, h.2⟩

/-- Placing a ROM word keeps the canonical form. -/
theorem wf_romSet {m : Memory} {k : Nat} (v : Word) (h : m.wf = true) : Memory.wf { m with rom := cellSet m.rom k v } = true := by
  simp only [Memory.wf, Bool.and_eq_true] at h ⊢
  exact ⟨h.1, risingFrom_cellSet v (by omega) h.2⟩

/-- A ROM word placed at an offset that exists stays within the memory. -/
theorem within_romSet {p : Params} {m : Memory} {k : Nat} (v : Word) (hk : k < Config.bootRomWords) (h : m.within p = true) :
    Memory.within p { m with rom := cellSet m.rom k v } = true := by
  simp only [Memory.within, Bool.and_eq_true] at h ⊢
  exact ⟨h.1, all_cellSet (by simpa using hk) h.2⟩

theorem reset_mem_wf : State.reset.mem.wf = true := by decide

/-- Where a program address leads is an implemented place. -/
theorem progMap_cases (p : Params) (a : Word) :
    (∃ k, progMap p a = .rom k ∧ k < Config.bootRomWords ∧ a.toNat = p.bootAddr.toNat + k) ∨
    (progMap p a = .sram a.toNat ∧ a.toNat < p.progWords) ∨
    (progMap p a = .absent ∧ p.progWords ≤ a.toNat) := by
  unfold progMap
  split
  · rename_i h
    exact .inl ⟨_, rfl, by omega, by omega⟩
  · split
    · rename_i h
      exact .inr (.inl ⟨rfl, h⟩)
    · exact .inr (.inr ⟨rfl, by omega⟩)

/-- STP is let through only to an SPRAM address. -/
theorem storeProgCheck_ok {s : State} {a : Word} (h : storeProgCheck s a = .ok ()) :
    progMap s.params a = .sram a.toNat ∧ a.toNat < s.params.progWords := by
  rcases progMap_cases s.params a with ⟨k, hk, -, -⟩ | ⟨hk, hl⟩ | ⟨hk, -⟩
  · simp [storeProgCheck, hk] at h
  · exact ⟨hk, hl⟩
  · simp [storeProgCheck, hk] at h

/-- Placing a word where `pc` fetches keeps the canonical form and stays within the memory. -/
theorem wf_placeAtPc {s : State} (w : Word) (h : s.mem.wf = true) (hw : s.mem.within s.params = true) :
    (placeAtPc s w).mem.wf = true ∧ (placeAtPc s w).mem.within s.params = true := by
  unfold placeAtPc
  rcases progMap_cases s.params s.pc with ⟨k, hk, hl, -⟩ | ⟨hk, hl⟩ | ⟨hk, -⟩
  · simpa [hk] using ⟨wf_romSet w h, within_romSet w hl hw⟩
  · simpa [hk] using ⟨wf_sramSet w h, within_sramSet w hl hw⟩
  · simpa [hk] using ⟨h, hw⟩

end Sys2Proof.Machine
end

