-- ==== Sys2Proof/Laws/Ops.lean ====
section
/-! SUPPORT. What the shared operations can do, said once: the provers cite these instead of unfolding. -/

namespace Sys2Proof.Machine

section andThen

variable {α β : Type}

@[simp] theorem andThen_ok (v : α) (k : α → Except Fault β) : andThen (.ok v) k = k v := rfl

@[simp] theorem andThen_error (f : Fault) (k : α → Except Fault β) : andThen (.error f) k = .error f := rfl

/-- A sequence answers only if each part does. -/
theorem andThen_eq_ok {r : Except Fault α} {k : α → Except Fault β} {b : β} :
    andThen r k = .ok b ↔ ∃ a, r = .ok a ∧ k a = .ok b := by
  cases r <;> simp

end andThen

@[simp] theorem run_ok (s : State) (e : Effect) : run s (.ok e) = .next (commit s e) := rfl

@[simp] theorem run_error (s : State) (f : Fault) : run s (.error f) = .fault f := rfl

/-- An instruction answers a next state only by committing an effect. -/
theorem run_eq_next {s t : State} {r : Except Fault Effect} : run s r = .next t ↔ ∃ e, r = .ok e ∧ t = commit s e := by
  cases r with
  | ok e => simp [eq_comm (a := t)]
  | error f => simp

theorem run_ne_refused {s : State} {r : Except Fault Effect} {x : Refusal} : run s r ≠ .refused x := by
  cases r <;> simp

/-! ## Operands -/

theorem immI_eq_ok {q : List Byte} {i : BitVec 9} {v : Word} :
    immI q i = .ok v ↔ (q = [] ∧ v = i.signExtend 16) ∨ ∃ h, q = [h] ∧ v = h ++ i.extractLsb' 0 8 := by
  rcases q with - | ⟨h, - | ⟨l, q⟩⟩ <;> simp [immI, eq_comm (a := v)]

theorem immG_eq_ok {q : List Byte} {v : Word} : immG q = .ok v ↔ ∃ h l, q = [h, l] ∧ v = h ++ l := by
  rcases q with - | ⟨h, - | ⟨l, - | ⟨k, q⟩⟩⟩ <;> simp [immG, eq_comm (a := v)]

@[simp] theorem immNone_eq_ok {q : List Byte} {u : Unit} : immNone q = .ok u ↔ q = [] := by
  cases q <;> simp [immNone]

theorem imm2_eq_ok {src : Src2} {q : List Byte} {i : Word} :
    imm2 src q = .ok i ↔
      ((src = .aGpr ∨ src = .gprA) ∧ q = [] ∧ i = 0) ∨ ((src = .aImm ∨ src = .gprImm) ∧ ∃ h l, q = [h, l] ∧ i = h ++ l) := by
  cases src <;> simp [imm2, immG_eq_ok, andThen_eq_ok, eq_comm (a := i)]

@[simp] theorem mayWriteA_eq_ok {s : State} {u : Unit} : mayWriteA s = .ok u ↔ s.hist.lastProg ≠ some .load := by
  unfold mayWriteA
  split <;> simp_all

/-- A write of `A` right after LDP stops (R178). -/
theorem mayWriteA_eq_error {s : State} {f : Fault} :
    mayWriteA s = .error f ↔ s.hist.lastProg = some .load ∧ f = .hazard .aAfterLdp := by
  unfold mayWriteA
  split <;> simp_all [eq_comm (a := f)]

@[simp] theorem mayWriteDst_eq_ok {d : Dst} {s : State} {u : Unit} :
    mayWriteDst d s = .ok u ↔ (d = .a → s.hist.lastProg ≠ some .load) := by
  cases d <;> simp [mayWriteDst]

@[simp] theorem readIdx_eq_ok {s : State} {r : Idx} {v : Word} : readIdx s r = .ok v ↔ idxLate s r = false ∧ v = s.idx r := by
  unfold readIdx
  split <;> simp_all [eq_comm (a := v)]

theorem mayWriteA_of_not_late {s : State} (h : s.hist.lastProg ≠ some .load) : mayWriteA s = .ok () := by simp [h]

theorem readIdx_of_not_late {s : State} {r : Idx} (h : idxLate s r = false) : readIdx s r = .ok (s.idx r) := by simp [h]

/-- Right after it changed an index register cannot be read (R176). -/
theorem readIdx_of_late {s : State} {r : Idx} (h : idxLate s r = true) : readIdx s r = .error (.hazard .indexLate) := by
  simp [readIdx, h]

theorem dataAddr_eq_ok {s : State} {ea : Word} {a : Nat} :
    dataAddr s ea = .ok a ↔ a = ea.toNat ∧ ea.toNat < s.params.dataWords := by
  unfold dataAddr
  split
  · simp_all [eq_comm (a := a)]
  · rename_i h
    simp [h]

/-- A GPR that can be reached is a data word, of a bank whose window did not just move. -/
theorem gprAddr_ok {s : State} {r : Gpr} {a : Nat} (h : gprAddr s r = .ok a) :
    a < s.params.dataWords ∧ windowMoved s r.bank = false := by
  unfold gprAddr at h
  split at h
  · simp at h
  · rename_i hm
    refine ⟨?_, by simpa using hm⟩
    split at h
    · rw [dataAddr_eq_ok] at h
      omega
    · split at h
      · simp only [Except.ok.injEq] at h
        omega
      · simp at h

/-- Right after WIN moved its bank a GPR cannot be reached (R182). -/
theorem gprAddr_of_moved {s : State} {r : Gpr} (h : windowMoved s r.bank = true) : gprAddr s r = .error (.hazard .gprAfterWin) := by
  simp [gprAddr, h]

theorem readGpr_eq_ok {s : State} {r : Gpr} {v : Word} : readGpr s r = .ok v ↔ ∃ a, gprAddr s r = .ok a ∧ v = readData s a := by
  simp [readGpr, andThen_eq_ok, eq_comm (a := v)]

theorem writeGpr_eq_ok {s : State} {r : Gpr} {v : Word} {e : Effect} :
    writeGpr s r v = .ok e ↔ ∃ a, gprAddr s r = .ok a ∧ e = { data := some (a, v) } := by
  simp [writeGpr, andThen_eq_ok, eq_comm (a := e)]

/-- A G-fmt result goes to `A` or to a data word that exists. -/
theorem writeDst_eq_ok {d : Dst} {r : Gpr} {v : Word} {s : State} {e : Effect} :
    writeDst d r v s = .ok e ↔
      (d = .a ∧ e = { a := some v }) ∨ (d = .gpr ∧ ∃ a, gprAddr s r = .ok a ∧ e = { data := some (a, v) }) := by
  cases d <;> simp [writeDst, writeGpr_eq_ok, eq_comm (a := e)]

/-- Out of the window of R175 a data read is the memory's word. -/
theorem readData_of_ne {s : State} {a : Nat} (h : s.hist.dataWritten ≠ some a) : readData s a = s.mem.dataGet a := by
  simp [readData, h]

theorem readA_of_not_late {s : State} (h : s.hist.lastProg ≠ some .load) : readA s = s.a := by
  simp [readA, h]

/-- An indexed access answers its access's effect, with the post-modified register if there is one. -/
theorem indexed_eq_ok {s : State} {p : Option Post} {r : Idx} {k : BitVec 4} {f : Word → Except Fault Effect} {e : Effect} :
    indexed s p r k f = .ok e ↔ s.immq = [] ∧ idxLate s r = false ∧ ∃ e', f (indexedEa (s.idx r) k) = .ok e' ∧
      e = postModify p r (s.idx r) e' := by
  simp [indexed, andThen_eq_ok, eq_comm (a := e), and_assoc]

/-! ## Instructions -/

/-- A two-operand I-fmt instruction answers the flags, and with `w` the result in `A`; then not right after LDP. -/
theorem alu2Imm_eq_ok {f : Alu2Fn} {w : Bool} {i : BitVec 9} {s : State} {e : Effect} :
    alu2Imm f w i s = .ok e ↔ ∃ v, immI s.immq i = .ok v ∧ (w = true → s.hist.lastProg ≠ some .load) ∧
      e = { a := if w then some (alu2At f (readA s) v s).1 else none, flags := some (alu2At f (readA s) v s).2 } := by
  cases w <;> simp [alu2Imm, andThen_eq_ok, eq_comm (a := e)]

/-- A two-operand G-fmt instruction answers the flags, and with `w` the result in its destination. -/
theorem alu2Gpr_eq_ok {f : Alu2Fn} {w : Bool} {d : Dst} {src : Src2} {r : Gpr} {s : State} {e : Effect} :
    alu2Gpr f w d src r s = .ok e ↔ ∃ i ab e', imm2 src s.immq = .ok i ∧ (w = true → d = .a → s.hist.lastProg ≠ some .load) ∧
      operands2 src r i s = .ok ab ∧ (if w then writeDst d r (alu2At f ab.1 ab.2 s).1 s else .ok {}) = .ok e' ∧
      e = { e' with flags := some (alu2At f ab.1 ab.2 s).2 } := by
  cases w <;> simp [alu2Gpr, andThen_eq_ok, eq_comm (a := e)]

/-- A one-operand instruction answers the flags and the result in its destination. -/
theorem alu1Gpr_eq_ok {f : Alu1Fn} {d : Dst} {src : Src1} {r : Gpr} {s : State} {e : Effect} :
    alu1Gpr f d src r s = .ok e ↔ s.immq = [] ∧ (d = .a → s.hist.lastProg ≠ some .load) ∧ ∃ v e', operand1 src r s = .ok v ∧
      writeDst d r (alu1At f v s).1 s = .ok e' ∧ e = { e' with flags := some (alu1At f v s).2 } := by
  simp [alu1Gpr, andThen_eq_ok, eq_comm (a := e)]

theorem loadData_eq_ok {ea : Word} {s : State} {e : Effect} :
    loadData ea s = .ok e ↔ s.hist.lastProg ≠ some .load ∧ ea.toNat < s.params.dataWords ∧ e = { a := some (readData s ea.toNat) } := by
  simp [loadData, andThen_eq_ok, dataAddr_eq_ok, eq_comm (a := e)]

theorem storeData_eq_ok {ea : Word} {s : State} {e : Effect} :
    storeData ea s = .ok e ↔ ea.toNat < s.params.dataWords ∧ e = { data := some (ea.toNat, readA s) } := by
  simp [storeData, andThen_eq_ok, dataAddr_eq_ok, eq_comm (a := e)]

theorem ioReadData_eq_ok {ea : Word} {s : State} {e : Effect} :
    ioReadData ea s = .ok e ↔ s.hist.lastProg ≠ some .load ∧ e = { a := some (ioWord s), io := some (.readData ea (ioWord s)) } := by
  simp [ioReadData, andThen_eq_ok, eq_comm (a := e)]

theorem mayLink_eq_ok {link taken : Bool} {s : State} {u : Unit} :
    mayLink link taken s = .ok u ↔ (link && taken && s.hist.lastProg.isSome) = false := by
  unfold mayLink
  cases link && taken && s.hist.lastProg.isSome <;> simp

/-- A branch answers the link and the flow of R145, unless a delay slot forbids it (R154) or its link is not described (R177). -/
theorem branch_eq_ok {link rel : Bool} {cc : Cond} {t : Word} {s : State} {e : Effect} :
    branch link rel cc t s = .ok e ↔
      (s.hist.slot && (link || cc != .never)) = false ∧
      (link && condHolds s.params.ccPolarity cc s.flags.z && s.hist.lastProg.isSome) = false ∧
      e = { x := if link then some (linkValue s) else none
            flow := branchFlow (condHolds s.params.ccPolarity cc s.flags.z) (branchTarget rel t s) s } := by
  unfold branch
  cases s.hist.slot && (link || cc != .never)
  · simp only [Bool.false_eq_true, if_false, andThen_eq_ok, mayLink_eq_ok, Except.ok.injEq, true_and, eq_comm (a := e)]
    exact ⟨fun ⟨_, hl, he⟩ => ⟨hl, he⟩, fun ⟨hl, he⟩ => ⟨(), hl, he⟩⟩
  · simp

theorem loadProg_eq_ok {ea : Word} {s : State} {e : Effect} :
    loadProg ea s = .ok e ↔ s.hist.lastProg = none ∧ ∃ v, readProg s ea = .ok v ∧ e = { a := some v, prog := some .load } := by
  cases h : s.hist.lastProg <;> simp [loadProg, notConsecutive, h, andThen_eq_ok, eq_comm (a := e)]

theorem storeProg_eq_ok {ea : Word} {s : State} {e : Effect} :
    storeProg ea s = .ok e ↔ s.hist.lastProg = none ∧ storeProgCheck s ea = .ok () ∧
      e = { stp := some (ea, readA s), prog := some .store } := by
  cases h : s.hist.lastProg
  · simp only [storeProg, notConsecutive, h, Option.isSome_none, Bool.false_eq_true, if_false, andThen_ok, andThen_eq_ok,
      true_and, Except.ok.injEq, eq_comm (b := e)]
    exact ⟨fun ⟨_, hc, he⟩ => ⟨hc, he⟩, fun ⟨hc, he⟩ => ⟨(), hc, he⟩⟩
  · simp [storeProg, notConsecutive, h]

theorem movs_eq_ok {s : State} {e e' : Effect} : movs s e = .ok e' ↔ s.immq = [] ∧ e' = e := by
  simp [movs, andThen_eq_ok, eq_comm (a := e')]

theorem movsToA_eq_ok {s : State} {v : Word} {e e' : Effect} :
    movsToA s v e = .ok e' ↔ s.immq = [] ∧ s.hist.lastProg ≠ some .load ∧ e' = { e with a := some v } := by
  simp [movsToA, andThen_eq_ok, eq_comm (a := e')]

theorem movsIdx_eq_ok {s : State} {r : Idx} {e : Word → Effect} {e' : Effect} :
    movsIdx s r e = .ok e' ↔ s.immq = [] ∧ idxLate s r = false ∧ s.hist.lastProg ≠ some .load ∧
      e' = { e (s.idx r) with a := some (s.idx r) } := by
  simp only [movsIdx, andThen_eq_ok, immNone_eq_ok, readIdx_eq_ok, movsToA_eq_ok]
  exact ⟨fun ⟨_, hq, v, ⟨hl, hv⟩, _, hp, he⟩ => ⟨hq, hl, hp, hv ▸ he⟩, fun ⟨hq, hl, hp, he⟩ => ⟨(), hq, _, ⟨hl, rfl⟩, hq, hp, he⟩⟩

theorem ioReady_eq_ok {s : State} {u : Unit} : ioReady s = .ok u ↔ s.ioReqReady = true := by
  unfold ioReady
  split <;> simp_all

/-! ## The step -/

/-- A step settles to a next state only from a next state and with no fetch hazard. -/
theorem settle_eq_next {b : Bool} {o : Host.Outcome State Fault Refusal} {t : State} :
    settle b o = .next t ↔ b = false ∧ ∃ u, o = .next u ∧ t = u.tick := by
  cases o with
  | next u => cases b <;> simp [settle, eq_comm (a := t)]
  | fault f => cases b <;> cases h : isPrefixMisuse f <;> simp [settle, h]
  | refused r => simp [settle]

/-- A step that goes on fetched a word, decoded an instruction, and ran it with no fetch hazard. -/
theorem step_eq_next {s t : State} :
    step s = .next t ↔ ∃ w i u, fetch s = .ok w ∧ decode s.params.special w = .ok i ∧ fetchHazard s = false ∧ exec i s = .next u ∧ t = u.tick := by
  unfold step
  cases hf : fetch s with
  | error f => simp
  | ok w =>
    cases hd : decode s.params.special w with
    | error r => simp [hd]
    | ok i => simp [hd, settle_eq_next]

end Sys2Proof.Machine
end

