-- ==== Sys2Proof/Laws/Exec.lean ====
section
/-! SUPPORT. What each arm of `exec` runs: one lemma for each constructor, true by unfolding the arm and its meaning once. -/

namespace Sys2Proof.Machine

@[simp] theorem exec_addNwI (i : BitVec 9) (s : State) : exec (.addNwI i) s =
    run s (alu2Imm .add false i s) := rfl

@[simp] theorem exec_addNwG (d : Dst) (src : Src2) (r : Gpr) (s : State) : exec (.addNwG d src r) s =
    run s (alu2Gpr .add false d src r s) := rfl

@[simp] theorem exec_addcyNwI (i : BitVec 9) (s : State) : exec (.addcyNwI i) s =
    run s (alu2Imm .addcy false i s) := rfl

@[simp] theorem exec_addcyNwG (d : Dst) (src : Src2) (r : Gpr) (s : State) : exec (.addcyNwG d src r) s =
    run s (alu2Gpr .addcy false d src r s) := rfl

@[simp] theorem exec_cmpI (i : BitVec 9) (s : State) : exec (.cmpI i) s =
    run s (alu2Imm .sub false i s) := rfl

@[simp] theorem exec_cmpG (d : Dst) (src : Src2) (r : Gpr) (s : State) : exec (.cmpG d src r) s =
    run s (alu2Gpr .sub false d src r s) := rfl

@[simp] theorem exec_subcyNwI (i : BitVec 9) (s : State) : exec (.subcyNwI i) s =
    run s (alu2Imm .subcy false i s) := rfl

@[simp] theorem exec_subcyNwG (d : Dst) (src : Src2) (r : Gpr) (s : State) : exec (.subcyNwG d src r) s =
    run s (alu2Gpr .subcy false d src r s) := rfl

@[simp] theorem exec_testI (i : BitVec 9) (s : State) : exec (.testI i) s =
    run s (alu2Imm .and false i s) := rfl

@[simp] theorem exec_testG (d : Dst) (src : Src2) (r : Gpr) (s : State) : exec (.testG d src r) s =
    run s (alu2Gpr .and false d src r s) := rfl

@[simp] theorem exec_andnNwI (i : BitVec 9) (s : State) : exec (.andnNwI i) s =
    run s (alu2Imm .andn false i s) := rfl

@[simp] theorem exec_andnNwG (d : Dst) (src : Src2) (r : Gpr) (s : State) : exec (.andnNwG d src r) s =
    run s (alu2Gpr .andn false d src r s) := rfl

@[simp] theorem exec_orNwI (i : BitVec 9) (s : State) : exec (.orNwI i) s =
    run s (alu2Imm .or false i s) := rfl

@[simp] theorem exec_orNwG (d : Dst) (src : Src2) (r : Gpr) (s : State) : exec (.orNwG d src r) s =
    run s (alu2Gpr .or false d src r s) := rfl

@[simp] theorem exec_xorNwI (i : BitVec 9) (s : State) : exec (.xorNwI i) s =
    run s (alu2Imm .xor false i s) := rfl

@[simp] theorem exec_xorNwG (d : Dst) (src : Src2) (r : Gpr) (s : State) : exec (.xorNwG d src r) s =
    run s (alu2Gpr .xor false d src r s) := rfl

@[simp] theorem exec_addI (i : BitVec 9) (s : State) : exec (.addI i) s =
    run s (alu2Imm .add true i s) := rfl

@[simp] theorem exec_addG (d : Dst) (src : Src2) (r : Gpr) (s : State) : exec (.addG d src r) s =
    run s (alu2Gpr .add true d src r s) := rfl

@[simp] theorem exec_addcyI (i : BitVec 9) (s : State) : exec (.addcyI i) s =
    run s (alu2Imm .addcy true i s) := rfl

@[simp] theorem exec_addcyG (d : Dst) (src : Src2) (r : Gpr) (s : State) : exec (.addcyG d src r) s =
    run s (alu2Gpr .addcy true d src r s) := rfl

@[simp] theorem exec_subI (i : BitVec 9) (s : State) : exec (.subI i) s =
    run s (alu2Imm .sub true i s) := rfl

@[simp] theorem exec_subG (d : Dst) (src : Src2) (r : Gpr) (s : State) : exec (.subG d src r) s =
    run s (alu2Gpr .sub true d src r s) := rfl

@[simp] theorem exec_subcyI (i : BitVec 9) (s : State) : exec (.subcyI i) s =
    run s (alu2Imm .subcy true i s) := rfl

@[simp] theorem exec_subcyG (d : Dst) (src : Src2) (r : Gpr) (s : State) : exec (.subcyG d src r) s =
    run s (alu2Gpr .subcy true d src r s) := rfl

@[simp] theorem exec_andI (i : BitVec 9) (s : State) : exec (.andI i) s =
    run s (alu2Imm .and true i s) := rfl

@[simp] theorem exec_andG (d : Dst) (src : Src2) (r : Gpr) (s : State) : exec (.andG d src r) s =
    run s (alu2Gpr .and true d src r s) := rfl

@[simp] theorem exec_andnI (i : BitVec 9) (s : State) : exec (.andnI i) s =
    run s (alu2Imm .andn true i s) := rfl

@[simp] theorem exec_andnG (d : Dst) (src : Src2) (r : Gpr) (s : State) : exec (.andnG d src r) s =
    run s (alu2Gpr .andn true d src r s) := rfl

@[simp] theorem exec_orI (i : BitVec 9) (s : State) : exec (.orI i) s =
    run s (alu2Imm .or true i s) := rfl

@[simp] theorem exec_orG (d : Dst) (src : Src2) (r : Gpr) (s : State) : exec (.orG d src r) s =
    run s (alu2Gpr .or true d src r s) := rfl

@[simp] theorem exec_xorI (i : BitVec 9) (s : State) : exec (.xorI i) s =
    run s (alu2Imm .xor true i s) := rfl

@[simp] theorem exec_xorG (d : Dst) (src : Src2) (r : Gpr) (s : State) : exec (.xorG d src r) s =
    run s (alu2Gpr .xor true d src r s) := rfl

@[simp] theorem exec_inc (d : Dst) (src : Src1) (r : Gpr) (s : State) : exec (.inc d src r) s =
    run s (alu1Gpr .inc d src r s) := rfl

@[simp] theorem exec_dec (d : Dst) (src : Src1) (r : Gpr) (s : State) : exec (.dec d src r) s =
    run s (alu1Gpr .dec d src r s) := rfl

@[simp] theorem exec_rol (d : Dst) (src : Src1) (r : Gpr) (s : State) : exec (.rol d src r) s =
    run s (alu1Gpr .rol d src r s) := rfl

@[simp] theorem exec_sl0 (d : Dst) (src : Src1) (r : Gpr) (s : State) : exec (.sl0 d src r) s =
    run s (alu1Gpr .sl0 d src r s) := rfl

@[simp] theorem exec_sl1 (d : Dst) (src : Src1) (r : Gpr) (s : State) : exec (.sl1 d src r) s =
    run s (alu1Gpr .sl1 d src r s) := rfl

@[simp] theorem exec_slc (d : Dst) (src : Src1) (r : Gpr) (s : State) : exec (.slc d src r) s =
    run s (alu1Gpr .slc d src r s) := rfl

@[simp] theorem exec_ror (d : Dst) (src : Src1) (r : Gpr) (s : State) : exec (.ror d src r) s =
    run s (alu1Gpr .ror d src r s) := rfl

@[simp] theorem exec_sr0 (d : Dst) (src : Src1) (r : Gpr) (s : State) : exec (.sr0 d src r) s =
    run s (alu1Gpr .sr0 d src r s) := rfl

@[simp] theorem exec_sra (d : Dst) (src : Src1) (r : Gpr) (s : State) : exec (.sra d src r) s =
    run s (alu1Gpr .sra d src r s) := rfl

@[simp] theorem exec_src (d : Dst) (src : Src1) (r : Gpr) (s : State) : exec (.src d src r) s =
    run s (alu1Gpr .src d src r s) := rfl

@[simp] theorem exec_ldpI (i : BitVec 9) (s : State) : exec (.ldpI i) s =
    run s (andThen (immI s.immq i) fun ea => loadProg ea s) := rfl

@[simp] theorem exec_ldpX (s : State) : exec (.ldpX) s =
    run s (andThen (immNone s.immq) fun _ => andThen (readIdx s .x) fun ea => loadProg ea s) := rfl

@[simp] theorem exec_stpI (i : BitVec 9) (s : State) : exec (.stpI i) s =
    run s (andThen (immI s.immq i) fun ea => storeProg ea s) := rfl

@[simp] theorem exec_stpX (s : State) : exec (.stpX) s =
    run s (andThen (immNone s.immq) fun _ => andThen (readIdx s .x) fun ea => storeProg ea s) := rfl

@[simp] theorem exec_lddI (i : BitVec 9) (s : State) : exec (.lddI i) s =
    run s (andThen (immI s.immq i) fun ea => loadData ea s) := rfl

@[simp] theorem exec_lddS (r : Idx) (k : BitVec 4) (s : State) : exec (.lddS r k) s =
    run s (indexed s none r k fun ea => loadData ea s) := rfl

@[simp] theorem exec_lddSPost (p : Post) (r : Idx) (k : BitVec 4) (s : State) : exec (.lddSPost p r k) s =
    run s (indexed s (some p) r k fun ea => loadData ea s) := rfl

@[simp] theorem exec_stdI (i : BitVec 9) (s : State) : exec (.stdI i) s =
    run s (andThen (immI s.immq i) fun ea => storeData ea s) := rfl

@[simp] theorem exec_stdS (r : Idx) (k : BitVec 4) (s : State) : exec (.stdS r k) s =
    run s (indexed s none r k fun ea => storeData ea s) := rfl

@[simp] theorem exec_stdSPost (p : Post) (r : Idx) (k : BitVec 4) (s : State) : exec (.stdSPost p r k) s =
    run s (indexed s (some p) r k fun ea => storeData ea s) := rfl

@[simp] theorem exec_movAReg (r : Gpr) (s : State) : exec (.movAReg r) s =
    run s (andThen (immNone s.immq) fun _ => andThen (mayWriteA s) fun _ => andThen (readGpr s r) fun g => .ok { a := some g }) := rfl

@[simp] theorem exec_movRegA (r : Gpr) (s : State) : exec (.movRegA r) s =
    run s (andThen (immNone s.immq) fun _ => writeGpr s r (readA s)) := rfl

@[simp] theorem exec_iorrI (i : BitVec 9) (s : State) : exec (.iorrI i) s =
    run s (andThen (immI s.immq i) fun ea => ioReadRequest ea s) := rfl

@[simp] theorem exec_iorrS (r : Idx) (k : BitVec 4) (s : State) : exec (.iorrS r k) s =
    run s (indexed s none r k fun ea => ioReadRequest ea s) := rfl

@[simp] theorem exec_iorrSPost (p : Post) (r : Idx) (k : BitVec 4) (s : State) : exec (.iorrSPost p r k) s =
    run s (indexed s (some p) r k fun ea => ioReadRequest ea s) := rfl

@[simp] theorem exec_iordI (i : BitVec 9) (s : State) : exec (.iordI i) s =
    run s (andThen (immI s.immq i) fun ea => ioReadData ea s) := rfl

@[simp] theorem exec_iordS (r : Idx) (k : BitVec 4) (s : State) : exec (.iordS r k) s =
    run s (indexed s none r k fun ea => ioReadData ea s) := rfl

@[simp] theorem exec_iordSPost (p : Post) (r : Idx) (k : BitVec 4) (s : State) : exec (.iordSPost p r k) s =
    run s (indexed s (some p) r k fun ea => ioReadData ea s) := rfl

@[simp] theorem exec_iowrI (i : BitVec 9) (s : State) : exec (.iowrI i) s =
    run s (andThen (immI s.immq i) fun ea => ioWriteRequest ea s) := rfl

@[simp] theorem exec_iowrS (r : Idx) (k : BitVec 4) (s : State) : exec (.iowrS r k) s =
    run s (indexed s none r k fun ea => ioWriteRequest ea s) := rfl

@[simp] theorem exec_iowrSPost (p : Post) (r : Idx) (k : BitVec 4) (s : State) : exec (.iowrSPost p r k) s =
    run s (indexed s (some p) r k fun ea => ioWriteRequest ea s) := rfl

@[simp] theorem exec_movsRead (r : Idx) (s : State) : exec (.movsRead r) s =
    run s (movsIdx s r fun _ => {}) := rfl

@[simp] theorem exec_movsReadPost (p : Post) (r : Idx) (s : State) : exec (.movsReadPost p r) s =
    run s (movsIdx s r fun v => postModify (some p) r v {}) := rfl

@[simp] theorem exec_movsReadMcsr (s : State) : exec (.movsReadMcsr) s =
    run s (movsToA s s.mcsr {}) := rfl

@[simp] theorem exec_movsReadBswap (s : State) : exec (.movsReadBswap) s =
    run s (movsToA s (bswap (readA s)) {}) := rfl

@[simp] theorem exec_movsWrite (r : Idx) (s : State) : exec (.movsWrite r) s =
    run s (movs s (withIdx {} r (readA s))) := rfl

@[simp] theorem exec_win (k : BitVec 4) (s : State) : exec (.win k) s =
    run s (movs s { winR := winNewR s k (readA s), winS := winNewS s k (readA s) }) := rfl

@[simp] theorem exec_movsSwap (r : Idx) (s : State) : exec (.movsSwap r) s =
    run s (movsIdx s r fun _ => withIdx {} r (readA s)) := rfl

@[simp] theorem exec_movsSwapMcsr (k : BitVec 4) (s : State) : exec (.movsSwapMcsr k) s =
    run s (movsToA s s.mcsr { winR := winNewR s k (readA s), winS := winNewS s k (readA s) }) := rfl

@[simp] theorem exec_movsNone (s : State) : exec (.movsNone) s =
    run s (movs s {}) := rfl

@[simp] theorem exec_movsNoneSel (sel : BitVec 2) (s : State) : exec (.movsNoneSel sel) s =
    run s (movs s {}) := rfl

@[simp] theorem exec_ldi (i : BitVec 9) (s : State) : exec (.ldi i) s =
    run s (andThen (immI s.immq i) fun v => andThen (mayWriteA s) fun _ => .ok { a := some v }) := rfl

@[simp] theorem exec_imm (i : BitVec 9) (s : State) : exec (.imm i) s =
    run s (immPrefix i s) := rfl

@[simp] theorem exec_xcc (i : BitVec 9) (s : State) : exec (.xcc i) s =
    run s (andThen (immI s.immq i) fun v => xccOn v s) := rfl

@[simp] theorem exec_ba (cc : Cond) (i : BitVec 9) (s : State) : exec (.ba cc i) s =
    run s (branchImm false false cc i s) := rfl

@[simp] theorem exec_br (cc : Cond) (i : BitVec 9) (s : State) : exec (.br cc i) s =
    run s (branchImm false true cc i s) := rfl

@[simp] theorem exec_bal (cc : Cond) (i : BitVec 9) (s : State) : exec (.bal cc i) s =
    run s (branchImm true false cc i s) := rfl

@[simp] theorem exec_brl (cc : Cond) (i : BitVec 9) (s : State) : exec (.brl cc i) s =
    run s (branchImm true true cc i s) := rfl

@[simp] theorem exec_bax (cc : Cond) (s : State) : exec (.bax cc) s =
    run s (branchX false false cc s) := rfl

@[simp] theorem exec_brx (cc : Cond) (s : State) : exec (.brx cc) s =
    run s (branchX false true cc s) := rfl

@[simp] theorem exec_balx (cc : Cond) (s : State) : exec (.balx cc) s =
    run s (branchX true false cc s) := rfl

@[simp] theorem exec_brlx (cc : Cond) (s : State) : exec (.brlx cc) s =
    run s (branchX true true cc s) := rfl

@[simp] theorem exec_nop (s : State) : exec (.nop) s =
    run s (branchImm false false .never 0 s) := rfl

/-- Every meaning is an effect committed, or a stop: no instruction is refused. -/
theorem exec_eq_run (i : Instr) (s : State) : ∃ r, exec i s = run s r := by
  cases i <;> exact ⟨_, rfl⟩

/-- An instruction that goes on committed an effect. -/
theorem exec_next {i : Instr} {s t : State} (h : exec i s = .next t) : ∃ e, t = commit s e := by
  obtain ⟨r, hr⟩ := exec_eq_run i s
  rw [hr, run_eq_next] at h
  exact ⟨h.choose, h.choose_spec.2⟩

end Sys2Proof.Machine
end

