-- ==== Sys2Proof/Laws/Flags.lean ====
section
/-! SUPPORT. The 17-bit sums of R71 against exact sums of numbers and of signed numbers. -/

namespace Sys2Proof.Machine

/-- The result and the flags of a sum are those of the exact sum. -/
theorem arith_eq_exactAdd (a b : Word) (c : Bool) : arith a b c = exactAdd a b c.toNat := by
  unfold arith exactAdd sum17
  have hr : (a.zeroExtend 17 + b.zeroExtend 17 + (BitVec.ofBool c).zeroExtend 17).extractLsb' 0 16 = a + b + BitVec.ofNat 16 c.toNat := by
    apply BitVec.eq_of_toNat_eq
    cases c <;> simp [BitVec.toNat_add, BitVec.extractLsb'_toNat]
  simp only [hr, Prod.mk.injEq, Flags.mk.injEq, true_and]
  have ha := a.isLt
  have hb := b.isLt
  constructor
  · rw [BitVec.msb_eq_decide]
    cases c <;> simp [BitVec.toNat_add] <;> omega
  · generalize hr : a + b + BitVec.ofNat 16 c.toNat = r
    have hrn : r.toNat = (a.toNat + b.toNat + c.toNat) % 65536 := by
      rw [← hr]
      cases c <;> simp [BitVec.toNat_add]
    have hc : c.toNat ≤ 1 := by cases c <;> simp
    have hl := r.isLt
    rw [BitVec.msb_eq_decide, BitVec.msb_eq_decide, BitVec.msb_eq_decide, BitVec.toInt_eq_toNat_cond, BitVec.toInt_eq_toNat_cond,
      BitVec.toInt_eq_toNat_cond, Bool.eq_iff_iff]
    simp only [Bool.and_eq_true, beq_iff_eq, bne_iff_ne, ne_eq, decide_eq_decide, decide_eq_true_eq]
    split <;> split <;> split <;> omega

/-- The sum with a complemented first operand is the exact difference; a carry in is no borrow. -/
theorem arith_not_eq_exactSub (a b : Word) (c : Bool) : arith (~~~a) b c = exactSub a b (1 - c.toNat) := by
  rw [arith_eq_exactAdd]
  unfold exactAdd exactSub
  have ha := a.isLt
  have hb := b.isLt
  have hr : ~~~a + b + BitVec.ofNat 16 c.toNat = b - a - BitVec.ofNat 16 (1 - c.toNat) := by
    apply BitVec.eq_of_toNat_eq
    cases c <;> simp [BitVec.toNat_add, BitVec.toNat_sub] <;> omega
  have hn : (~~~a).toInt = -a.toInt - 1 := by
    rw [BitVec.toInt_eq_toNat_cond, BitVec.toInt_eq_toNat_cond, BitVec.toNat_not]
    split <;> split <;> omega
  simp only [hr, Prod.mk.injEq, Flags.mk.injEq, true_and]
  constructor
  · cases c <;> simp <;> omega
  · rw [hn, Bool.eq_iff_iff]
    simp only [decide_eq_true_eq]
    cases c <;> simp <;> constructor <;> intro h h' <;> apply h <;> omega

end Sys2Proof.Machine
end

