-- ==== Sys2Proof/Laws/PerInstr.lean ====
section
/-! SUPPORT. The family `TableRow`: the word of an instruction has the fixed bits of its row of spec/opcode_table.json,
which writes the Special class with the default opcodes of R60 (log 15). -/

namespace Sys2Proof.Laws

/-- The `mask` and `match` of the row (copied from spec/opcode_table.json, not from the encoder; `movsNoneSel` has no
row, only the rule R134, which fixes all bits but those of `sel`: log 57). -/
def tableRow : Instr → Word × Word
  | .addNwI _ => (0xFE00, 0x0200)
  | .addNwG _ _ _ => (0xFF00, 0x0000)
  | .addcyNwI _ => (0xFE00, 0x0600)
  | .addcyNwG _ _ _ => (0xFF00, 0x0400)
  | .cmpI _ => (0xFE00, 0x0A00)
  | .cmpG _ _ _ => (0xFF00, 0x0800)
  | .subcyNwI _ => (0xFE00, 0x0E00)
  | .subcyNwG _ _ _ => (0xFF00, 0x0C00)
  | .testI _ => (0xFE00, 0x1200)
  | .testG _ _ _ => (0xFF00, 0x1000)
  | .andnNwI _ => (0xFE00, 0x1600)
  | .andnNwG _ _ _ => (0xFF00, 0x1400)
  | .orNwI _ => (0xFE00, 0x1A00)
  | .orNwG _ _ _ => (0xFF00, 0x1800)
  | .xorNwI _ => (0xFE00, 0x1E00)
  | .xorNwG _ _ _ => (0xFF00, 0x1C00)
  | .addI _ => (0xFE00, 0x2200)
  | .addG _ _ _ => (0xFF00, 0x2000)
  | .addcyI _ => (0xFE00, 0x2600)
  | .addcyG _ _ _ => (0xFF00, 0x2400)
  | .subI _ => (0xFE00, 0x2A00)
  | .subG _ _ _ => (0xFF00, 0x2800)
  | .subcyI _ => (0xFE00, 0x2E00)
  | .subcyG _ _ _ => (0xFF00, 0x2C00)
  | .andI _ => (0xFE00, 0x3200)
  | .andG _ _ _ => (0xFF00, 0x3000)
  | .andnI _ => (0xFE00, 0x3600)
  | .andnG _ _ _ => (0xFF00, 0x3400)
  | .orI _ => (0xFE00, 0x3A00)
  | .orG _ _ _ => (0xFF00, 0x3800)
  | .xorI _ => (0xFE00, 0x3E00)
  | .xorG _ _ _ => (0xFF00, 0x3C00)
  | .inc _ _ _ => (0xFF20, 0x4020)
  | .dec _ _ _ => (0xFF20, 0x4420)
  | .rol _ _ _ => (0xFF20, 0x6020)
  | .sl0 _ _ _ => (0xFF20, 0x6420)
  | .sl1 _ _ _ => (0xFF20, 0x6820)
  | .slc _ _ _ => (0xFF20, 0x6C20)
  | .ror _ _ _ => (0xFF20, 0x7020)
  | .sr0 _ _ _ => (0xFF20, 0x7420)
  | .sra _ _ _ => (0xFF20, 0x7820)
  | .src _ _ _ => (0xFF20, 0x7C20)
  | .ldpI _ => (0xFE00, 0x8200)
  | .ldpX => (0xFFFF, 0x8100)
  | .stpI _ => (0xFE00, 0x8600)
  | .stpX => (0xFFFF, 0x8500)
  | .lddI _ => (0xFE00, 0x8A00)
  | .lddS _ _ => (0xFFE0, 0x8900)
  | .lddSPost _ _ _ => (0xFFA0, 0x8980)
  | .stdI _ => (0xFE00, 0x8E00)
  | .stdS _ _ => (0xFFE0, 0x8D00)
  | .stdSPost _ _ _ => (0xFFA0, 0x8D80)
  | .movAReg _ => (0xFFE0, 0x8840)
  | .movRegA _ => (0xFFE0, 0x8C80)
  | .iorrI _ => (0xFE00, 0x9200)
  | .iorrS _ _ => (0xFFE0, 0x9100)
  | .iorrSPost _ _ _ => (0xFFA0, 0x9180)
  | .iordI _ => (0xFE00, 0x9600)
  | .iordS _ _ => (0xFFE0, 0x9500)
  | .iordSPost _ _ _ => (0xFFA0, 0x9580)
  | .iowrI _ => (0xFE00, 0x9A00)
  | .iowrS _ _ => (0xFFE0, 0x9900)
  | .iowrSPost _ _ _ => (0xFFA0, 0x9980)
  | .movsRead _ => (0xFFEF, 0xA900)
  | .movsReadPost _ _ => (0xFFAF, 0xA980)
  | .movsReadMcsr => (0xFFFF, 0xA920)
  | .movsReadBswap => (0xFFFF, 0xA930)
  | .movsWrite _ => (0xFFEF, 0xA500)
  | .win _ => (0xFFF0, 0xA520)
  | .movsSwap _ => (0xFFEF, 0xAD00)
  | .movsSwapMcsr _ => (0xFFF0, 0xAD20)
  | .movsNone => (0xFFFF, 0xA100)
  | .movsNoneSel _ => (0xFFCF, 0xA100)
  | .ldi _ => (0xFE00, 0xAA00)
  | .imm _ => (0xFE00, 0xB200)
  | .xcc _ => (0xFE00, 0xBA00)
  | .ba _ _ => (0xF200, 0xC200)
  | .br _ _ => (0xF200, 0xD200)
  | .bal _ _ => (0xF200, 0xE200)
  | .brl _ _ => (0xF200, 0xF200)
  | .bax _ => (0xF3FF, 0xC100)
  | .brx _ => (0xF3FF, 0xD100)
  | .balx _ => (0xF3FF, 0xE100)
  | .brlx _ => (0xF3FF, 0xF100)
  | .nop => (0xFFFF, 0xC200)

/-- The statement about one instruction: masked, its word is the row's match. -/
def TableRow.Statement (i : Instr) : Prop := encode Config.specialDefault i &&& (tableRow i).1 = (tableRow i).2

/-- The fixed bits of an I-fmt word: opcode and bit 9. -/
theorem iWord_and (op : BitVec 6) (i : BitVec 9) : iWord op i &&& 0xFE00 = iWord op 0 := by
  apply BitVec.eq_of_getLsbD_eq
  intro k hk
  simp only [iWord, BitVec.getLsbD_and, BitVec.getLsbD_append]
  interval_cases k <;> simp

/-- The fixed bits of an I-fmt branch: opcode less `cc`, and bit 9. -/
theorem branchWordI_and (lr : BitVec 2) (cc : Cond) (i : BitVec 9) :
    branchWordI lr cc i &&& 0xF200 = branchWordI lr .never 0 := by
  apply BitVec.eq_of_getLsbD_eq
  intro k hk
  simp only [branchWordI, iWord, condBits, BitVec.getLsbD_and, BitVec.getLsbD_append]
  interval_cases k <;> simp

theorem branchWordS_and (lr : BitVec 2) (cc : Cond) : branchWordS lr cc &&& 0xF3FF = branchWordS lr .never := by
  apply BitVec.eq_of_getLsbD_eq
  intro k hk
  simp only [branchWordS, sWord, condBits, BitVec.getLsbD_and, BitVec.getLsbD_append]
  interval_cases k <;> simp

/-- The fixed bits of a two-operand G-fmt word. -/
theorem g2Word_and (op : BitVec 6) (d : Dst) (src : Src2) (r : Gpr) :
    g2Word op d src r &&& 0xFF00 = g2Word op .a .aGpr ⟨.r, 0⟩ := by
  apply BitVec.eq_of_getLsbD_eq
  intro k hk
  simp only [g2Word, gWord, BitVec.getLsbD_and, BitVec.getLsbD_append]
  interval_cases k <;> simp [dBit, src2Bits, bankBit]

/-- The fixed bits of a one-operand G-fmt word: bit 5 with the opcode. -/
theorem g1Word_and (op : BitVec 6) (d : Dst) (src : Src1) (r : Gpr) :
    g1Word op d src r &&& 0xFF20 = g1Word op .a .a ⟨.r, 0⟩ := by
  apply BitVec.eq_of_getLsbD_eq
  intro k hk
  simp only [g1Word, gWord, BitVec.getLsbD_and, BitVec.getLsbD_append]
  cases src <;> interval_cases k <;> simp [dBit, src1Bits, bankBit]

/-- The fixed bits of a MOV word. -/
theorem movWord_and (op : BitVec 6) (d : BitVec 1) (src : BitVec 2) (r : Gpr) :
    gWord op d src r &&& 0xFFE0 = gWord op d src ⟨.r, 0⟩ := by
  apply BitVec.eq_of_getLsbD_eq
  intro k hk
  simp only [gWord, BitVec.getLsbD_and, BitVec.getLsbD_append]
  interval_cases k <;> simp [bankBit]

/-- The fixed bits of an indexed word without post-modification. -/
theorem indexedWord_and (op : BitVec 6) (r : Idx) (k4 : BitVec 4) :
    sWord op 0b00#2 (idxBits r) k4 &&& 0xFFE0 = sWord op 0b00#2 0b00#2 0 := by
  apply BitVec.eq_of_getLsbD_eq
  intro k hk
  simp only [sWord, BitVec.getLsbD_and, BitVec.getLsbD_append]
  cases r <;> interval_cases k <;> simp [idxBits]

/-- The fixed bits of an indexed word with post-modification. -/
theorem postWord_and (op : BitVec 6) (p : Post) (r : Idx) (k4 : BitVec 4) :
    sWord op (postBits p) (idxBits r) k4 &&& 0xFFA0 = sWord op 0b10#2 0b00#2 0 := by
  apply BitVec.eq_of_getLsbD_eq
  intro k hk
  simp only [sWord, BitVec.getLsbD_and, BitVec.getLsbD_append]
  cases r <;> cases p <;> interval_cases k <;> simp [idxBits, postBits]

/-- The fixed bits of a window operation. -/
theorem windowWord_and (op : BitVec 6) (k4 : BitVec 4) :
    sWord op 0b00#2 0b10#2 k4 &&& 0xFFF0 = sWord op 0b00#2 0b10#2 0 := by
  apply BitVec.eq_of_getLsbD_eq
  intro k hk
  simp only [sWord, BitVec.getLsbD_and, BitVec.getLsbD_append]
  interval_cases k <;> simp

theorem TableRow.addNwI (i : BitVec 9) : TableRow.Statement (.addNwI i) := (iWord_and _ _).trans rfl

theorem TableRow.addNwG (d : Dst) (src : Src2) (r : Gpr) : TableRow.Statement (.addNwG d src r) := (g2Word_and _ _ _ _).trans rfl

theorem TableRow.addcyNwI (i : BitVec 9) : TableRow.Statement (.addcyNwI i) := (iWord_and _ _).trans rfl

theorem TableRow.addcyNwG (d : Dst) (src : Src2) (r : Gpr) : TableRow.Statement (.addcyNwG d src r) := (g2Word_and _ _ _ _).trans rfl

theorem TableRow.cmpI (i : BitVec 9) : TableRow.Statement (.cmpI i) := (iWord_and _ _).trans rfl

theorem TableRow.cmpG (d : Dst) (src : Src2) (r : Gpr) : TableRow.Statement (.cmpG d src r) := (g2Word_and _ _ _ _).trans rfl

theorem TableRow.subcyNwI (i : BitVec 9) : TableRow.Statement (.subcyNwI i) := (iWord_and _ _).trans rfl

theorem TableRow.subcyNwG (d : Dst) (src : Src2) (r : Gpr) : TableRow.Statement (.subcyNwG d src r) := (g2Word_and _ _ _ _).trans rfl

theorem TableRow.testI (i : BitVec 9) : TableRow.Statement (.testI i) := (iWord_and _ _).trans rfl

theorem TableRow.testG (d : Dst) (src : Src2) (r : Gpr) : TableRow.Statement (.testG d src r) := (g2Word_and _ _ _ _).trans rfl

theorem TableRow.andnNwI (i : BitVec 9) : TableRow.Statement (.andnNwI i) := (iWord_and _ _).trans rfl

theorem TableRow.andnNwG (d : Dst) (src : Src2) (r : Gpr) : TableRow.Statement (.andnNwG d src r) := (g2Word_and _ _ _ _).trans rfl

theorem TableRow.orNwI (i : BitVec 9) : TableRow.Statement (.orNwI i) := (iWord_and _ _).trans rfl

theorem TableRow.orNwG (d : Dst) (src : Src2) (r : Gpr) : TableRow.Statement (.orNwG d src r) := (g2Word_and _ _ _ _).trans rfl

theorem TableRow.xorNwI (i : BitVec 9) : TableRow.Statement (.xorNwI i) := (iWord_and _ _).trans rfl

theorem TableRow.xorNwG (d : Dst) (src : Src2) (r : Gpr) : TableRow.Statement (.xorNwG d src r) := (g2Word_and _ _ _ _).trans rfl

theorem TableRow.addI (i : BitVec 9) : TableRow.Statement (.addI i) := (iWord_and _ _).trans rfl

theorem TableRow.addG (d : Dst) (src : Src2) (r : Gpr) : TableRow.Statement (.addG d src r) := (g2Word_and _ _ _ _).trans rfl

theorem TableRow.addcyI (i : BitVec 9) : TableRow.Statement (.addcyI i) := (iWord_and _ _).trans rfl

theorem TableRow.addcyG (d : Dst) (src : Src2) (r : Gpr) : TableRow.Statement (.addcyG d src r) := (g2Word_and _ _ _ _).trans rfl

theorem TableRow.subI (i : BitVec 9) : TableRow.Statement (.subI i) := (iWord_and _ _).trans rfl

theorem TableRow.subG (d : Dst) (src : Src2) (r : Gpr) : TableRow.Statement (.subG d src r) := (g2Word_and _ _ _ _).trans rfl

theorem TableRow.subcyI (i : BitVec 9) : TableRow.Statement (.subcyI i) := (iWord_and _ _).trans rfl

theorem TableRow.subcyG (d : Dst) (src : Src2) (r : Gpr) : TableRow.Statement (.subcyG d src r) := (g2Word_and _ _ _ _).trans rfl

theorem TableRow.andI (i : BitVec 9) : TableRow.Statement (.andI i) := (iWord_and _ _).trans rfl

theorem TableRow.andG (d : Dst) (src : Src2) (r : Gpr) : TableRow.Statement (.andG d src r) := (g2Word_and _ _ _ _).trans rfl

theorem TableRow.andnI (i : BitVec 9) : TableRow.Statement (.andnI i) := (iWord_and _ _).trans rfl

theorem TableRow.andnG (d : Dst) (src : Src2) (r : Gpr) : TableRow.Statement (.andnG d src r) := (g2Word_and _ _ _ _).trans rfl

theorem TableRow.orI (i : BitVec 9) : TableRow.Statement (.orI i) := (iWord_and _ _).trans rfl

theorem TableRow.orG (d : Dst) (src : Src2) (r : Gpr) : TableRow.Statement (.orG d src r) := (g2Word_and _ _ _ _).trans rfl

theorem TableRow.xorI (i : BitVec 9) : TableRow.Statement (.xorI i) := (iWord_and _ _).trans rfl

theorem TableRow.xorG (d : Dst) (src : Src2) (r : Gpr) : TableRow.Statement (.xorG d src r) := (g2Word_and _ _ _ _).trans rfl

theorem TableRow.inc (d : Dst) (src : Src1) (r : Gpr) : TableRow.Statement (.inc d src r) := (g1Word_and _ _ _ _).trans rfl

theorem TableRow.dec (d : Dst) (src : Src1) (r : Gpr) : TableRow.Statement (.dec d src r) := (g1Word_and _ _ _ _).trans rfl

theorem TableRow.rol (d : Dst) (src : Src1) (r : Gpr) : TableRow.Statement (.rol d src r) := (g1Word_and _ _ _ _).trans rfl

theorem TableRow.sl0 (d : Dst) (src : Src1) (r : Gpr) : TableRow.Statement (.sl0 d src r) := (g1Word_and _ _ _ _).trans rfl

theorem TableRow.sl1 (d : Dst) (src : Src1) (r : Gpr) : TableRow.Statement (.sl1 d src r) := (g1Word_and _ _ _ _).trans rfl

theorem TableRow.slc (d : Dst) (src : Src1) (r : Gpr) : TableRow.Statement (.slc d src r) := (g1Word_and _ _ _ _).trans rfl

theorem TableRow.ror (d : Dst) (src : Src1) (r : Gpr) : TableRow.Statement (.ror d src r) := (g1Word_and _ _ _ _).trans rfl

theorem TableRow.sr0 (d : Dst) (src : Src1) (r : Gpr) : TableRow.Statement (.sr0 d src r) := (g1Word_and _ _ _ _).trans rfl

theorem TableRow.sra (d : Dst) (src : Src1) (r : Gpr) : TableRow.Statement (.sra d src r) := (g1Word_and _ _ _ _).trans rfl

theorem TableRow.src (d : Dst) (src : Src1) (r : Gpr) : TableRow.Statement (.src d src r) := (g1Word_and _ _ _ _).trans rfl

theorem TableRow.ldpI (i : BitVec 9) : TableRow.Statement (.ldpI i) := (iWord_and _ _).trans rfl

theorem TableRow.ldpX : TableRow.Statement .ldpX := by simp only [TableRow.Statement]; decide

theorem TableRow.stpI (i : BitVec 9) : TableRow.Statement (.stpI i) := (iWord_and _ _).trans rfl

theorem TableRow.stpX : TableRow.Statement .stpX := by simp only [TableRow.Statement]; decide

theorem TableRow.lddI (i : BitVec 9) : TableRow.Statement (.lddI i) := (iWord_and _ _).trans rfl

theorem TableRow.lddS (r : Idx) (k : BitVec 4) : TableRow.Statement (.lddS r k) := (indexedWord_and _ _ _).trans rfl

theorem TableRow.lddSPost (p : Post) (r : Idx) (k : BitVec 4) : TableRow.Statement (.lddSPost p r k) := (postWord_and _ _ _ _).trans rfl

theorem TableRow.stdI (i : BitVec 9) : TableRow.Statement (.stdI i) := (iWord_and _ _).trans rfl

theorem TableRow.stdS (r : Idx) (k : BitVec 4) : TableRow.Statement (.stdS r k) := (indexedWord_and _ _ _).trans rfl

theorem TableRow.stdSPost (p : Post) (r : Idx) (k : BitVec 4) : TableRow.Statement (.stdSPost p r k) := (postWord_and _ _ _ _).trans rfl

theorem TableRow.movAReg (r : Gpr) : TableRow.Statement (.movAReg r) := (movWord_and _ _ _ _).trans rfl

theorem TableRow.movRegA (r : Gpr) : TableRow.Statement (.movRegA r) := (movWord_and _ _ _ _).trans rfl

theorem TableRow.iorrI (i : BitVec 9) : TableRow.Statement (.iorrI i) := (iWord_and _ _).trans rfl

theorem TableRow.iorrS (r : Idx) (k : BitVec 4) : TableRow.Statement (.iorrS r k) := (indexedWord_and _ _ _).trans rfl

theorem TableRow.iorrSPost (p : Post) (r : Idx) (k : BitVec 4) : TableRow.Statement (.iorrSPost p r k) := (postWord_and _ _ _ _).trans rfl

theorem TableRow.iordI (i : BitVec 9) : TableRow.Statement (.iordI i) := (iWord_and _ _).trans rfl

theorem TableRow.iordS (r : Idx) (k : BitVec 4) : TableRow.Statement (.iordS r k) := (indexedWord_and _ _ _).trans rfl

theorem TableRow.iordSPost (p : Post) (r : Idx) (k : BitVec 4) : TableRow.Statement (.iordSPost p r k) := (postWord_and _ _ _ _).trans rfl

theorem TableRow.iowrI (i : BitVec 9) : TableRow.Statement (.iowrI i) := (iWord_and _ _).trans rfl

theorem TableRow.iowrS (r : Idx) (k : BitVec 4) : TableRow.Statement (.iowrS r k) := (indexedWord_and _ _ _).trans rfl

theorem TableRow.iowrSPost (p : Post) (r : Idx) (k : BitVec 4) : TableRow.Statement (.iowrSPost p r k) := (postWord_and _ _ _ _).trans rfl

theorem TableRow.movsRead (r : Idx) : TableRow.Statement (.movsRead r) := by unfold TableRow.Statement; cases r <;> decide

theorem TableRow.movsReadPost (p : Post) (r : Idx) : TableRow.Statement (.movsReadPost p r) := by unfold TableRow.Statement; cases p <;> cases r <;> decide

theorem TableRow.movsReadMcsr : TableRow.Statement .movsReadMcsr := by simp only [TableRow.Statement]; decide

theorem TableRow.movsReadBswap : TableRow.Statement .movsReadBswap := by simp only [TableRow.Statement]; decide

theorem TableRow.movsWrite (r : Idx) : TableRow.Statement (.movsWrite r) := by unfold TableRow.Statement; cases r <;> decide

theorem TableRow.win (k : BitVec 4) : TableRow.Statement (.win k) := (windowWord_and _ _).trans rfl

theorem TableRow.movsSwap (r : Idx) : TableRow.Statement (.movsSwap r) := by unfold TableRow.Statement; cases r <;> decide

theorem TableRow.movsSwapMcsr (k : BitVec 4) : TableRow.Statement (.movsSwapMcsr k) := (windowWord_and _ _).trans rfl

theorem TableRow.movsNone : TableRow.Statement .movsNone := by simp only [TableRow.Statement]; decide

theorem TableRow.movsNoneSel (sel : BitVec 2) : TableRow.Statement (.movsNoneSel sel) := by
  unfold TableRow.Statement; revert sel; decide

theorem TableRow.ldi (i : BitVec 9) : TableRow.Statement (.ldi i) := (iWord_and _ _).trans rfl

theorem TableRow.imm (i : BitVec 9) : TableRow.Statement (.imm i) := (iWord_and _ _).trans rfl

theorem TableRow.xcc (i : BitVec 9) : TableRow.Statement (.xcc i) := (iWord_and _ _).trans rfl

theorem TableRow.ba (cc : Cond) (i : BitVec 9) : TableRow.Statement (.ba cc i) := (branchWordI_and _ _ _).trans rfl

theorem TableRow.br (cc : Cond) (i : BitVec 9) : TableRow.Statement (.br cc i) := (branchWordI_and _ _ _).trans rfl

theorem TableRow.bal (cc : Cond) (i : BitVec 9) : TableRow.Statement (.bal cc i) := (branchWordI_and _ _ _).trans rfl

theorem TableRow.brl (cc : Cond) (i : BitVec 9) : TableRow.Statement (.brl cc i) := (branchWordI_and _ _ _).trans rfl

theorem TableRow.bax (cc : Cond) : TableRow.Statement (.bax cc) := (branchWordS_and _ _).trans rfl

theorem TableRow.brx (cc : Cond) : TableRow.Statement (.brx cc) := (branchWordS_and _ _).trans rfl

theorem TableRow.balx (cc : Cond) : TableRow.Statement (.balx cc) := (branchWordS_and _ _).trans rfl

theorem TableRow.brlx (cc : Cond) : TableRow.Statement (.brlx cc) := (branchWordS_and _ _).trans rfl

theorem TableRow.nop : TableRow.Statement .nop := by simp only [TableRow.Statement]; decide

end Sys2Proof.Laws
end

