-- ==== Sys2Proof/Tests/Slice0.lean ====
section
/-! SUPPORT. Small tests of one step each, with the values of spec/95_test_vectors.md or of the rule's own example, and for each
obligation with hypotheses a concrete state and operands that meet them. -/

namespace Sys2Proof.Tests

open Sys2Proof.Machine

/-- The launch state with no image: registers 0, `pc` = 0, nothing pending. -/
def s0 : State := State.launch []

/-- The hazard history with nothing in it but one item. -/
def h0 : History := History.empty

/-- The outcome is a next state with the property. -/
def nextIs (o : Host.Outcome State Fault Refusal) (p : State → Bool) : Bool :=
  match o with
  | .next t => p t
  | _ => false

/-- The outcome is this fault. -/
def faultIs (o : Host.Outcome State Fault Refusal) (f : Fault) : Bool :=
  match o with
  | .fault g => g == f
  | _ => false

/-- The default opcodes of the Special class. -/
abbrev o0 : SpecialOpc := Config.specialDefault

/-- The word decodes to the instruction, with the default opcodes. -/
def reads (w : Word) (i : Instr) : Bool := decide (decode o0 w = .ok i)

/-- `s0` with the data word `a` holding `v`. -/
def withData (s : State) (a : Nat) (v : Word) : State := { s with mem := s.mem.dataSet a v }

/-- `R2`, `R3`, `R4`, `S1`. -/
def r2 : Gpr := ⟨.r, 2⟩
def r3 : Gpr := ⟨.r, 3⟩
def r4 : Gpr := ⟨.r, 4⟩
def s1 : Gpr := ⟨.s, 1⟩

/-! ## Well-formedness -/

/-- R65: the word 0xC200 has the one spelling `nop`. -/
theorem test_wellFormed_refuses_ba_never_zero : (Instr.ba .never 0).wellFormed = false := by decide

/-- A100 is `movsNone`; A110 to A130 are `movsNoneSel` (R134; log 57). -/
theorem test_wellFormed_refuses_movsNoneSel_zero : (Instr.movsNoneSel 0).wellFormed = false := by decide

theorem test_wellFormed_accepts_neighbours :
    ((Instr.movsNoneSel 3).wellFormed && (Instr.ba .never 1).wellFormed && (Instr.ba .always 0).wellFormed && (Instr.br .never 0).wellFormed && Instr.nop.wellFormed) = true := by
  decide

/-! ## Decoding: every row, from the bit patterns of the rules and their examples -/

/-- R79 to R83, R73 to R76: `00 wfff 1s iiii iiii`; 2205, 0A42, 1201, 36F0, 3A80, 2E00 are the rules' examples. -/
theorem test_decode_alu2_iFmt :
    (reads 0b0000_0011_1111_1111 (.addNwI 0x1FF) && reads 0b0000_0110_0000_0001 (.addcyNwI 1) && reads 0x0A42 (.cmpI 0x42) &&
      reads 0b0000_1110_0000_0010 (.subcyNwI 2) && reads 0x1201 (.testI 1) && reads 0b0001_0110_0000_0011 (.andnNwI 3) &&
      reads 0b0001_1010_0000_0100 (.orNwI 4) && reads 0b0001_1110_0000_0101 (.xorNwI 5) && reads 0x2205 (.addI 5) &&
      reads 0b0010_0111_0000_0000 (.addcyI 0x100) && reads 0x2A0A (.subI 10) && reads 0x2E00 (.subcyI 0) &&
      reads 0x320F (.andI 0x0F) && reads 0x36F0 (.andnI 0xF0) && reads 0x3A80 (.orI 0x80) &&
      reads 0b0011_1111_1111_1111 (.xorI 0x1FF)) = true := by decide

/-- The same in G-fmt: `00 wfff 00 d ss r rrrr`; 0000, 2082, 2485, 2843, 3CD1 are the rules' examples. -/
theorem test_decode_alu2_gFmt :
    (reads 0x0000 (.addNwG .a .aGpr ⟨.r, 0⟩) && reads 0b0000_0100_0010_0001 (.addcyNwG .a .aImm ⟨.r, 1⟩) &&
      reads 0b0000_1000_0100_0011 (.cmpG .a .gprA r3) && reads 0b0000_1100_0111_0001 (.subcyNwG .a .gprImm s1) &&
      reads 0b0001_0000_0000_0010 (.testG .a .aGpr r2) && reads 0b0001_0100_1000_0010 (.andnNwG .gpr .aGpr r2) &&
      reads 0b0001_1000_0100_0010 (.orNwG .a .gprA r2) && reads 0b0001_1100_0110_0010 (.xorNwG .a .gprImm r2) &&
      reads 0x2082 (.addG .gpr .aGpr r2) && reads 0x2485 (.addcyG .gpr .aGpr ⟨.r, 5⟩) && reads 0x2843 (.subG .a .gprA r3) &&
      reads 0b0010_1100_1110_0100 (.subcyG .gpr .gprImm r4) && reads 0b0011_0000_0001_1111 (.andG .a .aGpr ⟨.s, 15⟩) &&
      reads 0b0011_0100_1100_0010 (.andnG .gpr .gprA r2) && reads 0b0011_1000_1010_0010 (.orG .gpr .aImm r2) &&
      reads 0x3CD1 (.xorG .gpr .gprA s1)) = true := by decide

/-- R92 to R102: `01 xxxx 00 d s1 r rrrr` with `src` = 01 or 11; 4064, 44E1, 6420 are the rules' examples. -/
theorem test_decode_alu1 :
    (reads 0x4064 (.inc .a .gpr r4) && reads 0x44E1 (.dec .gpr .gpr ⟨.r, 1⟩) && reads 0b0110_0000_1010_0010 (.rol .gpr .a r2) &&
      reads 0x6420 (.sl0 .a .a ⟨.r, 0⟩) && reads 0b0110_1000_0110_0010 (.sl1 .a .gpr r2) && reads 0b0110_1100_0111_0001 (.slc .a .gpr s1) &&
      reads 0b0111_0000_1110_0010 (.ror .gpr .gpr r2) && reads 0b0111_0100_0010_0000 (.sr0 .a .a ⟨.r, 0⟩) &&
      reads 0b0111_1000_0110_0011 (.sra .a .gpr r3) && reads 0b0111_1100_1010_0100 (.src .gpr .a r4)) = true := by decide

/-- R105, R106, R110 to R113; 8240, 8100, 8500, 8A20, 8990, 89DF, 8E30, 8D03, 8842, 8C9F are the rules' examples. -/
theorem test_decode_memory :
    (reads 0x8240 (.ldpI 0x40) && reads 0x8100 .ldpX && reads 0b1000_0110_0111_1111 (.stpI 0x7F) && reads 0x8500 .stpX &&
      reads 0x8A20 (.lddI 0x20) && reads 0b1000_1001_0001_0010 (.lddS .y 2) && reads 0x8990 (.lddSPost .inc .y 0) &&
      reads 0x89DF (.lddSPost .dec .y 15) && reads 0x8E30 (.stdI 0x30) && reads 0x8D03 (.stdS .x 3) &&
      reads 0b1000_1101_1000_0001 (.stdSPost .inc .x 1) && reads 0x8842 (.movAReg r2) && reads 0x8C9F (.movRegA ⟨.s, 15⟩)) = true := by
  decide

/-- R121 to R123; 9203, 9603, 9A03, 9911 are the rules' examples. -/
theorem test_decode_io :
    (reads 0x9203 (.iorrI 3) && reads 0b1001_0001_0001_0011 (.iorrS .y 3) && reads 0b1001_0001_1100_0000 (.iorrSPost .dec .x 0) &&
      reads 0x9603 (.iordI 3) && reads 0b1001_0101_0000_0111 (.iordS .x 7) && reads 0b1001_0101_1001_0111 (.iordSPost .inc .y 7) &&
      reads 0x9A03 (.iowrI 3) && reads 0x9911 (.iowrS .y 1) && reads 0b1001_1001_1101_0001 (.iowrSPost .dec .y 1)) = true := by decide

/-- R130 to R138 (provisional opcodes); all but AD20 and AD00 are the rules' examples. -/
theorem test_decode_special :
    (reads 0xA910 (.movsRead .y) && reads 0xA980 (.movsReadPost .inc .x) && reads 0xA920 .movsReadMcsr && reads 0xA930 .movsReadBswap &&
      reads 0xA500 (.movsWrite .x) && reads 0xA52A (.win 0b1010) && reads 0xAD10 (.movsSwap .y) &&
      reads 0b1010_1101_0010_0011 (.movsSwapMcsr 0b0011) && reads 0b1010_0001_0000_0000 .movsNone && reads 0xABFF (.ldi 0x1FF) &&
      reads 0b1010_0001_0011_0000 (.movsNoneSel 0b11) && reads 0xB212 (.imm 0x12) && reads 0xBA06 (.xcc 6)) = true := by decide

/-- R148 to R153, R65; C610, CE00, D7FE, E610, F604, CD00, D500, E500, F500, C200 are the rules' examples. -/
theorem test_decode_control :
    (reads 0xC610 (.ba .always 0x10) && reads 0xCE00 (.ba .z1 0) && reads 0xCA00 (.ba .z0 0) && reads 0xD7FE (.br .always 0x1FE) &&
      reads 0xE610 (.bal .always 0x10) && reads 0xF604 (.brl .always 4) && reads 0xCD00 (.bax .z1) && reads 0xD500 (.brx .always) &&
      reads 0xE500 (.balx .always) && reads 0xF500 (.brlx .always) && reads 0xC200 .nop) = true := by decide

/-- 95_test_vectors.md E11 to E14, and the open encodings of R61 items 5, 8 and 9. -/
theorem test_decode_refuses :
    (decide (decode o0 0xA101 = .error (.unspecified .movsNoTransferFields)) &&
      decide (decode o0 0xA180 = .error (.unspecified .movsNoTransferFields)) && decide (decode o0 0x8950 = .error (.illegal .modReserved)) && decide (decode o0 0x4820 = .error (.illegal .reservedOpcode)) &&
      decide (decode o0 0x9E00 = .error (.illegal .reservedOpcode)) && decide (decode o0 0x2100 = .error (.illegal .formatNotValid)) &&
      decide (decode o0 0x8180 = .error (.unspecified .progPostModify)) && decide (decode o0 0x8110 = .error (.illegal .progOperand)) &&
      decide (decode o0 0x8802 = .error (.unspecified .movNonCanonical)) && decide (decode o0 0xA530 = .error (.unspecified .bswapWrite)) &&
      decide (decode o0 0xA901 = .error (.unspecified .movsImm4)) && decide (decode o0 0xC510 = .error (.illegal .branchOperand))) = true := by
  decide

/-- R60, the second reading (`a` at opcode bit 10): the words of WIN and of MOVS A,X+ exchange opcode bits 10 and 11. -/
theorem test_decode_second_reading :
    (decide (decode Config.specialSecond 0xA92A = .ok (.win 0b1010)) && decide (decode Config.specialSecond 0xA580 = .ok (.movsReadPost .inc .x)) &&
      Config.specialSecond.distinct) = true := by decide

/-- The first word's bit 0 is the least significant bit: the table's numbering is the word's own. -/
theorem test_decodeTableWord : decodeTableWord 16 0x2205 = some (.addI 5) ∧ decodeTableWord 16 0x9E00 = none := by decide

/-! ## One step each -/

/-- R73: 1 + 5 = 6, flags 0. -/
theorem test_add_imm : nextIs (exec (.addI 5) { s0 with a := 1 }) (fun t => t.a == 6 && t.flags == ⟨false, false, false, false⟩ && t.pc == 1) = true := by
  decide

/-- R73: 0x8000 + 0x8000 = 0 with C, V, Z; I = 0x8000 after IMM (vector "IMM #0x80; ADD #0"). -/
theorem test_add_overflow_with_prefix :
    nextIs (exec (.addI 0) { s0 with a := 0x8000, immq := [0x80] }) (fun t => t.a == 0 && t.flags == ⟨true, true, false, true⟩ && t.immq == []) = true := by
  decide

/-- R81: ADD.nw with A = 1, R0 = FFFF sets Z and C and writes nothing. -/
theorem test_addNw : nextIs (exec (.addNwG .a .aGpr ⟨.r, 0⟩) (withData { s0 with a := 1 } 0 0xFFFF))
    (fun t => t.a == 1 && t.mem.dataGet 0 == 0xFFFF && t.flags == ⟨true, true, false, false⟩) = true := by decide

/-- R74: ADDCY R5,A,R5 with A = 1, R5 = 2, C = 1 gives R5 = 4, C = 0. -/
theorem test_addcy_gpr : nextIs (exec (.addcyG .gpr .aGpr ⟨.r, 5⟩) (withData { s0 with a := 1, flags := ⟨false, true, false, false⟩ } 5 2))
    (fun t => t.mem.dataGet 5 == 4 && t.a == 1 && t.flags.c == false) = true := by decide

/-- R75: SUB #10 with A = 3 gives 7, C = 1: the immediate minus A. -/
theorem test_sub_imm : nextIs (exec (.subI 10) { s0 with a := 3 }) (fun t => t.a == 7 && t.flags == ⟨false, true, false, false⟩) = true := by decide

/-- R75: SUB A,R3,A is A - R3; OpA = 5, OpB = 3 gives FFFE, C = 0, N = 1. -/
theorem test_sub_gpr : nextIs (exec (.subG .a .gprA r3) (withData { s0 with a := 3 } 3 5))
    (fun t => t.a == 0xFFFE && t.flags == ⟨false, false, true, false⟩) = true := by decide

/-- R76: SUBCY #0 with A = 0, C = 0 gives FFFF, C = 0. -/
theorem test_subcy : nextIs (exec (.subcyI 0) s0) (fun t => t.a == 0xFFFF && t.flags == ⟨false, false, true, false⟩) = true := by decide

/-- R79: CMP #0x42 with A = 42 sets Z and C and leaves A. -/
theorem test_cmp : nextIs (exec (.cmpI 0x42) { s0 with a := 0x42 }) (fun t => t.a == 0x42 && t.flags == ⟨true, true, false, false⟩) = true := by decide

/-- R80: TEST #1 with A = 8001: Z = 0, N = 0. -/
theorem test_test : nextIs (exec (.testI 1) { s0 with a := 0x8001 }) (fun t => t.a == 0x8001 && t.flags.z == false && t.flags.n == false) = true := by
  decide

/-- R77: AND #-16 masks with FFF0. -/
theorem test_and : nextIs (exec (.andI 0x1F0) { s0 with a := 0x1234 }) (fun t => t.a == 0x1230) = true := by decide

/-- R78: ANDN #0xF0 complements A, not the immediate. -/
theorem test_andn : nextIs (exec (.andnI 0xF0) { s0 with a := 0x00C3 }) (fun t => t.a == 0x0030) = true := by decide

/-- R82: OR #0x80: not sign-extended from bit 7. -/
theorem test_or : nextIs (exec (.orI 0x80) { s0 with a := 1 }) (fun t => t.a == 0x0081) = true := by decide

/-- R83: XOR S1,S1,A stores S1 ^ A; with winS = 1 S1 is word 5. -/
theorem test_xor_gpr : nextIs (exec (.xorG .gpr .gprA s1) (withData { s0 with a := 0xFF, winS := 1 } 5 0x0F))
    (fun t => t.mem.dataGet 5 == 0xF0 && t.a == 0xFF) = true := by decide

/-- E6: IMM #0x12; IMM #0x34; ADD R7,R7,#imm: the first IMM is the high byte. -/
theorem test_two_prefixes : nextIs (exec (.addG .gpr .gprImm ⟨.r, 7⟩) (withData { s0 with immq := [0x12, 0x34] } 7 1))
    (fun t => t.mem.dataGet 7 == 0x1235) = true := by decide

/-- E15: one IMM before a G-fmt immediate stops. -/
theorem test_one_prefix_stops : faultIs (exec (.addG .a .aImm ⟨.r, 0⟩) { s0 with immq := [0x12] }) (.unspecified .gWithoutTwoImm) = true := by decide

/-- R92, R93: INC A,R4; DEC R1,R1. -/
theorem test_inc_dec :
    (nextIs (exec (.inc .a .gpr r4) (withData s0 4 9)) (fun t => t.a == 10 && t.mem.dataGet 4 == 9 && t.flags.c == false) &&
      nextIs (exec (.dec .gpr .gpr ⟨.r, 1⟩) (withData s0 1 1)) (fun t => t.mem.dataGet 1 == 0 && t.flags.z && t.flags.c)) = true := by decide

/-- R94 to R97: the left shifts of 8001 (SLC with C = 1). -/
theorem test_left_shifts :
    (nextIs (exec (.rol .a .a r2) { s0 with a := 0x8001 }) (fun t => t.a == 0x0003 && t.flags.c) &&
      nextIs (exec (.sl0 .a .a r2) { s0 with a := 0x8001 }) (fun t => t.a == 0x0002 && t.flags.c) &&
      nextIs (exec (.sl1 .a .a r2) { s0 with a := 0x8000 }) (fun t => t.a == 0x0001) &&
      nextIs (exec (.slc .a .a r2) { s0 with a := 0x8000, flags := ⟨false, true, false, false⟩ }) (fun t => t.a == 0x0001 && t.flags.c)) = true := by
  decide

/-- R98, R99, R100, R102: the right shifts (SRC with C = 1). -/
theorem test_right_shifts :
    (nextIs (exec (.ror .a .a r2) { s0 with a := 0x0001 }) (fun t => t.a == 0x8000 && t.flags.n) &&
      nextIs (exec (.sr0 .a .a r2) { s0 with a := 0x8001 }) (fun t => t.a == 0x4000 && !t.flags.n) &&
      nextIs (exec (.sra .a .a r2) { s0 with a := 0x8001 }) (fun t => t.a == 0xC000) &&
      nextIs (exec (.src .a .a r2) { s0 with a := 0x0001, flags := ⟨false, true, false, false⟩ }) (fun t => t.a == 0x8000 && t.flags.c)) = true := by
  decide

/-- R105: LDP [0x40]; R106: STP [0x7F]. -/
theorem test_program_memory :
    (nextIs (exec (.ldpI 0x40) { s0 with mem := s0.mem.sramSet 0x40 0xC200 }) (fun t => t.a == 0xC200) &&
      nextIs (exec (.stpI 0x7F) { s0 with a := 0xBEEF }) (fun t => cellGet t.mem.sram 0x7F == some 0xBEEF)) = true := by decide

/-- LDP [X] with X = 4000: BadAddress (95_test_vectors.md 2.4). -/
theorem test_ldp_bad_address : faultIs (exec .ldpX { s0 with x := 0x4000 }) (.badAddress .prog 0x4000) = true := by decide

/-- R110: LDD [Y]+ with Y = 20; R111: STD [X+3] with X = 10. -/
theorem test_data_memory :
    (nextIs (exec (.lddSPost .inc .y 0) (withData { s0 with y := 0x20 } 0x20 7)) (fun t => t.a == 7 && t.y == 0x21 && t.x == 0) &&
      nextIs (exec (.stdS .x 3) { s0 with x := 0x10, a := 0xBEEF }) (fun t => t.mem.dataGet 0x13 == 0xBEEF && t.x == 0x10)) = true := by decide

/-- LDD [-1]: BadAddress (95_test_vectors.md X12). -/
theorem test_ldd_bad_address : faultIs (exec (.lddI 0x1FF) s0) (.badAddress .data 0xFFFF) = true := by decide

/-- R112, R113, with the R bank at the top. -/
theorem test_mov :
    (nextIs (exec (.movAReg r2) (withData { s0 with winR := 1 } 0xF2 5)) (fun t => t.a == 5) &&
      nextIs (exec (.movRegA r2) { s0 with winR := 1, a := 6 }) (fun t => t.mem.dataGet 0xF2 == 6)) = true := by decide

/-- R121 to R123: the events; IOWR [Y+1]. -/
theorem test_io :
    (nextIs (exec (.iorrI 3) s0) (fun t => t.ioLog == [.readRequest 3] && t.a == 0) &&
      nextIs (exec (.iordI 3) { s0 with ioReadReady := true, ioData := 0x55 }) (fun t => t.a == 0x55 && t.ioLog == [.readData 3 0x55]) &&
      nextIs (exec (.iowrS .y 1) { s0 with y := 4, a := 9 }) (fun t => t.ioLog == [.writeRequest 5 9])) = true := by decide

/-- R130: MOVS A,X+ and MOVS A,BSWAP. -/
theorem test_movs_read :
    (nextIs (exec (.movsReadPost .inc .x) { s0 with x := 4 }) (fun t => t.a == 4 && t.x == 5) &&
      nextIs (exec .movsReadBswap { s0 with a := 0x1234 }) (fun t => t.a == 0x3412)) = true := by decide

/-- R131: MOVS Y,A; R132: MOVS A<>Y. -/
theorem test_movs_write_swap :
    (nextIs (exec (.movsWrite .y) { s0 with a := 3 }) (fun t => t.y == 3 && t.a == 3) &&
      nextIs (exec (.movsSwap .y) { s0 with a := 1, y := 2 }) (fun t => t.a == 2 && t.y == 1)) = true := by decide

/-- R20: MCSR with winR = 1, winS = 5, Z = 1, N = 1 is 0x455. -/
theorem test_mcsr : nextIs (exec .movsReadMcsr { s0 with winR := 1, winS := 5, flags := ⟨true, false, true, false⟩ }) (fun t => t.a == 0x455) = true := by
  decide

/-- R135: the two examples of the rule; R13: with 1024 data words `winS` has 8 bits, and 4 * 255 + 3 is the last word. -/
theorem test_win :
    (nextIs (exec (.win 0b1010) { s0 with a := 0x0410 }) (fun t => t.winR == 1 && t.winS == 1) &&
      nextIs (exec (.win 0b0011) { s0 with a := 0x0020, winS := 5, winR := 1 }) (fun t => t.winR == 1 && t.winS == 7) &&
      nextIs (exec (.win 0b0011) { s0 with a := 0x0020, winS := 254, params := { s0.params with dataWords := 1024 } }) (fun t => t.winS == 0) &&
      decide (gprAddr { s0 with winS := 255, params := { s0.params with dataWords := 1024 } } ⟨.s, 3⟩ = .ok 1023)) = true := by decide

/-- R136: LDI #-1, and IMM #0x12; LDI #0x34. -/
theorem test_ldi :
    (nextIs (exec (.ldi 0x1FF) s0) (fun t => t.a == 0xFFFF) &&
      nextIs (exec (.ldi 0x34) { s0 with immq := [0x12] }) (fun t => t.a == 0x1234)) = true := by decide

/-- R137: IMM appends; the third stops. -/
theorem test_imm :
    (nextIs (exec (.imm 0x112) { s0 with immq := [0x34] }) (fun t => t.immq == [0x34, 0x12]) &&
      faultIs (exec (.imm 0) { s0 with immq := [1, 2] }) (.unspecified .threeImm)) = true := by decide

/-- R138: XCC hi with Z = 0, C = 1; XCC ge with N = 1, V = 0. -/
theorem test_xcc :
    (nextIs (exec (.xcc 6) { s0 with flags := ⟨false, true, false, false⟩ }) (fun t => t.flags == ⟨true, true, false, false⟩) &&
      nextIs (exec (.xcc 5) { s0 with flags := ⟨true, false, true, false⟩ }) (fun t => t.flags == ⟨false, false, true, false⟩)) = true := by decide

/-- R150: BAL #0x10 at pc = 2; R149: BR #-2 at 0x20. -/
theorem test_branches :
    (nextIs (exec (.bal .always 0x10) { s0 with pc := 2, npc := 3 }) (fun t => t.x == 4 && t.pc == 3 && t.npc == 0x10) &&
      nextIs (exec (.br .always 0x1FE) { s0 with pc := 0x20, npc := 0x21 }) (fun t => t.pc == 0x21 && t.npc == 0x1F)) = true := by decide

/-- R147: BAL.z1 not taken still links; R146: BA.z0 is taken iff Z = 0. -/
theorem test_conditions :
    (nextIs (exec (.bal .z1 0x10) { s0 with pc := 5, npc := 6 }) (fun t => t.x == 7 && t.pc == 6 && t.npc == 7) &&
      nextIs (exec (.ba .z0 0x10) s0) (fun t => t.npc == 0x10) &&
      nextIs (exec (.ba .z0 0x10) { s0 with flags := ⟨true, false, false, false⟩ }) (fun t => t.npc == 2)) = true := by decide

/-- R153: BALX goes to the old X; R151: BRL #4 at 0x100. -/
theorem test_link_forms :
    (nextIs (exec (.balx .always) { s0 with x := 0x30 }) (fun t => t.x == 2 && t.npc == 0x30) &&
      nextIs (exec (.brl .always 4) { s0 with pc := 0x100, npc := 0x101 }) (fun t => t.x == 0x102 && t.npc == 0x105)) = true := by decide

/-- R178: LDP [0x40]; ADD #5 stops (95_test_vectors.md 2.4); a read of `A` alone does not. -/
theorem test_a_after_ldp :
    (faultIs (exec (.addI 5) { s0 with hist := { h0 with lastProg := some .load } }) (.hazard .aAfterLdp) &&
      nextIs (exec (.cmpI 5) { s0 with hist := { h0 with lastProg := some .load } }) (fun t => t.a == 0)) = true := by decide

/-- R176: `LDD [Y]+` twice in a row is a hazard; with `X` in between it is not. -/
theorem test_index_late :
    (faultIs (exec (.lddSPost .inc .y 0) { s0 with hist := { h0 with yLate := true } }) (.hazard .indexLate) &&
      nextIs (exec (.lddSPost .inc .x 0) { s0 with hist := { h0 with yLate := true } }) (fun t => t.x == 1)) = true := by decide

/-- R182: after a WIN of bank S only, `S1` cannot be reached and `R2` can. -/
theorem test_gpr_after_win :
    (faultIs (exec (.movRegA s1) { s0 with hist := { h0 with winSMoved := true } }) (.hazard .gprAfterWin) &&
      nextIs (exec (.movRegA r2) { s0 with a := 7, hist := { h0 with winSMoved := true } }) (fun t => t.mem.dataGet 2 == 7)) = true := by
  decide

/-- R177: BAL.z1 right after STP stops if it is taken, and writes the link if it is not. -/
theorem test_link_after_prog :
    (faultIs (exec (.bal .z1 0x10) { s0 with flags := ⟨true, false, false, false⟩, hist := { h0 with lastProg := some .store } })
        (.unspecified .linkAfterProg) &&
      nextIs (exec (.bal .z1 0x10) { s0 with hist := { h0 with lastProg := some .store } }) (fun t => t.x == 2 && t.npc == 2)) = true := by
  decide

/-- R156: right after LDP the delay slot of a taken branch is lost. -/
theorem test_lost_delay_slot :
    nextIs (exec (.ba .always 0x10) { s0 with hist := { h0 with lastProg := some .load } }) (fun t => t.pc == 0x10 && t.npc == 0x11) = true := by decide

/-- R154: BA #0x20 in the delay slot stops, NOP does not. -/
theorem test_delay_slot :
    (faultIs (exec (.ba .always 0x20) { s0 with hist := { h0 with slot := true } }) (.unspecified .branchInDelaySlot) &&
      nextIs (exec .nop { s0 with hist := { h0 with slot := true } }) (fun t => t == s0.advance)) = true := by decide

/-- R170: the word placed after reset is the first instruction to run. -/
theorem test_step_after_reset : nextIs (step (State.reset.withFetchWord 16 0xAA34)) (fun t => t.a == 0x34 && t.pc == 0x8001) = true := by decide

/-! ## The hypotheses of the obligations, met -/

/-- DecodeOfEncode, EncodeOfDecode, SpecWordsDecode. -/
theorem witness_encoding : Config.specialDefault.distinct = true ∧ (Instr.lddSPost .dec .y 15).wellFormed = true ∧ decode o0 0x89DF = .ok (.lddSPost .dec .y 15) := by decide

/-- IoSubOpElevenIsIllegal: one word in each format, the last with every operand bit 1. -/
theorem witness_IoSubOpElevenIsIllegal :
    [0x9C00#16, 0x9D00#16, 0x9E00#16, 0x9FFF#16].all (fun w =>
      w.extractLsb' 10 6 = 0b100111#6 && decide (fetch (State.reset.withFetchWord 16 w.toNat) = .ok w)) = true := by decide

/-- OneOperandOtherFormatsAreIllegal: the S-fmt and the I-fmt clause, INC and SRC. -/
theorem witness_OneOperandOtherFormatsAreIllegal :
    [0x4100#16, 0x7DFF#16, 0x4200#16, 0x7FFF#16].all (fun w =>
      w.extractLsb' 14 2 = 0b01#2 && (w.extractLsb' 8 2 = 0b01#2 || w.getLsbD 9) &&
        decide (fetch (State.reset.withFetchWord 16 w.toNat) = .ok w)) = true := by decide

/-- StepRunsDecodedInstruction: an instruction that goes on, and one that stops. -/
theorem witness_StepRunsDecodedInstruction :
    (fetch (State.reset.withFetchWord 16 0x2205) = .ok 0x2205 ∧ decode o0 0x2205 = .ok (.addI 5) ∧
      fetchHazard (State.reset.withFetchWord 16 0x2205) = false ∧
      nextIs (exec (.addI 5) (State.reset.withFetchWord 16 0x2205)) (fun _ => true) = true) ∧
    (fetch (State.reset.withFetchWord 16 0x8BFF) = .ok 0x8BFF ∧ decode o0 0x8BFF = .ok (.lddI 0x1FF) ∧
      fetchHazard (State.reset.withFetchWord 16 0x8BFF) = false ∧
      faultIs (exec (.lddI 0x1FF) (State.reset.withFetchWord 16 0x8BFF)) (.badAddress .data 0xFFFF) = true) := by decide

/-- A state whose instruction was just stored: ADD #5 at 0x100. -/
def justStored : State :=
  { s0 with pc := 0x100, npc := 0x101, mem := s0.mem.sramSet 0x100 0x2205, hist := { h0 with stpAddrs := [none, some 0x100] } }

theorem witness_FetchAfterStpStops :
    fetch justStored = .ok 0x2205 ∧ decode o0 0x2205 = .ok (.addI 5) ∧ some justStored.pc ∈ justStored.hist.stpAddrs ∧
      nextIs (exec (.addI 5) justStored) (fun _ => true) = true := by decide

/-- StepStopsAtTheFetch: the four clauses; 0x4000 and 0xFFFF bound the addresses with no word (BOOT_ADDR = 0x8000). -/
theorem witness_StepStopsAtTheFetch :
    [0x4000#16, 0x7FFF#16, 0x8010#16, 0xFFFF#16].all (fun p =>
      decide (¬(s0.params.bootAddr.toNat ≤ p.toNat ∧ p.toNat < s0.params.bootAddr.toNat + 16)) && decide (s0.params.progWords ≤ p.toNat) &&
        { s0 with pc := p }.pc == p) = true ∧
    progCell s0 s0.pc = .ok none ∧
    (fetch (s0.withFetchWord 16 0x4820) = .ok 0x4820 ∧ decode o0 0x4820 = .error (.illegal .reservedOpcode)) ∧
    (fetch (s0.withFetchWord 16 0xA530) = .ok 0xA530 ∧ decode o0 0xA530 = .error (.unspecified .bswapWrite)) := by decide

/-- PlacedWordIsFetched: a ROM word, and the last SPRAM word. -/
theorem witness_PlacedWordIsFetched :
    progMap State.reset.params State.reset.pc ≠ .absent ∧
    progMap { s0 with pc := 0x3FFF }.params { s0 with pc := 0x3FFF }.pc ≠ .absent ∧ 65535 < 65536 := by decide

theorem witness_StepKeepsInvariant :
    (State.reset.withFetchWord 16 0xAA34).inv = true ∧ nextIs (step (State.reset.withFetchWord 16 0xAA34)) (fun _ => true) = true := by decide

theorem witness_LaunchMeetsInvariant : 0 < [0x2205#16, 0#16].length ∧ 1 < [0x2205#16, 0#16].length ∧ 1 < 256 := by decide

/-- HaltedLoopGoesOn: BA #0 at 0 and NOP at 1. -/
theorem witness_HaltedLoopGoesOn :
    (State.launch [0xC600, 0xC200]).halted 0 = true ∧ (State.launch [0xC600, 0xC200]).npc = 0 + 1 ∧
      (State.launch [0xC600, 0xC200]).hist.slot = false ∧ (State.launch [0xC600, 0xC200]).hist.lastProg = none ∧
      some 0 ∉ (State.launch [0xC600, 0xC200]).hist.stpAddrs ∧ some (0 + 1) ∉ (State.launch [0xC600, 0xC200]).hist.stpAddrs := by decide

/-- The frame rules over one instruction: each hypothesis on the instruction is met by one that answers a next state. -/
theorem witness_frames :
    (nextIs (exec (.ldi 5) s0) (fun _ => true) && !(Instr.ldi 5).isAlu && !(Instr.ldi 5).isXcc && !(Instr.ldi 5).writesIdx .x &&
      !(Instr.ldi 5).writesIdx .y && !(Instr.ldi 5).writesWindows && !(Instr.ldi 5).storesData && !(Instr.ldi 5).isStp &&
      !(Instr.ldi 5).isImm && !(Instr.ldi 5).isControl) = true ∧
    (nextIs (exec (.xcc 7) s0) (fun _ => true) && (Instr.xcc 7).isXcc) = true ∧
    (nextIs (exec (.stdI 5) s0) (fun _ => true) && !(Instr.stdI 5).writesA) = true ∧
    nextIs (exec (.imm 5) s0) (fun _ => true) = true := by decide

/-- PrefixMisuseStops: the four clauses, each at its boundary number of bytes. -/
theorem witness_PrefixMisuseStops :
    ((Instr.addI 1).formsI && decide (2 ≤ [0#8, 1#8].length)) = true ∧
    ((Instr.addG .a .aImm r2).formsG && decide ([0#8].length ≠ 2) && decide ([0#8, 1#8, 2#8].length ≠ 2)) = true ∧
    ((Instr.imm 1).isImm && decide (2 ≤ [0#8, 1#8].length)) = true ∧
    (!(Instr.lddS .x 0).formsI && !(Instr.lddS .x 0).formsG && !(Instr.lddS .x 0).isImm && decide ([0#8] ≠ [])) = true := by decide

theorem witness_OperandFormation :
    gprAddr s0 r2 = .ok 2 := by decide

/-- GprAddress: both R windows, and the last S register inside data memory; the least and the greatest size. -/
theorem witness_GprAddress :
    (s0.hist.winRMoved = false ∧ s0.hist.winSMoved = false ∧ s0.winR = 0) ∧ { s0 with winR := 1 }.winR = 1 ∧
    4 * { s0 with winS := 60 }.winS.toNat + (15#4).toNat < s0.params.dataWords ∧ 16 ≤ s0.params.dataWords ∧
    s0.params.dataWords ≤ 65536 ∧ { s0.params with dataWords := 16 }.ok = true ∧ { s0.params with dataWords := 65536 }.ok = true := by
  decide

/-- GprRightAfterWinStops: WIN of both banks, then ADD to R2 and INC of S1; the swap, then a MOV. -/
theorem witness_GprRightAfterWinStops :
    (nextIs (exec (.win 0b1010) s0) (fun _ => true) && nextIs (exec (.movsSwapMcsr 0b0010) s0) (fun _ => true) &&
      (Instr.addG .a .aGpr r2).gprAccess == some r2 && (0b1010#4).getLsbD 3 && (Instr.addG .a .aGpr r2).takesBytes 0 &&
      (Instr.inc .gpr .a s1).gprAccess == some s1 && (0b1010#4).getLsbD 1 && (Instr.inc .gpr .a s1).takesBytes 0 &&
      (Instr.movAReg s1).gprAccess == some s1 && (0b0010#4).getLsbD 1 && (Instr.movAReg s1).takesBytes 0) = true := by decide

/-- IndexRightAfterChangeStops: a post-modification of Y, the link in X; then an access through Y, a branch through X. -/
theorem witness_IndexRightAfterChangeStops :
    (nextIs (exec (.lddSPost .inc .y 0) s0) (fun _ => true) && (Instr.lddSPost .inc .y 0).writesIdx .y && (Instr.stdS .y 0).readsIdx .y &&
      nextIs (exec (.bal .never 0) s0) (fun _ => true) && (Instr.bal .never 0).writesIdx .x && (Instr.bax .always).readsIdx .x) = true := by
  decide

/-- AWriteRightAfterLdpStops: both forms of LDP; LDI and INC A write A. -/
theorem witness_AWriteRightAfterLdpStops :
    (nextIs (exec (.ldpI 0x40) s0) (fun _ => true) && nextIs (exec .ldpX s0) (fun _ => true) && (Instr.ldi 5).writesA &&
      !(Instr.ldi 5).isProg && (Instr.ldi 5).takesBytes 0 && (Instr.inc .a .gpr r2).writesA && (Instr.inc .a .gpr r2).takesBytes 0) = true := by
  decide

/-- LinkRightAfterProgramAccessStops: STP, with the condition `always`. -/
theorem witness_LinkRightAfterProgramAccessStops :
    ((Instr.stpI 0x40).isProg && nextIs (exec (.stpI 0x40) s0) (fun t => condHolds t.params.ccPolarity .always t.flags.z)) = true := by
  decide

/-- SWindowPastEndStops: the first register past the end. -/
theorem witness_SWindowPastEndStops :
    s0.hist.winSMoved = false ∧ s0.immq = [] ∧ s0.hist.lastProg ≠ some .load ∧
    s0.params.dataWords ≤ 4 * { s0 with winS := 63 }.winS.toNat + (4#4).toNat := by decide

/-- HazardReads: the hypotheses of the six clauses. -/
theorem witness_HazardReads :
    { s0 with hist := { h0 with lastProg := some .load } }.hist.lastProg = some .load ∧ s0.hist.lastProg ≠ some .load ∧
    idxLate { s0 with hist := { h0 with xLate := true } } .x = true ∧ idxLate s0 .x = false ∧
    { s0 with hist := { h0 with dataWritten := some 255 } }.hist.dataWritten = some 255 ∧ s0.hist.dataWritten ≠ some 255 := by decide

/-- StoreThenLoad: the last data word. -/
theorem witness_StoreThenLoad : s0.immq = [] ∧ s0.hist.lastProg ≠ some .load ∧ ((0xFF#9).signExtend 16).toNat < s0.params.dataWords := by decide

theorem witness_LdpThenNopThenUse :
    { s0 with mem := s0.mem.sramSet 0x40 7 }.immq = [] ∧ { s0 with mem := s0.mem.sramSet 0x40 7 }.hist.lastProg = none ∧
      readProg { s0 with mem := s0.mem.sramSet 0x40 7 } ((0x40#9).signExtend 16) = .ok 7 := by decide

/-- ArithmeticImmediate, LogicImmediate, ExtendedConditions, LoadConstantAndPrefix: an immediate without and with a prefix. -/
theorem witness_immediate :
    immI s0.immq 0x1FF = .ok 0xFFFF ∧ immI { s0 with immq := [0x12] }.immq 0x34 = .ok 0x1234 ∧
    immI s0.immq 7 = .ok 7 ∧ (7#16).toNat = (7 : Fin 8).val ∧ immI s0.immq 8 = .ok 8 ∧ 8 ≤ (8#16).toNat ∧
    ([0x12#8] : List Byte).length < 2 ∧ s0.hist.slot = false ∧ { s0 with hist := { h0 with slot := true } }.hist.slot = true := by decide

/-- ArithmeticGpr, LogicGpr, OneOperand, MovBothWays: operands and destination of a GPR form. -/
theorem witness_gpr_forms :
    imm2 .aGpr s0.immq = .ok 0 ∧ operands2 .aGpr r2 0 s0 = .ok (0, 0) ∧ imm2 .gprImm [0x12, 0x34] = .ok 0x1234 ∧
    operands2 .gprImm r2 0x1234 { s0 with immq := [0x12, 0x34] } = .ok (0, 0x1234) ∧
    operand1 .gpr r2 s0 = .ok 0 ∧ gprAddr s0 r2 = .ok 2 ∧ s0.immq = [] ∧ s0.hist.lastProg ≠ some .load := by decide

/-- CompareThenConditions: both disjuncts. -/
theorem witness_CompareThenConditions :
    (∃ d src r v, Instr.cmpG .a .aGpr r2 = .cmpG d src r ∧ imm2 src s0.immq = .ok v ∧ operands2 src r v s0 = .ok (0, 0)) ∧
    (∃ v, Instr.cmpI 5 = .cmpI v ∧ 0 = readA s0 ∧ immI s0.immq v = .ok 5) :=
  ⟨⟨.a, .aGpr, r2, 0, rfl, by decide, by decide⟩, ⟨5, rfl, by decide, by decide⟩⟩

/-- LoadProgram and ProgramWordRead: a ROM word, the last SPRAM word, the first address with none (BOOT_ADDR = 0x8000). -/
theorem witness_program_read :
    { s0 with mem := s0.mem.sramSet 0x3FFF 7, x := 0x3FFF }.hist.lastProg = none ∧
    readProg { s0 with mem := s0.mem.sramSet 0x3FFF 7, x := 0x3FFF } 0x3FFF = .ok 7 ∧ readIdx { s0 with x := 0x3FFF } .x = .ok 0x3FFF ∧
    immI [0x3F] 0x0FF = .ok 0x3FFF ∧ s0.params.bootAddr.toNat ≤ (0x800F#16).toNat ∧ (0x800F#16).toNat < s0.params.bootAddr.toNat + 16 ∧
    (0x3FFF#16).toNat < s0.params.progWords ∧ s0.params.progWords ≤ (0x4000#16).toNat := by decide

theorem witness_StoreProgram :
    s0.hist.lastProg = none ∧ progMap s0.params 0x3FFF = .sram (0x3FFF#16).toNat ∧ immI [0x3F] 0x0FF = .ok 0x3FFF ∧
      readIdx { s0 with x := 0x3FFF } .x = .ok 0x3FFF := by decide

/-- AccessOutsideMemoryStops: the first address past each memory, and the first ROM word. -/
theorem witness_AccessOutsideMemoryStops :
    s0.hist.lastProg = none ∧ progMap s0.params 0x4000 = .absent ∧ immI [0x40] 0 = .ok 0x4000 ∧
    readIdx { s0 with x := 0x4000 } .x = .ok 0x4000 ∧ progMap s0.params 0x8000 = .rom 0 ∧ immI [0x80] 0 = .ok 0x8000 ∧
    readIdx { s0 with x := 0x8000 } .x = .ok 0x8000 ∧ s0.params.dataWords ≤ (0x100#16).toNat ∧ immI [0x01] 0 = .ok 0x100 ∧
    s0.immq = [] ∧ idxLate s0 .x = false ∧ { s0 with x := 0xFF }.idx .x + (1#4).zeroExtend 16 = 0x100 := by decide

theorem witness_BackToBackProgramAccessesStop :
    (Instr.stpX.isProg && (Instr.ldpI 0).isProg) = true ∧ nextIs (exec .stpX s0) (fun _ => true) = true := by decide

/-- LoadData, StoreData: the last data word, absolute and indexed. -/
theorem witness_data_access :
    (0xFF#16).toNat < s0.params.dataWords ∧ s0.hist.lastProg ≠ some .load ∧ immI s0.immq 0xFF = .ok 0xFF ∧ s0.immq = [] ∧
    idxLate s0 .y = false ∧ { s0 with y := 0xF0 }.idx .y + (15#4).zeroExtend 16 = 0xFF := by
  decide

/-- IoRequests, IoReadData: ready and not ready, absolute and indexed. -/
theorem witness_io :
    s0.ioReqReady = true ∧ { s0 with ioReqReady := false }.ioReqReady = false ∧ s0.ioReadReady = false ∧
    { s0 with ioReadReady := true, ioData := 5 }.ioReadReady = true ∧ immI s0.immq 3 = .ok 3 ∧ s0.immq = [] ∧
    s0.hist.lastProg ≠ some .load ∧ idxLate s0 .x = false ∧ s0.idx .x + (3#4).zeroExtend 16 = 3 := by
  decide

/-- MovsReads, MovsWritesAndSwaps, WindowOperation, McsrLayoutDefault. -/
theorem witness_special :
    s0.immq = [] ∧ s0.hist.lastProg ≠ some .load ∧ idxLate s0 .y = false ∧ s0.params.mcsr = .provisional := by decide

/-- BranchImmediate, BranchThroughX, ConditionsAndLink: taken and not taken, right after LDP and not, in a delay slot. -/
theorem witness_branches :
    immI s0.immq 0x10 = .ok 0x10 ∧ s0.immq = [] ∧ readIdx s0 .x = .ok 0 ∧ s0.hist.slot = false ∧ s0.hist.lastProg = none ∧
    condHolds s0.params.ccPolarity .always s0.flags.z = true ∧ condHolds s0.params.ccPolarity .z1 s0.flags.z = false ∧
    { s0 with hist := { h0 with lastProg := some .store } }.hist.lastProg ≠ none ∧
    { s0 with hist := { h0 with slot := true } }.hist.slot = true ∧ s0.params = State.reset.params := by decide

theorem witness_NopAndNeverBranches :
    [0#8].length ≤ 1 ∧ immI [0x12] 0x34 = .ok 0x1234 ∧ s0.immq = [] ∧ s0.hist.xLate = false := by decide

theorem witness_BranchInDelaySlotStops :
    { s0 with hist := { h0 with slot := true } }.hist.slot = true ∧ (Instr.balx .never).barredFromSlot = true ∧ s0.immq = [] ∧
    s0.hist.xLate = false ∧ (Instr.ba .z0 0).readsIdx .x = false ∧
    (Instr.ba .z0 0).barredFromSlot = true ∧ (Instr.ba .z0 0).formsI = true ∧ [0#8].length = 1 := by decide

end Sys2Proof.Tests
end

section
/-! The step of R7 once a word is fetched and decoded. -/

namespace Sys2Proof.Machine

/-- With a word fetched and decoded, the step is the instruction's own outcome, settled with the fetch hazard (R7). -/
theorem step_eq_settle_exec {s : State} {w : Word} {i : Instr} (hf : fetch s = .ok w) (hd : decode s.params.special w = .ok i) :
    step s = settle (fetchHazard s) (exec i s) := by
  simp only [step, hf, hd]

/-- With no fetch hazard, a next state is followed by the IO agent's turn (R120, log 28). -/
@[simp] theorem settle_false_next (t : State) : settle false (.next t) = .next t.tick := rfl

/-- With no fetch hazard, the instruction's own fault is the step's. -/
@[simp] theorem settle_false_fault (f : Fault) : settle false (.fault f) = .fault f := rfl

/-- Settles O6, from the step as the settled outcome of the instruction: the state after the IO agent's turn is `State.tick`,
whose record update is the one the statement writes out. -/
theorem stepRunsDecodedInstruction : Obligations.StepRunsDecodedInstruction := by
  unfold Obligations.StepRunsDecodedInstruction
  intro s w i hf hd hz
  have hstep : step s = settle false (exec i s) := hz ▸ step_eq_settle_exec hf hd
  constructor
  · intro t ht
    rw [hstep, ht, settle_false_next, State.tick]
  · intro f hfault
    rw [hstep, hfault, settle_false_fault]

end Sys2Proof.Machine
end

section
/-! SUPPORT. The few shapes the arms of `exec` have (R7): which shared operation an instruction runs, with the classes of the statements
(`Safety.lean`) that it belongs to. The one case split over the instructions is `exec_shape`; what holds of every instruction is
proved below over the shapes. -/

namespace Sys2Proof

/-- The classes of the statements that an instruction belongs to, as one value. -/
structure Traits where
  alu : Bool := false
  xcc : Bool := false
  control : Bool := false
  isProg : Bool := false
  isStp : Bool := false
  isImm : Bool := false
  formsI : Bool := false
  formsG : Bool := false
  storesData : Bool := false
  writesA : Bool := false
  windows : Bool := false
  writesIdx : Idx → Bool := fun _ => false
  readsIdx : Idx → Bool := fun _ => false

/-- The classes of one instruction, as the statements name them. -/
def Instr.traits (i : Instr) : Traits :=
  { alu := i.isAlu, xcc := i.isXcc, control := i.isControl, isProg := i.isProg, isStp := i.isStp, isImm := i.isImm, formsI := i.formsI
    formsG := i.formsG, storesData := i.storesData, writesA := i.writesA, windows := i.writesWindows
    writesIdx := fun r => i.writesIdx r, readsIdx := fun r => i.readsIdx r }

/-- The bytes an instruction can take, by its classes. -/
def Traits.takesBytes (t : Traits) (n : Nat) : Bool :=
  if t.isImm || t.formsI then n < 2 else if t.formsG then n == 2 else n == 0

theorem traits_takesBytes (i : Instr) (n : Nat) : i.traits.takesBytes n = i.takesBytes n := rfl

namespace Machine

/-- What an instruction does with its immediate or with the address it forms. -/
inductive Access (s : State) : Traits → (Word → Except Fault Effect) → Prop where
  | loadProg : Access s { isProg := true, writesA := true } (fun ea => loadProg ea s)
  | storeProg : Access s { isProg := true, isStp := true } (fun ea => storeProg ea s)
  | loadData : Access s { writesA := true } (fun ea => loadData ea s)
  | storeData : Access s { storesData := true } (fun ea => storeData ea s)
  | ioReadRequest : Access s {} (fun ea => ioReadRequest ea s)
  | ioReadData : Access s { writesA := true } (fun ea => ioReadData ea s)
  | ioWriteRequest : Access s {} (fun ea => ioWriteRequest ea s)
  | ldi : Access s { writesA := true } (fun v => andThen (mayWriteA s) fun _ => .ok { a := some v })
  | xcc : Access s { xcc := true } (fun v => xccOn v s)
  | branch (link rel : Bool) (cc : Cond) :
    Access s { control := true, writesIdx := fun r => link && decide (r = .x) } (fun t => branch link rel cc t s)

/-- The shared operation an instruction of the given classes runs. -/
inductive Shape (s : State) : Traits → Except Fault Effect → Prop where
  | aluImm (f : Alu2Fn) (w : Bool) (v : BitVec 9) : Shape s { alu := true, formsI := true, writesA := w } (alu2Imm f w v s)
  | aluGpr (f : Alu2Fn) (w : Bool) (d : Dst) (src : Src2) (r : Gpr) :
    Shape s { alu := true, formsG := some src = some .aImm || some src = some .gprImm
              writesA := (if w then some d else none) = some .a, storesData := (if w then some d else none) = some .gpr } (alu2Gpr f w d src r s)
  | alu1 (f : Alu1Fn) (d : Dst) (src : Src1) (r : Gpr) :
    Shape s { alu := true, writesA := some d = some .a, storesData := some d = some .gpr } (alu1Gpr f d src r s)
  | absolute (v : BitVec 9) {t : Traits} {f : Word → Except Fault Effect} (access : Access s t f) :
    Shape s { t with formsI := true } (andThen (immI s.immq v) f)
  | throughX {t : Traits} {f : Word → Except Fault Effect} (access : Access s t f) :
    Shape s { t with readsIdx := fun r => decide (r = .x) } (andThen (immNone s.immq) fun _ => andThen (readIdx s .x) f)
  | indexed (p : Option Post) (q : Idx) (k : BitVec 4) {t : Traits} {f : Word → Except Fault Effect} (access : Access s t f)
      (hw : t.writesIdx = fun _ => false) :
    Shape s { t with readsIdx := fun r => decide (q = r), writesIdx := fun r => p.isSome && decide (q = r) } (indexed s p q k f)
  | movAReg (r : Gpr) : Shape s { writesA := true }
      (andThen (immNone s.immq) fun _ => andThen (mayWriteA s) fun _ => andThen (readGpr s r) fun g => .ok { a := some g })
  | movRegA (r : Gpr) : Shape s { storesData := true } (andThen (immNone s.immq) fun _ => writeGpr s r (readA s))
  | movsRead (p : Option Post) (q : Idx) :
    Shape s { writesA := true, readsIdx := fun r => decide (q = r), writesIdx := fun r => p.isSome && decide (q = r) }
      (movsIdx s q fun v => postModify p q v {})
  | movsSwap (q : Idx) :
    Shape s { writesA := true, readsIdx := fun r => decide (q = r), writesIdx := fun r => decide (q = r) }
      (movsIdx s q fun _ => withIdx {} q (readA s))
  | movsWrite (q : Idx) : Shape s { writesIdx := fun r => decide (q = r) } (movs s (withIdx {} q (readA s)))
  | movsToA (v : Word) : Shape s { writesA := true } (movsToA s v {})
  | win (k : BitVec 4) :
    Shape s { windows := true } (movs s { winR := winNewR s k (readA s), winS := winNewS s k (readA s) })
  | movsSwapMcsr (k : BitVec 4) :
    Shape s { windows := true, writesA := true } (movsToA s s.mcsr { winR := winNewR s k (readA s), winS := winNewS s k (readA s) })
  | movsNone : Shape s {} (movs s {})
  | imm (v : BitVec 9) : Shape s { isImm := true } (immPrefix v s)

/-- Every instruction runs one of the shared operations, of the shape its classes say. -/
theorem exec_shape (i : Instr) (s : State) : ∃ r, Shape s i.traits r ∧ exec i s = run s r := by
  cases i with
  | addNwI v | addcyNwI v | cmpI v | subcyNwI v | testI v | andnNwI v | orNwI v | xorNwI v => exact ⟨_, .aluImm _ false v, rfl⟩
  | addI v | addcyI v | subI v | subcyI v | andI v | andnI v | orI v | xorI v => exact ⟨_, .aluImm _ true v, rfl⟩
  | addNwG d src r | addcyNwG d src r | cmpG d src r | subcyNwG d src r | testG d src r | andnNwG d src r | orNwG d src r
  | xorNwG d src r => exact ⟨_, .aluGpr _ false d src r, rfl⟩
  | addG d src r | addcyG d src r | subG d src r | subcyG d src r | andG d src r | andnG d src r | orG d src r | xorG d src r =>
    exact ⟨_, .aluGpr _ true d src r, rfl⟩
  | inc d src r | dec d src r | rol d src r | sl0 d src r | sl1 d src r | slc d src r | ror d src r | sr0 d src r | sra d src r
  | src d src r => exact ⟨_, .alu1 _ d src r, rfl⟩
  | ldpI v => exact ⟨_, .absolute v .loadProg, rfl⟩
  | ldpX => exact ⟨_, .throughX .loadProg, rfl⟩
  | stpI v => exact ⟨_, .absolute v .storeProg, rfl⟩
  | stpX => exact ⟨_, .throughX .storeProg, rfl⟩
  | lddI v => exact ⟨_, .absolute v .loadData, rfl⟩
  | lddS q k => exact ⟨_, .indexed none q k .loadData rfl, rfl⟩
  | lddSPost p q k => exact ⟨_, .indexed (some p) q k .loadData rfl, rfl⟩
  | stdI v => exact ⟨_, .absolute v .storeData, rfl⟩
  | stdS q k => exact ⟨_, .indexed none q k .storeData rfl, rfl⟩
  | stdSPost p q k => exact ⟨_, .indexed (some p) q k .storeData rfl, rfl⟩
  | movAReg r => exact ⟨_, .movAReg r, rfl⟩
  | movRegA r => exact ⟨_, .movRegA r, rfl⟩
  | iorrI v => exact ⟨_, .absolute v .ioReadRequest, rfl⟩
  | iorrS q k => exact ⟨_, .indexed none q k .ioReadRequest rfl, rfl⟩
  | iorrSPost p q k => exact ⟨_, .indexed (some p) q k .ioReadRequest rfl, rfl⟩
  | iordI v => exact ⟨_, .absolute v .ioReadData, rfl⟩
  | iordS q k => exact ⟨_, .indexed none q k .ioReadData rfl, rfl⟩
  | iordSPost p q k => exact ⟨_, .indexed (some p) q k .ioReadData rfl, rfl⟩
  | iowrI v => exact ⟨_, .absolute v .ioWriteRequest, rfl⟩
  | iowrS q k => exact ⟨_, .indexed none q k .ioWriteRequest rfl, rfl⟩
  | iowrSPost p q k => exact ⟨_, .indexed (some p) q k .ioWriteRequest rfl, rfl⟩
  | movsRead q => exact ⟨_, .movsRead none q, rfl⟩
  | movsReadPost p q => exact ⟨_, .movsRead (some p) q, rfl⟩
  | movsReadMcsr | movsReadBswap => exact ⟨_, .movsToA _, rfl⟩
  | movsWrite q => exact ⟨_, .movsWrite q, rfl⟩
  | win k => exact ⟨_, .win k, rfl⟩
  | movsSwap q => exact ⟨_, .movsSwap q, rfl⟩
  | movsSwapMcsr k => exact ⟨_, .movsSwapMcsr k, rfl⟩
  | movsNone | movsNoneSel _ => exact ⟨_, .movsNone, rfl⟩
  | ldi v => exact ⟨_, .absolute v .ldi, rfl⟩
  | imm v => exact ⟨_, .imm v, rfl⟩
  | xcc v => exact ⟨_, .absolute v .xcc, rfl⟩
  | ba cc v => exact ⟨_, .absolute v (.branch false false cc), rfl⟩
  | br cc v => exact ⟨_, .absolute v (.branch false true cc), rfl⟩
  | bal cc v => exact ⟨_, .absolute v (.branch true false cc), rfl⟩
  | brl cc v => exact ⟨_, .absolute v (.branch true true cc), rfl⟩
  | bax cc => exact ⟨_, .throughX (.branch false false cc), rfl⟩
  | brx cc => exact ⟨_, .throughX (.branch false true cc), rfl⟩
  | balx cc => exact ⟨_, .throughX (.branch true false cc), rfl⟩
  | brlx cc => exact ⟨_, .throughX (.branch true true cc), rfl⟩
  | nop => exact ⟨_, .absolute 0 (.branch false false .never), rfl⟩

end Machine
end Sys2Proof
end

section
/-! SUPPORT. What an effect writes, by the classes of its instruction (R10), and what a legal effect is: proved of each shared
operation, so it holds of every instruction. -/

namespace Sys2Proof.Machine

/-- The effect writes what an instruction of the classes `t` writes, and nothing else (R10). -/
structure Effect.Fits (s : State) (t : Traits) (e : Effect) : Prop where
  a : e.a.isSome = t.writesA
  x : e.x.isSome = t.writesIdx .x
  y : e.y.isSome = t.writesIdx .y
  flags : t.alu = false → t.xcc = false → e.flags = none
  zOnly : t.xcc = true → ∃ z, e.flags = some { s.flags with z := z }
  winR : t.windows = false → e.winR = none
  winS : t.windows = false → e.winS = none
  data : e.data.isSome = t.storesData
  stp : e.stp.isSome = t.isStp
  imm : e.imm.isSome = t.isImm
  flow : t.control = false → e.flow = .seq

/-- The effect stores inside the memories (R33, R36), selects an S window that exists (R13), and appends no third byte (R22). -/
structure Effect.Legal (s : State) (e : Effect) : Prop where
  data : ∀ a v, e.data = some (a, v) → a < s.params.dataWords
  stp : ∀ a v, e.stp = some (a, v) → a.toNat < s.params.progWords
  winS : ∀ w, e.winS = some w → ∃ n, w = BitVec.ofNat 14 (n % (s.params.dataWords / 4))
  imm : e.imm.isSome = true → s.immq.length < 2

theorem xccOn_ok {v : Word} {s : State} {e : Effect} (h : xccOn v s = .ok e) : ∃ z, e = { flags := some { s.flags with z := z } } := by
  unfold xccOn at h
  split at h
  · exact ⟨_, (Except.ok.inj h).symm⟩
  · simp at h

theorem ioReadRequest_ok {ea : Word} {s : State} {e : Effect} (h : ioReadRequest ea s = .ok e) : e = { io := some (.readRequest ea) } := by
  obtain ⟨_, -, he⟩ := andThen_eq_ok.mp h
  exact (Except.ok.inj he).symm

theorem ioWriteRequest_ok {ea : Word} {s : State} {e : Effect} (h : ioWriteRequest ea s = .ok e) :
    e = { io := some (.writeRequest ea (readA s)) } := by
  obtain ⟨_, -, he⟩ := andThen_eq_ok.mp h
  exact (Except.ok.inj he).symm

/-- IMM appends one byte, the third at most never, and not in a delay slot (R22, R137, R155). -/
theorem immPrefix_eq_ok {v : BitVec 9} {s : State} {e : Effect} :
    immPrefix v s = .ok e ↔ s.immq.length < 2 ∧ s.hist.slot = false ∧ e = { imm := some (v.extractLsb' 0 8) } := by
  unfold immPrefix
  split
  · rename_i h
    simp; omega
  · split <;> simp_all [eq_comm (a := e)]

/-- An access writes what its classes say, inside the memories. -/
theorem Access.fits {s : State} {t : Traits} {f : Word → Except Fault Effect} (h : Access s t f) {v : Word} {e : Effect}
    (he : f v = .ok e) : e.Fits s t ∧ e.Legal s := by
  cases h with
  | loadProg =>
    obtain ⟨-, _, -, rfl⟩ := loadProg_eq_ok.mp he
    constructor <;> constructor <;> simp
  | storeProg =>
    obtain ⟨-, hc, rfl⟩ := storeProg_eq_ok.mp he
    have hlt := (storeProgCheck_ok hc).2
    constructor <;> constructor <;> simp_all
  | loadData =>
    obtain ⟨-, -, rfl⟩ := loadData_eq_ok.mp he
    constructor <;> constructor <;> simp
  | storeData =>
    obtain ⟨ha, rfl⟩ := storeData_eq_ok.mp he
    constructor <;> constructor <;> simp_all
  | ioReadRequest =>
    obtain rfl := ioReadRequest_ok he
    constructor <;> constructor <;> simp
  | ioReadData =>
    obtain ⟨-, rfl⟩ := ioReadData_eq_ok.mp he
    constructor <;> constructor <;> simp
  | ioWriteRequest =>
    obtain rfl := ioWriteRequest_ok he
    constructor <;> constructor <;> simp
  | ldi =>
    obtain ⟨_, -, he⟩ := andThen_eq_ok.mp he
    obtain rfl := Except.ok.inj he
    constructor <;> constructor <;> simp
  | xcc =>
    obtain ⟨z, rfl⟩ := xccOn_ok he
    constructor <;> constructor <;> simp
  | branch link rel cc =>
    obtain ⟨-, -, rfl⟩ := branch_eq_ok.mp he
    constructor <;> constructor <;> cases link <;> simp

/-- Writing an index register adds that register to the effect and nothing else. -/
theorem withIdx_eq (e : Effect) (q : Idx) (v : Word) :
    withIdx e q v = { e with x := if q = .x then some v else e.x, y := if q = .y then some v else e.y } := by
  cases q <;> rfl

/-- A write of `A` beside one of an index register. -/
theorem withIdx_withA (q : Idx) (v a : Word) : { withIdx {} q v with a := some a } = withIdx { a := some a } q v := by
  cases q <;> rfl

theorem postModify_withA (p : Option Post) (q : Idx) (v a : Word) :
    { postModify p q v {} with a := some a } = postModify p q v { a := some a } := by
  cases p with
  | none => rfl
  | some p => exact withIdx_withA q (postStep p v) a

/-- An effect that writes no index register, with the write of `q` added. -/
theorem Effect.Fits.withIdx {s : State} {t : Traits} {e : Effect} (h : e.Fits s t) (hw : t.writesIdx = fun _ => false) (q : Idx)
    (v : Word) : (withIdx e q v).Fits s { t with writesIdx := fun r => decide (q = r) } := by
  rw [withIdx_eq]
  exact { h with
    x := by have hx := h.x; cases q <;> simp_all
    y := by have hy := h.y; cases q <;> simp_all }

theorem Effect.Legal.withIdx {s : State} {e : Effect} (h : e.Legal s) (q : Idx) (v : Word) : (withIdx e q v).Legal s := by
  rw [withIdx_eq]
  exact { h with }

/-- The same for a post-modification, if there is one (R54). -/
theorem Effect.Fits.postModify {s : State} {t : Traits} {e : Effect} (h : e.Fits s t) (hw : t.writesIdx = fun _ => false)
    (p : Option Post) (q : Idx) (v : Word) :
    (postModify p q v e).Fits s { t with writesIdx := fun r => p.isSome && decide (q = r) } := by
  cases p with
  | none => exact hw ▸ h
  | some p => exact h.withIdx hw q (postStep p v)

theorem Effect.Legal.postModify {s : State} {e : Effect} (h : e.Legal s) (p : Option Post) (q : Idx) (v : Word) :
    (postModify p q v e).Legal s := by
  cases p with
  | none => exact h
  | some p => exact h.withIdx q (postStep p v)

/-- Which index register an instruction reads does not matter for what it writes. -/
theorem Effect.Fits.reads {s : State} {t : Traits} {e : Effect} (h : e.Fits s t) (f : Idx → Bool) : e.Fits s { t with readsIdx := f } :=
  { h with }

/-- A write of `A`, or of nothing. -/
theorem writeA_fits (s : State) (a : Option Word) : Effect.Fits s { writesA := a.isSome } { a := a } ∧ Effect.Legal s { a := a } := by
  constructor <;> constructor <;> simp

theorem winNewS_legal {s : State} {k : BitVec 4} {v : Word} {w : BitVec 14} (h : winNewS s k v = some w) :
    ∃ n, w = BitVec.ofNat 14 (n % (s.params.dataWords / 4)) := by
  unfold winNewS at h
  split at h
  · exact ⟨_, (Option.some.inj h).symm⟩
  · simp at h

/-- A write of the windows, with one of `A` or not (R132, R135). -/
theorem win_fits (s : State) (k : BitVec 4) (v : Word) (a : Option Word) :
    Effect.Fits s { windows := true, writesA := a.isSome } { a := a, winR := winNewR s k v, winS := winNewS s k v } ∧
    Effect.Legal s { a := a, winR := winNewR s k v, winS := winNewS s k v } :=
  ⟨by constructor <;> simp, { data := by simp, stp := by simp, imm := by simp, winS := fun _ hw => winNewS_legal hw }⟩

/-- The result of a G-fmt instruction goes to `A` or to a data word that exists. -/
theorem writeDst_fits {d : Dst} {r : Gpr} {v : Word} {s : State} {e : Effect} (h : writeDst d r v s = .ok e) (f : Flags) (g : Bool) :
    ({ e with flags := some f } : Effect).Fits s
      { alu := true, formsG := g, writesA := some d = some .a, storesData := some d = some .gpr } ∧
    ({ e with flags := some f } : Effect).Legal s := by
  rcases writeDst_eq_ok.mp h with ⟨rfl, rfl⟩ | ⟨rfl, a, ha, rfl⟩
  · constructor <;> constructor <;> simp
  · have hlt := (gprAddr_ok ha).1
    constructor <;> constructor <;> simp_all

/-- Every shared operation writes what its classes say, inside the memories. -/
theorem Shape.fits {s : State} {t : Traits} {r : Except Fault Effect} (h : Shape s t r) {e : Effect} (he : r = .ok e) :
    e.Fits s t ∧ e.Legal s := by
  cases h with
  | aluImm f w v =>
    obtain ⟨_, -, -, rfl⟩ := alu2Imm_eq_ok.mp he
    constructor <;> constructor <;> cases w <;> simp
  | aluGpr f w d src r =>
    obtain ⟨_, _, e', -, -, -, he', rfl⟩ := alu2Gpr_eq_ok.mp he
    cases w with
    | false =>
      obtain rfl := Except.ok.inj he'
      constructor <;> constructor <;> simp
    | true => exact writeDst_fits he' _ _
  | alu1 f d src r =>
    obtain ⟨-, -, _, e', -, he', rfl⟩ := alu1Gpr_eq_ok.mp he
    exact writeDst_fits he' _ _
  | absolute v access =>
    obtain ⟨_, -, he⟩ := andThen_eq_ok.mp he
    obtain ⟨hf, hl⟩ := access.fits he
    exact ⟨{ hf with }, hl⟩
  | throughX access =>
    obtain ⟨_, -, he⟩ := andThen_eq_ok.mp he
    obtain ⟨_, -, he⟩ := andThen_eq_ok.mp he
    obtain ⟨hf, hl⟩ := access.fits he
    exact ⟨hf.reads _, hl⟩
  | indexed p q k access hw =>
    obtain ⟨-, -, e', he', rfl⟩ := indexed_eq_ok.mp he
    obtain ⟨hf, hl⟩ := access.fits he'
    exact ⟨(hf.postModify hw p q _).reads _, hl.postModify p q _⟩
  | movAReg r =>
    obtain ⟨_, -, he⟩ := andThen_eq_ok.mp he
    obtain ⟨_, -, he⟩ := andThen_eq_ok.mp he
    obtain ⟨_, -, he⟩ := andThen_eq_ok.mp he
    obtain rfl := Except.ok.inj he
    exact writeA_fits s (some _)
  | movRegA r =>
    obtain ⟨_, -, he⟩ := andThen_eq_ok.mp he
    obtain ⟨a, ha, rfl⟩ := writeGpr_eq_ok.mp he
    have hlt := (gprAddr_ok ha).1
    constructor <;> constructor <;> simp_all
  | movsRead p q =>
    obtain ⟨-, -, -, rfl⟩ := movsIdx_eq_ok.mp he
    rw [postModify_withA]
    obtain ⟨hf, hl⟩ := writeA_fits s (some (s.idx q))
    exact ⟨(hf.postModify rfl p q _).reads _, hl.postModify p q _⟩
  | movsSwap q =>
    obtain ⟨-, -, -, rfl⟩ := movsIdx_eq_ok.mp he
    rw [withIdx_withA]
    obtain ⟨hf, hl⟩ := writeA_fits s (some (s.idx q))
    exact ⟨(hf.withIdx rfl q _).reads _, hl.withIdx q _⟩
  | movsWrite q =>
    obtain ⟨-, rfl⟩ := movs_eq_ok.mp he
    obtain ⟨hf, hl⟩ := writeA_fits s none
    exact ⟨hf.withIdx rfl q _, hl.withIdx q _⟩
  | movsToA v =>
    obtain ⟨-, -, rfl⟩ := movsToA_eq_ok.mp he
    exact writeA_fits s (some v)
  | win k =>
    obtain ⟨-, rfl⟩ := movs_eq_ok.mp he
    exact win_fits s k _ none
  | movsSwapMcsr k =>
    obtain ⟨-, -, rfl⟩ := movsToA_eq_ok.mp he
    exact win_fits s k _ (some _)
  | movsNone =>
    obtain ⟨-, rfl⟩ := movs_eq_ok.mp he
    exact writeA_fits s none
  | imm v =>
    obtain ⟨hq, -, rfl⟩ := immPrefix_eq_ok.mp he
    constructor <;> constructor <;> simp [hq]

/-- An instruction that goes on committed an effect that writes what its classes say, inside the memories. -/
theorem exec_fits {i : Instr} {s t : State} (h : exec i s = .next t) : ∃ e, t = commit s e ∧ e.Fits s i.traits ∧ e.Legal s := by
  obtain ⟨r, hr, hi⟩ := exec_shape i s
  rw [hi, run_eq_next] at h
  obtain ⟨e, he, rfl⟩ := h
  exact ⟨e, rfl, hr.fits he⟩

end Sys2Proof.Machine
end

section
/-! The frame of every instruction (R10): what an instruction of a class leaves as it was. -/

namespace Sys2Proof.Machine

theorem newMem_sram_of_stp_none {s : State} {e : Effect} (h : e.stp = none) : (newMem s e).sram = s.mem.sram := by
  unfold newMem
  cases e.data <;> simp [h]

theorem newMem_dataGet_of_data_none {s : State} {e : Effect} (h : e.data = none) (a : Nat) :
    (newMem s e).dataGet a = s.mem.dataGet a := by
  unfold newMem
  cases e.stp <;> simp [h]

theorem newHist_slot_seq {s : State} {e : Effect} (h : e.flow = .seq) : (newHist s e).slot = false := by simp [newHist, h]

/-- Settles O14: an instruction outside the classes has an effect with no flags, and that of XCC replaces Z only. -/
theorem flagsChangeOnlyByAluAndXcc : Obligations.FlagsChangeOnlyByAluAndXcc := by
  unfold Obligations.FlagsChangeOnlyByAluAndXcc
  intro i s t h
  obtain ⟨e, rfl, hf, -⟩ := exec_fits h
  constructor
  · intro ha hx
    simp [hf.flags ha hx]
  · intro hx
    obtain ⟨z, hz⟩ := hf.zOnly hx
    simp [hz]

/-- Settles O15: the effect of an instruction that writes no `A` has none. -/
theorem accumulatorChangesOnlyByItsWriters : Obligations.AccumulatorChangesOnlyByItsWriters := by
  unfold Obligations.AccumulatorChangesOnlyByItsWriters
  intro i s t h hw
  obtain ⟨e, rfl, hf, -⟩ := exec_fits h
  have ha : e.a = none := by simpa using hf.a.trans hw
  simp [ha]

/-- Settles O16, for each of the two index registers by its field of the effect. -/
theorem indexRegistersChangeOnlyByTheirWriters : Obligations.IndexRegistersChangeOnlyByTheirWriters := by
  unfold Obligations.IndexRegistersChangeOnlyByTheirWriters
  intro i s t r h hw
  obtain ⟨e, rfl, hf, -⟩ := exec_fits h
  cases r with
  | x =>
    have hx : e.x = none := by simpa using hf.x.trans hw
    simp [State.idx, hx]
  | y =>
    have hy : e.y = none := by simpa using hf.y.trans hw
    simp [State.idx, hy]

/-- Settles O17: outside WIN and the swap the effect holds neither window. -/
theorem windowsChangeOnlyByWin : Obligations.WindowsChangeOnlyByWin := by
  unfold Obligations.WindowsChangeOnlyByWin
  intro i s t h hw
  obtain ⟨e, rfl, hf, -⟩ := exec_fits h
  simp [hf.winR hw, hf.winS hw]

/-- Settles O18: without a data store the data words stay, whatever STP does to program memory, and no written address is remembered. -/
theorem dataMemoryChangesOnlyByStores : Obligations.DataMemoryChangesOnlyByStores := by
  unfold Obligations.DataMemoryChangesOnlyByStores
  intro i s t h hw
  obtain ⟨e, rfl, hf, -⟩ := exec_fits h
  have hd : e.data = none := by simpa using hf.data.trans hw
  exact ⟨newMem_dataGet_of_data_none hd, by simp [hd]⟩

/-- Settles O19: no effect holds a ROM word, and only STP's holds an SPRAM word. -/
theorem programMemoryChangesOnlyByStp : Obligations.ProgramMemoryChangesOnlyByStp := by
  unfold Obligations.ProgramMemoryChangesOnlyByStp
  intro i s t h
  obtain ⟨e, rfl, hf, -⟩ := exec_fits h
  constructor
  · intro k
    rw [commit_mem, newMem_rom]
  · intro hs a
    have hstp : e.stp = none := by simpa using hf.stp.trans hs
    rw [commit_mem, newMem_sram_of_stp_none hstp]

/-- Settles O20: an effect appends a byte only for IMM, and the byte is that of `immPrefix`. -/
theorem pendingImmediateAfterAnInstruction : Obligations.PendingImmediateAfterAnInstruction := by
  unfold Obligations.PendingImmediateAfterAnInstruction
  intro i s t h
  constructor
  · rintro v rfl
    rw [exec_imm, run_eq_next] at h
    obtain ⟨e, he, rfl⟩ := h
    obtain ⟨-, -, rfl⟩ := immPrefix_eq_ok.mp he
    rfl
  · intro hi
    obtain ⟨e, rfl, hf, -⟩ := exec_fits h
    exact newImmq_none s e (by simpa using hf.imm.trans hi)

/-- Settles O21: outside control flow the effect goes on to the next word. -/
theorem nonBranchAdvancesByOne : Obligations.NonBranchAdvancesByOne := by
  unfold Obligations.NonBranchAdvancesByOne
  intro i s t h hc
  obtain ⟨e, rfl, hf, -⟩ := exec_fits h
  have hseq := hf.flow hc
  exact ⟨newPc_seq s e hseq, newNpc_seq s e hseq, newHist_slot_seq hseq⟩

/-- Settles O22: an effect has no field for the IO side or the parameters, and at most one IO event. -/
theorem cpuNeverWritesTheIoSide : Obligations.CpuNeverWritesTheIoSide := by
  unfold Obligations.CpuNeverWritesTheIoSide
  intro i s t h
  obtain ⟨e, rfl⟩ := exec_next h
  exact ⟨rfl, rfl, rfl, rfl, rfl, e.io, rfl⟩

end Sys2Proof.Machine
end

section
/-! The invariant of the model's states: it holds after reset and every step keeps it. -/

namespace Sys2Proof.Machine

/-- The invariant as its clauses. -/
theorem inv_iff {s : State} : s.inv = true ↔
    s.params.ok = true ∧ s.mem.wf = true ∧ s.mem.within s.params = true ∧ s.winS.toNat < s.params.dataWords / 4 ∧
    s.immq.length ≤ 2 ∧ s.hist.stpAddrs.length ≤ s.params.stpFetchWindow ∧
    ∀ a, s.hist.dataWritten = some a → a < s.params.dataWords := by
  simp only [State.inv, Bool.and_eq_true, decide_eq_true_eq, and_assoc]
  cases s.hist.dataWritten <;> simp

/-- A data store keeps the memories canonical and within their sizes, and so does a program store. -/
theorem newMem_wf_within {s : State} {e : Effect} (he : e.Legal s) (hw : s.mem.wf = true) (hm : s.mem.within s.params = true) :
    (newMem s e).wf = true ∧ (newMem s e).within s.params = true := by
  rcases hes : e.stp with - | ⟨b, w⟩
  · rcases hed : e.data with - | ⟨a, v⟩
    · simpa [newMem, hed, hes] using ⟨hw, hm⟩
    · simpa [newMem, hed, hes] using ⟨wf_dataSet v hw, within_dataSet v (he.data a v hed) hm⟩
  · have hb := he.stp b w hes
    rcases hed : e.data with - | ⟨a, v⟩
    · simpa [newMem, hed, hes] using ⟨wf_sramSet w hw, within_sramSet w hb hm⟩
    · simpa [newMem, hed, hes] using
        ⟨wf_sramSet w (wf_dataSet v hw), within_sramSet w hb (within_dataSet v (he.data a v hed) hm)⟩

/-- A window that WIN sets is one of the windows of data RAM (R13). -/
theorem winS_lt_of_legal {s : State} {e : Effect} (he : e.Legal s) (hwin : s.winS.toNat < s.params.dataWords / 4) :
    (e.winS.getD s.winS).toNat < s.params.dataWords / 4 := by
  cases hw : e.winS with
  | none => exact hwin
  | some w =>
    obtain ⟨n, rfl⟩ := he.winS w hw
    calc (BitVec.ofNat 14 (n % (s.params.dataWords / 4))).toNat
        = n % (s.params.dataWords / 4) % 2 ^ 14 := BitVec.toNat_ofNat _ _
      _ ≤ n % (s.params.dataWords / 4) := Nat.mod_le _ _
      _ < s.params.dataWords / 4 := Nat.mod_lt _ (by omega)

/-- IMM leaves at most two bytes pending, every other instruction none (R22). -/
theorem newImmq_length_of_legal {s : State} {e : Effect} (he : e.Legal s) : (newImmq s e).length ≤ 2 := by
  cases hi : e.imm with
  | none => simp [newImmq, hi]
  | some b =>
    have hlt : s.immq.length < 2 := he.imm (by simp [hi])
    simp only [newImmq, hi, List.length_append, List.length_singleton]
    omega

/-- A legal effect keeps the invariant. -/
theorem inv_commit {s : State} {e : Effect} (he : e.Legal s) (hs : s.inv = true) : (commit s e).inv = true := by
  obtain ⟨hp, hw, hm, hwin, -, -, -⟩ := inv_iff.mp hs
  obtain ⟨hw', hm'⟩ := newMem_wf_within he hw hm
  refine inv_iff.mpr ⟨hp, hw', hm', winS_lt_of_legal he hwin, newImmq_length_of_legal he, ?_, ?_⟩
  · exact List.length_take_le _ _
  · intro a ha
    obtain ⟨⟨a, v⟩, hd, rfl⟩ := Option.map_eq_some_iff.mp ha
    exact he.data a v hd

/-- The IO agent's turn touches nothing the invariant speaks of. -/
theorem inv_tick (t : State) : t.tick.inv = t.inv := rfl

/-- Placing a word where `pc` fetches keeps the invariant. -/
theorem inv_placeAtPc {s : State} (w : Word) (hs : s.inv = true) : (placeAtPc s w).inv = true := by
  obtain ⟨hp, hw, hm, hwin, hq, hh, hd⟩ := inv_iff.mp hs
  obtain ⟨hw', hm'⟩ := wf_placeAtPc w hw hm
  exact inv_iff.mpr ⟨hp, hw', hm', hwin, hq, (List.length_filter_le _ _).trans hh, hd⟩

/-- Settles O10: a step commits a legal effect and lets the IO agent answer. -/
theorem stepKeepsInvariant : Obligations.StepKeepsInvariant := by
  unfold Obligations.StepKeepsInvariant
  intro s t hs h
  obtain ⟨_, i, u, -, -, -, hu, rfl⟩ := step_eq_next.mp h
  obtain ⟨e, rfl, -, hl⟩ := exec_fits hu
  rw [inv_tick]
  exact inv_commit hl hs

/-- Settles O12: the reset state is one concrete state, and placing a word in it keeps the invariant. -/
theorem resetState : Obligations.ResetState := by
  unfold Obligations.ResetState
  have hinv : State.reset.inv = true := by decide
  exact ⟨rfl, rfl, rfl, rfl, rfl, rfl, hinv, fun _ => inv_placeAtPc _ hinv⟩

end Sys2Proof.Machine
end

section
/-! The stops that every instruction of a class shares: pending IMM bytes it cannot take (R56), an index register that just changed
(R176), a write of `A` right after LDP (R178). -/

namespace Sys2Proof.Machine

theorem immI_of_two_le {q : List Byte} (i : BitVec 9) (h : 2 ≤ q.length) : immI q i = .error (.unspecified .iAfterTwoImm) := by
  rcases q with - | ⟨b, - | ⟨c, q⟩⟩
  · simp at h
  · simp at h
  · rfl

theorem immG_of_length_ne {q : List Byte} (h : q.length ≠ 2) : immG q = .error (.unspecified .gWithoutTwoImm) := by
  rcases q with - | ⟨b, - | ⟨c, - | ⟨d, q⟩⟩⟩
  · rfl
  · rfl
  · simp at h
  · rfl

theorem immNone_of_ne_nil {q : List Byte} (h : q ≠ []) : immNone q = .error (.unspecified .immWithoutUse) := by
  cases q with
  | nil => simp at h
  | cons b q => rfl

theorem immPrefix_of_two_le {s : State} (v : BitVec 9) (h : 2 ≤ s.immq.length) : immPrefix v s = .error (.unspecified .threeImm) := by
  simp [immPrefix, h]

/-- The operation `r` stops by name on a number of pending bytes that an instruction of the classes `t` cannot take (R56). -/
structure StopsOnBytes (s : State) (t : Traits) (r : Except Fault Effect) : Prop where
  formsI : t.formsI = true → 2 ≤ s.immq.length → r = .error (.unspecified .iAfterTwoImm)
  formsG : t.formsG = true → s.immq.length ≠ 2 → r = .error (.unspecified .gWithoutTwoImm)
  isImm : t.isImm = true → 2 ≤ s.immq.length → r = .error (.unspecified .threeImm)
  none : t.formsI = false → t.formsG = false → t.isImm = false → s.immq ≠ [] → r = .error (.unspecified .immWithoutUse)

theorem StopsOnBytes.of_immI {s : State} {t : Traits} (hi : t.formsI = true) (hg : t.formsG = false) (hm : t.isImm = false)
    (v : BitVec 9) (k : Word → Except Fault Effect) : StopsOnBytes s t (andThen (immI s.immq v) k) where
  formsI _ hq := by rw [immI_of_two_le v hq, andThen_error]
  formsG h := by simp [hg] at h
  isImm h := by simp [hm] at h
  none h := by simp [hi] at h

theorem StopsOnBytes.of_immG {s : State} {t : Traits} (hi : t.formsI = false) (hg : t.formsG = true) (hm : t.isImm = false)
    (k : Word → Except Fault Effect) : StopsOnBytes s t (andThen (immG s.immq) k) where
  formsI h := by simp [hi] at h
  formsG _ hq := by rw [immG_of_length_ne hq, andThen_error]
  isImm h := by simp [hm] at h
  none _ h := by simp [hg] at h

theorem StopsOnBytes.of_immNone {s : State} {t : Traits} (hi : t.formsI = false) (hg : t.formsG = false) (hm : t.isImm = false)
    (k : Unit → Except Fault Effect) : StopsOnBytes s t (andThen (immNone s.immq) k) where
  formsI h := by simp [hi] at h
  formsG h := by simp [hg] at h
  isImm h := by simp [hm] at h
  none _ _ _ hq := by rw [immNone_of_ne_nil hq, andThen_error]

theorem andThen_assoc {α β γ : Type} (r : Except Fault α) (f : α → Except Fault β) (k : β → Except Fault γ) :
    andThen (andThen r f) k = andThen r fun a => andThen (f a) k := by
  cases r <;> rfl

/-- An access forms no immediate itself and reads no index register. -/
theorem Access.noOperand {s : State} {t : Traits} {f : Word → Except Fault Effect} (h : Access s t f) :
    t.formsI = false ∧ t.formsG = false ∧ t.isImm = false ∧ t.readsIdx = fun _ => false := by
  cases h <;> exact ⟨rfl, rfl, rfl, rfl⟩

/-- Every shared operation checks the pending bytes first. -/
theorem Shape.stopsOnBytes {s : State} {t : Traits} {r : Except Fault Effect} (h : Shape s t r) : StopsOnBytes s t r := by
  cases h with
  | aluImm f w v => exact .of_immI rfl rfl rfl v _
  | aluGpr f w d src r =>
    cases src with
    | aGpr | gprA =>
      rw [alu2Gpr, imm2, andThen_assoc]
      exact .of_immNone rfl rfl rfl _
    | aImm | gprImm => exact .of_immG rfl rfl rfl _
  | @absolute v t f access =>
    obtain ⟨-, hg, hm, -⟩ := access.noOperand
    exact .of_immI (t := { t with formsI := true }) rfl hg hm v f
  | throughX access | indexed p q k access _ =>
    obtain ⟨hi, hg, hm, -⟩ := access.noOperand
    refine .of_immNone ?_ ?_ ?_ _
    exacts [hi, hg, hm]
  | alu1 | movAReg | movRegA | movsRead | movsSwap | movsWrite | movsToA | win | movsSwapMcsr | movsNone =>
    exact .of_immNone rfl rfl rfl _
  | imm v =>
    exact { formsI := by simp, formsG := by simp, isImm := fun _ hq => immPrefix_of_two_le v hq, none := by simp }

/-- Settles O23: what an instruction runs stops on the bytes it cannot take, and so does the instruction. -/
theorem prefixMisuseStops : Obligations.PrefixMisuseStops := by
  unfold Obligations.PrefixMisuseStops
  intro i s
  obtain ⟨r, hr, hi⟩ := exec_shape i s
  have hstop := hr.stopsOnBytes
  rw [hi]
  refine ⟨fun h hq => ?_, fun h hq => ?_, fun h hq => ?_, fun h hg hm hq => ?_⟩
  · rw [hstop.formsI h hq, run_error]
  · rw [hstop.formsG h hq, run_error]
  · rw [hstop.isImm h hq, run_error]
  · rw [hstop.none h hg hm hq, run_error]

/-! ## An index register that just changed (R176) -/

theorem eq_imm_of_isImm {i : Instr} (h : i.isImm = true) : ∃ v, i = .imm v := by
  cases i with
  | imm v => exact ⟨v, rfl⟩
  | _ => simp [Instr.isImm] at h

/-- An instruction that changed an index register marks it for the next one, and leaves no byte pending. -/
theorem exec_writesIdx {i : Instr} {r : Idx} {s t : State} (h : exec i s = .next t) (hw : i.writesIdx r = true) :
    idxLate t r = true ∧ t.immq = [] := by
  have hm : i.isImm = false := by
    by_contra hm
    obtain ⟨v, rfl⟩ := eq_imm_of_isImm (by simpa using hm)
    simp [Instr.writesIdx] at hw
  obtain ⟨e, rfl, hf, -⟩ := exec_fits h
  refine ⟨?_, newImmq_none s e (by simpa using hf.imm.trans hm)⟩
  cases r with
  | x => exact hf.x.trans hw
  | y => exact hf.y.trans hw

/-- With no byte pending, a shared operation that reads an index register reads it before anything else can stop it. -/
theorem Shape.stops_of_late {s : State} {t : Traits} {o : Except Fault Effect} (h : Shape s t o) {r : Idx} (hr : t.readsIdx r = true)
    (hq : s.immq = []) (hl : idxLate s r = true) : o = .error (.hazard .indexLate) := by
  have himm : immNone s.immq = .ok () := immNone_eq_ok.mpr hq
  have hread := readIdx_of_late hl
  cases h with
  | throughX access =>
    obtain rfl : r = .x := by simpa using hr
    rw [himm, andThen_ok, hread, andThen_error]
  | indexed p q k access _ =>
    obtain rfl : q = r := by simpa using hr
    rw [Machine.indexed, himm, andThen_ok, hread, andThen_error]
  | movsRead p q | movsSwap q =>
    obtain rfl : q = r := by simpa using hr
    rw [movsIdx, himm, andThen_ok, hread, andThen_error]
  | absolute v access =>
    obtain ⟨-, -, -, hn⟩ := access.noOperand
    simp [hn] at hr
  | aluImm | aluGpr | alu1 | movAReg | movRegA | movsWrite | movsToA | win | movsSwapMcsr | movsNone | imm => simp at hr

/-- Settles O27: the first instruction marks the register, the second one reads it. -/
theorem indexRightAfterChangeStops : Obligations.IndexRightAfterChangeStops := by
  unfold Obligations.IndexRightAfterChangeStops
  intro i j r s t hw h hr
  obtain ⟨hl, hq⟩ := exec_writesIdx h hw
  obtain ⟨o, ho, hj⟩ := exec_shape j t.tick
  have hl' : idxLate t.tick r = true := by cases r <;> exact hl
  rw [hj, ho.stops_of_late hr hq hl', run_error]

/-! ## A write of `A` right after LDP (R178) -/

/-- LDP writes `A`, is remembered as the access just done, and writes nothing else (R105, R178). -/
theorem exec_ldp {i : Instr} {s t : State} (hi : (∃ v, i = .ldpI v) ∨ i = .ldpX) (h : exec i s = .next t) :
    ∃ v, t = commit s { a := some v, prog := some .load } := by
  rcases hi with ⟨v, rfl⟩ | rfl
  · obtain ⟨e, he, rfl⟩ := run_eq_next.mp h
    obtain ⟨ea, -, he⟩ := andThen_eq_ok.mp he
    obtain ⟨-, v, -, rfl⟩ := loadProg_eq_ok.mp he
    exact ⟨v, rfl⟩
  · obtain ⟨e, he, rfl⟩ := run_eq_next.mp h
    obtain ⟨-, -, he⟩ := andThen_eq_ok.mp he
    obtain ⟨ea, -, he⟩ := andThen_eq_ok.mp he
    obtain ⟨-, v, -, rfl⟩ := loadProg_eq_ok.mp he
    exact ⟨v, rfl⟩

theorem mayWriteA_of_late {s : State} (h : s.hist.lastProg = some .load) : mayWriteA s = .error (.hazard .aAfterLdp) :=
  mayWriteA_eq_error.mpr ⟨h, rfl⟩

/-- An access other than LDP that writes `A` asks for it before it does anything else. -/
theorem Access.stops_afterLdp {s : State} {t : Traits} {f : Word → Except Fault Effect} (h : Access s t f) (hw : t.writesA = true)
    (hp : t.isProg = false) (hl : s.hist.lastProg = some .load) (v : Word) : f v = .error (.hazard .aAfterLdp) := by
  have hA := mayWriteA_of_late hl
  cases h with
  | loadProg => simp at hp
  | loadData => simp only [Machine.loadData, hA, andThen_error]
  | ioReadData => simp only [Machine.ioReadData, hA, andThen_error]
  | ldi => simp only [hA, andThen_error]
  | storeProg | storeData | ioReadRequest | ioWriteRequest | xcc | branch => simp at hw

/-- Right after LDP, with no byte pending and the index registers unchanged, a shared operation that writes `A` stops. -/
theorem Shape.stops_afterLdp {s : State} {t : Traits} {o : Except Fault Effect} (h : Shape s t o) (hw : t.writesA = true)
    (hp : t.isProg = false) (hb : t.takesBytes 0 = true) (hq : s.immq = []) (hx : ∀ r, idxLate s r = false)
    (hl : s.hist.lastProg = some .load) : o = .error (.hazard .aAfterLdp) := by
  have himm : immNone s.immq = .ok () := immNone_eq_ok.mpr hq
  have hA := mayWriteA_of_late hl
  have hread (r : Idx) := readIdx_of_not_late (hx r)
  cases h with
  | aluImm f w v =>
    obtain rfl : w = true := hw
    simp [alu2Imm, hq, immI, hA]
  | aluGpr f w d src r =>
    have hd : w = true ∧ d = .a := by cases w <;> simp_all
    obtain ⟨rfl, rfl⟩ := hd
    cases src with
    | aGpr | gprA => simp [alu2Gpr, imm2, himm, mayWriteDst, hA]
    | aImm | gprImm => simp [Traits.takesBytes] at hb
  | alu1 f d src r =>
    obtain rfl : d = .a := by simpa using hw
    simp [alu1Gpr, himm, mayWriteDst, hA]
  | absolute v access => simp [hq, immI, access.stops_afterLdp hw hp hl]
  | throughX access => simp [himm, hread, access.stops_afterLdp hw hp hl]
  | indexed p q k access _ => simp [Machine.indexed, himm, hread, access.stops_afterLdp hw hp hl]
  | movAReg r => simp [himm, hA]
  | movsRead p q | movsSwap q => simp [movsIdx, Machine.movsToA, himm, hread, hA]
  | movsToA v | movsSwapMcsr k => simp [Machine.movsToA, himm, hA]
  | movRegA | movsWrite | win | movsNone | imm => simp at hw

/-- Settles O28: after LDP the history bars writes of `A` and makes its value free. -/
theorem aWriteRightAfterLdpStops : Obligations.AWriteRightAfterLdpStops := by
  unfold Obligations.AWriteRightAfterLdpStops
  intro i j s t hi h
  obtain ⟨v, rfl⟩ := exec_ldp hi h
  refine ⟨rfl, fun hw hp hb => ?_⟩
  obtain ⟨o, ho, hj⟩ := exec_shape j (commit s { a := some v, prog := some .load }).tick
  rw [hj, ho.stops_afterLdp hw hp ((traits_takesBytes j 0).trans hb) rfl (fun r => by cases r <;> rfl) rfl, run_error]

end Sys2Proof.Machine
end

section
/-! Moves, windows and general registers: the state after an instruction that writes registers only, or one data word. -/

namespace Sys2Proof.Machine

/-- An effect that writes registers only: the state moved on, with those registers, and what the hazard rules remember of them. -/
theorem commit_registers (s : State) (a x y : Option Word) (f : Option Flags) (wr : Option (BitVec 1)) (ws : Option (BitVec 14)) :
    commit s { a := a, x := x, y := y, flags := f, winR := wr, winS := ws } = { s.advance with
      a := a.getD s.a, x := x.getD s.x, y := y.getD s.y, flags := f.getD s.flags, winR := wr.getD s.winR, winS := ws.getD s.winS
      hist := { s.advance.hist with
        xLate := x.isSome, yLate := y.isSome, winRMoved := wr.isSome, winSMoved := ws.isSome } } := by
  simp [commit, State.advance, newPc, newNpc, newImmq, newMem, newHist, History.empty]

/-- A write of `A` alone. -/
theorem commit_writeA (s : State) (v : Word) : commit s { a := some v } = { s.advance with a := v } :=
  commit_registers s (some v) none none none none none

/-- A write of nothing. -/
theorem commit_empty (s : State) : commit s {} = s.advance :=
  commit_registers s none none none none none none

/-- A write of `A` with the post-modification of the index register `q`, if there is one (R54). -/
theorem commit_postModify_writeA (s : State) (p : Option Post) (q : Idx) (v : Word) :
    commit s (postModify p q (s.idx q) { a := some v }) = { s.postModified p q with a := v } := by
  cases p with
  | none => exact commit_writeA s v
  | some p =>
    cases q with
    | x => exact commit_registers s (some v) (some (postStep p s.x)) none none none none
    | y => exact commit_registers s (some v) none (some (postStep p s.y)) none none none

/-- A store of one data word (R175). -/
theorem storedData_commit (s : State) (a : Nat) (v : Word) : StoredData s s.advance (commit s { data := some (a, v) }) a v := by
  have hmem : (commit s { data := some (a, v) }).mem = s.mem.dataSet a v := rfl
  refine ⟨?_, fun b hb => ?_, rfl, rfl, ?_⟩
  · rw [hmem, dataGet_dataSet_same]
  · rw [hmem, dataGet_dataSet_other s.mem v hb]
  · simp [commit, State.advance, newPc, newNpc, newImmq, newHist, History.empty]

/-! ## General registers (R11 to R13) -/

/-- A register of bank S is a data word at four times the window, where there is one. -/
theorem gprAddr_s {s : State} (n : BitVec 4) (hm : s.hist.winSMoved = false) : gprAddr s ⟨.s, n⟩ =
    if 4 * s.winS.toNat + n.toNat < s.params.dataWords then .ok (4 * s.winS.toNat + n.toNat)
    else .error (.unspecified .sWindowPastEnd) := by
  simp [gprAddr, windowMoved, hm]

/-- A register of bank R, from the base `b` of its window. -/
theorem gprAddr_r {s : State} (n : BitVec 4) {b : Nat} (hm : s.hist.winRMoved = false)
    (hb : (if s.winR = 0 then 0 else s.params.dataWords - 16) = b) (hlt : b + n.toNat < s.params.dataWords)
    (hmax : s.params.dataWords ≤ 65536) : gprAddr s ⟨.r, n⟩ = .ok (b + n.toNat) := by
  have hw : (BitVec.ofNat 16 (b + n.toNat)).toNat = b + n.toNat := by
    rw [BitVec.toNat_ofNat]
    exact Nat.mod_eq_of_lt (by omega)
  subst hb
  rw [gprAddr, windowMoved, hm]
  exact dataAddr_eq_ok.mpr ⟨hw.symm, hw.trans_lt hlt⟩

/-- Settles O25: each window by its base, and every register of bank R lies below `DATA_WORDS`, at least 16. -/
theorem gprAddress : Obligations.GprAddress := by
  unfold Obligations.GprAddress
  intro s n hmin hmax
  have hn := n.isLt
  refine ⟨fun hm hr => ?_, fun hm hr => ?_, fun hm hlt => ?_⟩
  · simpa using gprAddr_r n hm (b := 0) (by simp [hr]) (by omega) hmax
  · exact gprAddr_r n hm (by simp [hr]) (by omega) hmax
  · rw [gprAddr_s n hm, if_pos hlt]

/-- Settles O30: both moves form the address of the register, which has none. -/
theorem sWindowPastEndStops : Obligations.SWindowPastEndStops := by
  unfold Obligations.SWindowPastEndStops
  intro s n hm hq hl hpast
  have haddr : gprAddr s ⟨.s, n⟩ = .error (.unspecified .sWindowPastEnd) := by rw [gprAddr_s n hm, if_neg (by omega)]
  have himm : immNone s.immq = .ok () := immNone_eq_ok.mpr hq
  constructor
  · simp [himm, mayWriteA_of_not_late hl, readGpr, haddr]
  · simp [himm, writeGpr, haddr]

/-- Settles O47: one move commits a write of `A`, the other one data word. -/
theorem movBothWays : Obligations.MovBothWays := by
  unfold Obligations.MovBothWays
  intro s r g hq
  have himm : immNone s.immq = .ok () := immNone_eq_ok.mpr hq
  constructor
  · intro hg hl
    simp [himm, mayWriteA_of_not_late hl, readGpr, hg, commit_writeA]
  · intro hg
    refine ⟨_, ?_, storedData_commit s g (readA s)⟩
    simp [himm, writeGpr, hg]

/-! ## Moves to `A` (R130, R134) -/

theorem movs_of_nil {s : State} (hq : s.immq = []) (e : Effect) : movs s e = .ok e := movs_eq_ok.mpr ⟨hq, rfl⟩

theorem movsToA_of_nil {s : State} (hq : s.immq = []) (hl : s.hist.lastProg ≠ some .load) (v : Word) (e : Effect) :
    movsToA s v e = .ok { e with a := some v } := movsToA_eq_ok.mpr ⟨hq, hl, rfl⟩

/-- A move of an index register to `A`, with a post-modification or not. -/
theorem run_movsIdx_postModify {s : State} (hq : s.immq = []) (hl : s.hist.lastProg ≠ some .load) {r : Idx} (hx : idxLate s r = false)
    (p : Option Post) : run s (movsIdx s r fun v => postModify p r v {}) = .next { s.postModified p r with a := s.idx r } := by
  rw [movsIdx_eq_ok.mpr ⟨hq, hx, hl, rfl⟩, run_ok, postModify_withA, commit_postModify_writeA]

/-- Settles O50: each move to `A` commits that write, beside a post-modification if it has one, and no transfer commits nothing. -/
theorem movsReads : Obligations.MovsReads := by
  unfold Obligations.MovsReads
  intro s hq
  have hnone : run s (movs s {}) = .next s.advance := by rw [movs_of_nil hq, run_ok, commit_empty]
  refine ⟨fun hl => ⟨fun r hx => run_movsIdx_postModify hq hl hx none, fun p r hx => run_movsIdx_postModify hq hl hx (some p), ?_, ?_⟩,
    hnone, fun _ => hnone⟩
  · rw [exec_movsReadMcsr, movsToA_of_nil hq hl, run_ok, commit_writeA]
  · rw [exec_movsReadBswap, movsToA_of_nil hq hl, run_ok, commit_writeA, readA_of_not_late hl, bswap]

/-! ## The windows (R13, R20, R135) -/

theorem winNewR_isSome (s : State) (k : BitVec 4) (v : Word) : (winNewR s k v).isSome = k.getLsbD 3 := by
  unfold winNewR
  cases k.getLsbD 3 <;> rfl

theorem winNewS_isSome (s : State) (k : BitVec 4) (v : Word) : (winNewS s k v).isSome = k.getLsbD 1 := by
  unfold winNewS
  cases k.getLsbD 1 <;> rfl

theorem winNewR_getD (s : State) (k : BitVec 4) (v : Word) : (winNewR s k v).getD s.winR =
    if k.getLsbD 3 then (if k.getLsbD 2 then s.winR + opR s.params.mcsr v else opR s.params.mcsr v) else s.winR := by
  unfold winNewR
  cases k.getLsbD 3 <;> rfl

theorem winNewS_getD (s : State) (k : BitVec 4) (v : Word) : (winNewS s k v).getD s.winS =
    if k.getLsbD 1 then
      BitVec.ofNat 14 (((if k.getLsbD 0 then s.winS.toNat else 0) + (opS s.params.mcsr v).toNat) % (s.params.dataWords / 4))
    else s.winS := by
  unfold winNewS
  cases k.getLsbD 1 <;> rfl

/-- Settles O52: WIN and the swap commit the same windows, the swap with `A` beside them. -/
theorem windowOperation : Obligations.WindowOperation := by
  unfold Obligations.WindowOperation
  intro s k r' s' hq hr hs
  rw [← winNewR_getD] at hr
  rw [← winNewS_getD] at hs
  subst hr hs
  constructor
  · rw [exec_win, movs_of_nil hq, run_ok, commit_registers, winNewR_isSome, winNewS_isSome]
    rfl
  · intro hl
    rw [exec_movsSwapMcsr, movsToA_of_nil hq hl, run_ok, commit_registers, winNewR_isSome, winNewS_isSome]
    rfl

/-- A concatenation as a number. -/
theorem toNat_append_add {m n : Nat} (x : BitVec m) (y : BitVec n) : (x ++ y).toNat = x.toNat * 2 ^ n + y.toNat := by
  rw [BitVec.toNat_append, ← Nat.shiftLeft_add_eq_or_of_lt y.isLt, Nat.shiftLeft_eq]

/-- Settles O53: the fields of R20 as digits of the number. -/
theorem mcsrLayoutDefault : Obligations.McsrLayoutDefault := by
  unfold Obligations.McsrLayoutDefault
  intro s v h
  refine ⟨?_, ?_, ?_⟩
  · simp only [State.mcsr, h, toNat_append_add, BitVec.extractLsb'_toNat, BitVec.toNat_ofBool]
    simp
    omega
  · simp [opR, h, BitVec.extractLsb'_toNat, Nat.shiftRight_eq_div_pow]
  · have hlt : v.toNat / 16 % 64 < 16384 := by omega
    simpa [opS, h, BitVec.extractLsb'_toNat, Nat.shiftRight_eq_div_pow] using hlt

end Sys2Proof.Machine
end

section
/-! The program space (R36, R39): where an address leads, what LDP and the fetch read there, and the stops of the fetch. -/

namespace Sys2Proof.Machine

/-! ## The map (R36) -/

section progMap

variable {p : Params} {a : Word}

/-- The ROM has priority at the 16 addresses from `BOOT_ADDR` on. -/
theorem progMap_of_mem_rom (hlo : p.bootAddr.toNat ≤ a.toNat) (hhi : a.toNat < p.bootAddr.toNat + Config.bootRomWords) :
    progMap p a = .rom (a.toNat - p.bootAddr.toNat) := by
  rw [progMap, if_pos ⟨hlo, hhi⟩]

theorem progMap_of_mem_sram (hrom : ¬(p.bootAddr.toNat ≤ a.toNat ∧ a.toNat < p.bootAddr.toNat + Config.bootRomWords))
    (h : a.toNat < p.progWords) : progMap p a = .sram a.toNat := by
  rw [progMap, if_neg hrom, if_pos h]

theorem progMap_of_outside (hrom : ¬(p.bootAddr.toNat ≤ a.toNat ∧ a.toNat < p.bootAddr.toNat + Config.bootRomWords))
    (h : p.progWords ≤ a.toNat) : progMap p a = .absent := by
  rw [progMap, if_neg hrom, if_neg (Nat.not_lt.mpr h)]

end progMap

/-! ## The word at an address -/

section progCell

variable {s : State} {a : Word}

theorem progCell_of_rom {k : Nat} (h : progMap s.params a = .rom k) : progCell s a = .ok (cellGet s.mem.rom k) := by
  simp only [progCell, h]

theorem progCell_of_sram {k : Nat} (h : progMap s.params a = .sram k) : progCell s a = .ok (cellGet s.mem.sram k) := by
  simp only [progCell, h]

theorem progCell_of_absent (h : progMap s.params a = .absent) : progCell s a = .error (.badAddress .prog a) := by
  simp only [progCell, h]

/-- LDP reads the word, or the free word of the address where nothing was written (log 3). -/
theorem readProg_of_cell {c : Option Word} (h : progCell s a = .ok c) : readProg s a = .ok (c.getD (Config.unwrittenProg a)) := by
  cases c <;> simp only [readProg, h, Option.getD_none, Option.getD_some]

theorem readProg_of_absent (h : progMap s.params a = .absent) : readProg s a = .error (.badAddress .prog a) := by
  simp only [readProg, progCell_of_absent h]

theorem storeProgCheck_of_absent (h : progMap s.params a = .absent) : storeProgCheck s a = .error (.badAddress .prog a) := by
  simp only [storeProgCheck, h]

theorem storeProgCheck_of_rom {k : Nat} (h : progMap s.params a = .rom k) : storeProgCheck s a = .error (.unspecified .storeToRom) := by
  simp only [storeProgCheck, h]

theorem storeProgCheck_of_sram {k : Nat} (h : progMap s.params a = .sram k) : storeProgCheck s a = .ok () := by
  simp only [storeProgCheck, h]

/-- The fetch reads a word that was written, and stops on one that was not. -/
theorem fetchAt_of_written {w : Word} (h : progCell s a = .ok (some w)) : fetchAt s a = .ok w := by
  simp only [fetchAt, h]

theorem fetchAt_of_unwritten (h : progCell s a = .ok none) : fetchAt s a = .error (.unspecified .unwritten) := by
  simp only [fetchAt, h]

theorem fetchAt_of_absent (h : progMap s.params a = .absent) : fetchAt s a = .error (.badAddress .prog a) := by
  simp only [fetchAt, progCell_of_absent h]

end progCell

/-- Settles O41: each clause is a branch of the map and the cell it leads to. -/
theorem programWordRead : Obligations.ProgramWordRead := by
  unfold Obligations.ProgramWordRead
  intro s ea
  refine ⟨fun hlo hhi => ?_, fun hrom hlt => ?_, fun hrom hle => ?_⟩
  · exact readProg_of_cell (progCell_of_rom (progMap_of_mem_rom hlo hhi))
  · exact readProg_of_cell (progCell_of_sram (progMap_of_mem_sram hrom hlt))
  · exact readProg_of_absent (progMap_of_outside hrom hle)

/-! ## The stops of the fetch (R39, R61) -/

section fetch

variable {s : State}

theorem step_of_fetch_error {f : Fault} (h : fetch s = .error f) : step s = .fault f := by
  simp only [step, h]

theorem step_of_decode_error {w : Word} {r : Reject} (hf : fetch s = .ok w) (hd : decode s.params.special w = .error r) :
    step s = .fault (rejectFault r) := by
  simp only [step, hf, hd]

end fetch

/-- Settles O8: the first two clauses stop in the fetch, the other two in the decoder. -/
theorem stepStopsAtTheFetch : Obligations.StepStopsAtTheFetch := by
  unfold Obligations.StepStopsAtTheFetch
  intro s
  refine ⟨fun hrom hle => ?_, fun hc => ?_, fun w why hf hd => ?_, fun w what hf hd => ?_⟩
  · exact step_of_fetch_error (fetchAt_of_absent (progMap_of_outside hrom hle))
  · exact step_of_fetch_error (fetchAt_of_unwritten hc)
  · exact step_of_decode_error hf hd
  · exact step_of_decode_error hf hd

/-! ## The fetch hazard (R44, R181) -/

theorem fetchHazard_iff {s : State} : fetchHazard s = true ↔ some s.pc ∈ s.hist.stpAddrs := List.contains_iff_mem

/-- On a fetch hazard an instruction that would go on stops. -/
theorem settle_true_next (t : State) : settle true (.next t) = .fault (.hazard .fetchAfterStp) := rfl

/-- Settles O7: on a fetch hazard the step is settled with the hazard, whatever the instruction does. -/
theorem fetchAfterStpStops : Obligations.FetchAfterStpStops := by
  unfold Obligations.FetchAfterStpStops
  intro s w i hf hd hmem
  have hstep : step s = settle true (exec i s) := fetchHazard_iff.mpr hmem ▸ step_eq_settle_exec hf hd
  constructor
  · intro t ht
    obtain ⟨hfalse, -⟩ := settle_eq_next.mp (hstep ▸ ht)
    exact absurd hfalse (by decide)
  · intro t ht
    rw [hstep, ht, settle_true_next]

/-! ## The loader (log 9) -/

/-- A word placed at `pc` is listed there, in the ROM or in the SPRAM. -/
theorem progCell_placeAtPc {s : State} (w : Word) (h : progMap s.params s.pc ≠ .absent) :
    progCell (placeAtPc s w) s.pc = .ok (some w) := by
  rcases progMap_cases s.params s.pc with ⟨k, hk, -, -⟩ | ⟨hk, -⟩ | ⟨hk, -⟩
  · rw [progCell_of_rom (s := placeAtPc s w) hk]
    simp only [placeAtPc, hk, cellGet_cellSet_same]
  · rw [progCell_of_sram (s := placeAtPc s w) hk]
    simp only [placeAtPc, hk, sramSet_sram, cellGet_cellSet_same]
  · exact absurd hk h

/-- The loader forgets every earlier STP to the place. -/
theorem fetchHazard_placeAtPc (s : State) (w : Word) : fetchHazard (placeAtPc s w) = false := by
  rw [Bool.eq_false_iff, Ne, fetchHazard_iff]
  simp [placeAtPc]

/-- Settles O9: the word is listed where the map leads, and no stored address equal to `pc` remains. -/
theorem placedWordIsFetched : Obligations.PlacedWordIsFetched := by
  unfold Obligations.PlacedWordIsFetched
  intro s w hmap hw
  have hword : s.withFetchWord 16 w = placeAtPc s (BitVec.ofNat 16 w) := by
    rw [State.withFetchWord, Nat.mod_eq_of_lt (show w < 2 ^ 16 from hw)]
  rw [hword]
  exact ⟨rfl, fetchAt_of_written (progCell_placeAtPc _ hmap), fetchHazard_placeAtPc s _⟩

end Sys2Proof.Machine
end

section
/-! LDP, STP, LDD and STD: what the access does at the address formed, then the instruction in its absolute and its indexed form. -/

namespace Sys2Proof.Machine

/-! ## The address -/

section address

variable {s : State} {ea : Word} {f : Word → Except Fault Effect}

/-- An absolute access is the access at the immediate. -/
theorem absolute_of_immI {i : BitVec 9} (h : immI s.immq i = .ok ea) : andThen (immI s.immq i) f = f ea := by
  rw [h, andThen_ok]

/-- An access through `X` is the access at its value (R107). -/
theorem throughX_of_readIdx (hq : s.immq = []) (hx : readIdx s .x = .ok ea) :
    (andThen (immNone s.immq) fun _ => andThen (readIdx s .x) f) = f ea := by
  have himm : immNone s.immq = .ok () := immNone_eq_ok.mpr hq
  rw [himm, andThen_ok, hx, andThen_ok]

/-- An indexed access stops where its access stops: nothing is post-modified (R54). -/
theorem indexed_of_error {r : Idx} {k : BitVec 4} {x : Fault} (p : Option Post) (hq : s.immq = []) (hl : idxLate s r = false)
    (hf : f (indexedEa (s.idx r) k) = .error x) : indexed s p r k f = .error x := by
  have himm : immNone s.immq = .ok () := immNone_eq_ok.mpr hq
  rw [indexed, himm, andThen_ok, readIdx_of_not_late hl, andThen_ok, hf, andThen_error]

end address

theorem exec_indexedForms_ldd (p : Option Post) (r : Idx) (k : BitVec 4) (s : State) :
    exec (indexedForms .lddS .lddSPost p r k) s = run s (indexed s p r k fun ea => loadData ea s) := by
  cases p <;> rfl

theorem exec_indexedForms_std (p : Option Post) (r : Idx) (k : BitVec 4) (s : State) :
    exec (indexedForms .stdS .stdSPost p r k) s = run s (indexed s p r k fun ea => storeData ea s) := by
  cases p <;> rfl

/-! ## Program memory (R105, R106) -/

section program

variable {s : State} {ea : Word}

theorem notConsecutive_of_none (h : s.hist.lastProg = none) : notConsecutive s = .ok () := by
  simp [notConsecutive, h]

/-- An LDP that is not right after another access stops where the read of program memory stops. -/
theorem loadProg_of_error {f : Fault} (hl : s.hist.lastProg = none) (h : readProg s ea = .error f) : loadProg ea s = .error f := by
  rw [loadProg, notConsecutive_of_none hl, andThen_ok, h, andThen_error]

/-- An STP that is not right after another access stops where the address bars it. -/
theorem storeProg_of_error {f : Fault} (hl : s.hist.lastProg = none) (h : storeProgCheck s ea = .error f) :
    storeProg ea s = .error f := by
  rw [storeProg, notConsecutive_of_none hl, andThen_ok, h, andThen_error]

/-- LDP goes on with the word in `A`, and is remembered as the access just done (R178, R179). -/
theorem run_loadProg {v : Word} (hl : s.hist.lastProg = none) (h : readProg s ea = .ok v) :
    run s (loadProg ea s) = .next { s.advance with a := v, hist := { s.advance.hist with lastProg := some .load } } := by
  rw [loadProg_eq_ok.mpr ⟨hl, v, h, rfl⟩, run_ok]
  simp [commit, State.advance, newPc, newNpc, newImmq, newMem, newHist, History.empty]

/-- STP goes on with `A` stored at an address of the SPRAM. -/
theorem run_storeProg {k : Nat} (hl : s.hist.lastProg = none) (h : progMap s.params ea = .sram k) :
    run s (storeProg ea s) = .next (commit s { stp := some (ea, s.a), prog := some .store }) := by
  rw [storeProg_eq_ok.mpr ⟨hl, storeProgCheck_of_sram h, rfl⟩, run_ok, readA_of_not_late (by simp [hl])]

end program

/-- A store of one program word: the memories apart, the state moved on, and the access remembered with its address (R44, R179). -/
theorem commit_stp (s : State) (ea v : Word) :
    commit s { stp := some (ea, v), prog := some .store } = { s.advance with
      mem := s.mem.sramSet ea.toNat v
      hist := { s.advance.hist with
        lastProg := some .store, stpAddrs := (some ea :: s.hist.stpAddrs).take s.params.stpFetchWindow } } := by
  simp [commit, State.advance, newPc, newNpc, newImmq, newMem, newHist, History.empty]

/-- Settles O40: both forms are one load at the address they form. -/
theorem loadProgram : Obligations.LoadProgram := by
  unfold Obligations.LoadProgram
  intro s ea v hl hread
  constructor
  · intro i himm
    rw [exec_ldpI, absolute_of_immI himm, run_loadProg hl hread]
  · intro hq hx
    rw [exec_ldpX, throughX_of_readIdx hq hx, run_loadProg hl hread]

/-- Settles O42: both forms are one store at the address they form, which sets one cell of the SPRAM. -/
theorem storeProgram : Obligations.StoreProgram := by
  unfold Obligations.StoreProgram
  intro s i ea hl hmap hform
  have hrun : exec i s = run s (storeProg ea s) := by
    rcases hform with ⟨v, rfl, himm⟩ | ⟨rfl, hq, hx⟩
    · rw [exec_stpI, absolute_of_immI himm]
    · rw [exec_stpX, throughX_of_readIdx hq hx]
  rw [run_storeProg hl hmap, commit_stp] at hrun
  exact ⟨_, hrun, cellGet_cellSet_same _ _ _, fun b hb => cellGet_cellSet_other _ _ hb, rfl, rfl, rfl⟩

/-! ## Data memory (R110, R111) -/

section data

variable {s : State} {ea : Word}

theorem dataAddr_of_le (h : s.params.dataWords ≤ ea.toNat) : dataAddr s ea = .error (.badAddress .data ea) := by
  rw [dataAddr, if_neg (Nat.not_lt.mpr h)]

theorem loadData_of_le (hl : s.hist.lastProg ≠ some .load) (h : s.params.dataWords ≤ ea.toNat) :
    loadData ea s = .error (.badAddress .data ea) := by
  rw [loadData, mayWriteA_of_not_late hl, andThen_ok, dataAddr_of_le h, andThen_error]

theorem storeData_of_le (h : s.params.dataWords ≤ ea.toNat) : storeData ea s = .error (.badAddress .data ea) := by
  rw [storeData, dataAddr_of_le h, andThen_error]

theorem run_loadData (hl : s.hist.lastProg ≠ some .load) (h : ea.toNat < s.params.dataWords) :
    run s (loadData ea s) = .next { s.advance with a := readData s ea.toNat } := by
  rw [loadData_eq_ok.mpr ⟨hl, h, rfl⟩, run_ok, commit_writeA]

/-- A store goes on with the one data word changed, whether `A` is its value or free (R178). -/
theorem run_storeData (h : ea.toNat < s.params.dataWords) :
    run s (storeData ea s) = .next (commit s { data := some (ea.toNat, readA s) }) := by
  rw [storeData_eq_ok.mpr ⟨h, rfl⟩, run_ok]

end data

/-- Settles O43: each access stops at the address, before it commits anything. -/
theorem accessOutsideMemoryStops : Obligations.AccessOutsideMemoryStops := by
  unfold Obligations.AccessOutsideMemoryStops
  intro s ea i p r k
  refine ⟨fun hl hm himm => ?_, fun hl hm hq hx => ?_, fun o hl hm himm => ?_, fun o hl hm hq hx => ?_, fun hle himm => ?_,
    fun hle hq hlate hea => ?_⟩
  · rw [exec_ldpI, exec_stpI, absolute_of_immI himm, absolute_of_immI himm, loadProg_of_error hl (readProg_of_absent hm),
      storeProg_of_error hl (storeProgCheck_of_absent hm)]
    exact ⟨rfl, rfl⟩
  · rw [exec_ldpX, exec_stpX, throughX_of_readIdx hq hx, throughX_of_readIdx hq hx, loadProg_of_error hl (readProg_of_absent hm),
      storeProg_of_error hl (storeProgCheck_of_absent hm)]
    exact ⟨rfl, rfl⟩
  · rw [exec_stpI, absolute_of_immI himm, storeProg_of_error hl (storeProgCheck_of_rom hm), run_error]
  · rw [exec_stpX, throughX_of_readIdx hq hx, storeProg_of_error hl (storeProgCheck_of_rom hm), run_error]
  · constructor
    · intro hl
      rw [exec_lddI, absolute_of_immI himm, loadData_of_le hl hle, run_error]
    · rw [exec_stdI, absolute_of_immI himm, storeData_of_le hle, run_error]
  · obtain rfl : indexedEa (s.idx r) k = ea := hea
    constructor
    · intro hl
      rw [exec_indexedForms_ldd, indexed_of_error p hq hlate (loadData_of_le hl hle), run_error]
    · rw [exec_indexedForms_std, indexed_of_error p hq hlate (storeData_of_le hle), run_error]

/-! ## A load after a store (R175) -/

/-- NOP goes on with nothing written, in a delay slot too (R65, R154). -/
theorem exec_nop_of_nil {s : State} (hq : s.immq = []) : exec .nop s = .next s.advance := by
  have hbranch : branch false false .never 0 s = .ok {} := branch_eq_ok.mpr ⟨by simp, by simp, rfl⟩
  have himm : immI s.immq 0 = .ok 0 := by simp [hq, immI]
  rw [exec_nop, branchImm, absolute_of_immI himm, hbranch, run_ok, commit_empty]

/-- Right after a store to it a data word reads as a free value (log 20). -/
theorem readData_of_eq {s : State} {a : Nat} (h : s.hist.dataWritten = some a) :
    readData s a = Config.freeWord s.freeCount .dataAfterWrite := by
  rw [readData, if_pos h]

/-- With one instruction between that writes nothing, a stored data word reads back: its address is no longer remembered (R175). -/
theorem readData_store_advance (s : State) (a : Nat) (v : Word) :
    readData (commit s { data := some (a, v) }).tick.advance.tick a = v :=
  calc readData (commit s { data := some (a, v) }).tick.advance.tick a
      = (s.mem.dataSet a v).dataGet a := readData_of_ne (by simp [State.advance, History.empty])
    _ = v := dataGet_dataSet_same _ _ _

/-- Settles O32: the store leaves its address in the history, where the load finds it; the NOP clears the history and keeps the
memory. -/
theorem storeThenLoad : Obligations.StoreThenLoad := by
  unfold Obligations.StoreThenLoad
  intro s i hq hl hlt
  have himm {u : State} (hu : u.immq = []) : immI u.immq i = .ok (i.signExtend 16) := immI_eq_ok.mpr (.inl ⟨hu, rfl⟩)
  have hload {u : State} (hu : u.immq = []) (hlu : u.hist.lastProg = none) (hp : u.params = s.params) :
      exec (.lddI i) u = .next { u.advance with a := readData u (i.signExtend 16).toNat } := by
    rw [exec_lddI, absolute_of_immI (himm hu), run_loadData (by simp [hlu]) (hp ▸ hlt)]
  have hstore : exec (.stdI i) s = .next (commit s { data := some ((i.signExtend 16).toNat, s.a) }) := by
    rw [exec_stdI, absolute_of_immI (himm hq), run_storeData hlt, readA_of_not_late hl]
  exact ⟨_, hstore, ⟨_, hload rfl rfl rfl, readData_of_eq rfl⟩, _, _, exec_nop_of_nil rfl, hload rfl rfl rfl,
    readData_store_advance s _ _⟩

end Sys2Proof.Machine
end

section
/-! SUPPORT. The encoding, field by field (R51 to R53): the bits of each field code back, and every word has one of the three formats. -/

namespace Sys2Proof

/-! ## Fields -/

theorem dBit_dstOfBit (b : BitVec 1) : dBit (dstOfBit b) = b := by revert b; decide

theorem src2Bits_src2OfBits (b : BitVec 2) : src2Bits (src2OfBits b) = b := by revert b; decide

theorem bankBit_bankOfBit (b : BitVec 1) : bankBit (bankOfBit b) = b := by revert b; decide

theorem condBits_condOfBits (b : BitVec 2) : condBits (condOfBits b) = b := by revert b; decide

theorem src1OfBits_eq_some {b : BitVec 2} {one : Src1} : src1OfBits b = some one ↔ b = src1Bits one := by
  revert b; cases one <;> decide

theorem idxOfBits_eq_some {b : BitVec 2} {q : Idx} : idxOfBits b = some q ↔ b = idxBits q := by revert b; cases q <;> decide

theorem idxOfBits_eq_none {b : BitVec 2} : idxOfBits b = none ↔ b = 0b10#2 ∨ b = 0b11#2 := by revert b; decide

theorem modOfBits_eq_none {b : BitVec 2} : modOfBits b = .none ↔ b = 0b00#2 := by revert b; decide

theorem modOfBits_eq_post {b : BitVec 2} {p : Post} : modOfBits b = .post p ↔ b = postBits p := by revert b; cases p <;> decide

/-- The values of a field, as numbers. -/
theorem exists_ofNat {w : Nat} (x : BitVec w) : ∃ n, n < 2 ^ w ∧ x = BitVec.ofNat w n :=
  ⟨x.toNat, x.isLt, by simp⟩

/-- A two-operand word from the codes of its fields. -/
theorem g2Word_ofBits (op : BitVec 6) (d : BitVec 1) (src : BitVec 2) (r : Gpr) :
    g2Word op (dstOfBit d) (src2OfBits src) r = gWord op d src r := by
  rw [g2Word, dBit_dstOfBit, src2Bits_src2OfBits]

theorem gWord_fields {w : Word} (h : fmtOf w = 0b00#2) : gWord (opcodeOf w) (dOf w) (srcOf w) (gprOf w) = w := by
  rw [gWord, ← h, gprOf, bankBit_bankOfBit]
  unfold opcodeOf fmtOf dOf srcOf bankOf lowOf
  repeat rw [BitVec.extractLsb'_append_extractLsb'_eq_extractLsb' (by rfl)]
  exact BitVec.extractLsb'_eq_self

theorem sWord_fields {w : Word} (h : fmtOf w = 0b01#2) : sWord (opcodeOf w) (modOf w) (selOf w) (lowOf w) = w := by
  rw [sWord, ← h]
  unfold opcodeOf fmtOf modOf selOf lowOf
  repeat rw [BitVec.extractLsb'_append_extractLsb'_eq_extractLsb' (by rfl)]
  exact BitVec.extractLsb'_eq_self

/-- Bit 9 is set in every word outside the other two formats. -/
theorem bit9_of_fmtOf {w : Word} (hg : fmtOf w ≠ 0b00#2) (hs : fmtOf w ≠ 0b01#2) : w.extractLsb' 9 1 = 1#1 := by
  have hbits : w.extractLsb' 9 1 ++ w.extractLsb' 8 1 = fmtOf w := BitVec.extractLsb'_append_extractLsb'_eq_extractLsb' rfl
  rw [← hbits] at hg hs
  generalize w.extractLsb' 9 1 = b, w.extractLsb' 8 1 = c at hg hs
  revert b c
  decide

theorem iWord_fields {w : Word} (hg : fmtOf w ≠ 0b00#2) (hs : fmtOf w ≠ 0b01#2) : iWord (opcodeOf w) (immOf w) = w := by
  rw [iWord, ← bit9_of_fmtOf hg hs]
  unfold opcodeOf immOf
  repeat rw [BitVec.extractLsb'_append_extractLsb'_eq_extractLsb' (by rfl)]
  exact BitVec.extractLsb'_eq_self

/-- Every word is one of the three formats (R50). -/
theorem word_format (w : Word) :
    (∃ op d src r, w = gWord op d src r) ∨ (∃ op mod sel k, w = sWord op mod sel k) ∨ ∃ op i, w = iWord op i := by
  by_cases hg : fmtOf w = 0b00#2
  · exact .inl ⟨_, _, _, _, (gWord_fields hg).symm⟩
  · by_cases hs : fmtOf w = 0b01#2
    · exact .inr (.inl ⟨_, _, _, _, (sWord_fields hs).symm⟩)
    · exact .inr (.inr ⟨_, _, (iWord_fields hg hs).symm⟩)

/-- The six bits of an opcode by class (R57): two ALU classes, the memory and IO class, the Special class, control flow. -/
theorem opcode_class (op : BitVec 6) :
    (∃ f : BitVec 4, op = 0b00#2 ++ f) ∨ (∃ f : BitVec 4, op = 0b01#2 ++ f) ∨ (∃ f : BitVec 3, op = 0b100#3 ++ f) ∨
    (∃ f : BitVec 3, op = 0b101#3 ++ f) ∨ ∃ (lr : BitVec 2) (cc : Cond), op = 0b11#2 ++ lr ++ condBits cc := by
  have hbits : (∃ f : BitVec 4, op = 0b00#2 ++ f) ∨ (∃ f : BitVec 4, op = 0b01#2 ++ f) ∨ (∃ f : BitVec 3, op = 0b100#3 ++ f) ∨
      (∃ f : BitVec 3, op = 0b101#3 ++ f) ∨ ∃ lr cc : BitVec 2, op = 0b11#2 ++ lr ++ cc := by
    revert op
    decide
  obtain h | h | h | h | ⟨lr, cc, rfl⟩ := hbits
  · exact .inl h
  · exact .inr (.inl h)
  · exact .inr (.inr (.inl h))
  · exact .inr (.inr (.inr (.inl h)))
  · exact .inr (.inr (.inr (.inr ⟨lr, condOfBits cc, by rw [condBits_condOfBits]⟩)))

end Sys2Proof
end

section
/-! SUPPORT. What the decoder makes of an opcode of each class (R57 to R60), and which words it accepts: an equation or an `↔` for each
part of it. -/

namespace Sys2Proof

/-! ## The Special class (R60) -/

/-- The lower three opcode bits of a role; a reserved code has none of its own. -/
def SpecialOpc.code (o : SpecialOpc) : SpecialRole → Option (BitVec 3)
  | .movsNone => some o.movsNone
  | .movsWrite => some o.movsWrite
  | .movsRead => some o.movsRead
  | .movsSwap => some o.movsSwap
  | .imm => some o.imm
  | .xcc => some o.xcc
  | .reserved => none

/-- A role is told by its own code, whether or not two roles share one. -/
theorem code_specialRole {o : SpecialOpc} {x : BitVec 3} (h : specialRole o x ≠ .reserved) : o.code (specialRole o x) = some x := by
  unfold specialRole at h ⊢
  split_ifs at h ⊢ <;> simp_all [SpecialOpc.code]

/-- With distinct codes every role is told by its code. -/
theorem specialRole_code {o : SpecialOpc} (ho : o.distinct = true) {role : SpecialRole} {x : BitVec 3} (h : o.code role = some x) :
    specialRole o x = role := by
  simp [SpecialOpc.distinct, SpecialOpc.codes] at ho
  cases role with
  | reserved => simp [SpecialOpc.code] at h
  | _ =>
    obtain rfl := Option.some.inj h
    unfold specialRole
    split_ifs <;> simp_all

section special

variable (o : SpecialOpc) (x : BitVec 3)

theorem decodeI_special (i : BitVec 9) : decodeI o (0b101#3 ++ x) i = decodeSpecialI (specialRole o x) i := by
  obtain ⟨n, hn, rfl⟩ := exists_ofNat x
  interval_cases n <;> rfl

theorem decodeG_special (d : BitVec 1) (src : BitVec 2) (r : Gpr) :
    decodeG o (0b101#3 ++ x) d src r = .error (rejectSpecialG (specialRole o x)) := by
  obtain ⟨n, hn, rfl⟩ := exists_ofNat x
  interval_cases n <;> rfl

theorem decodeS_special (mod sel : BitVec 2) (k : BitVec 4) :
    decodeS o (0b101#3 ++ x) mod sel k = decodeSpecialS (specialRole o x) mod sel k := by
  obtain ⟨n, hn, rfl⟩ := exists_ofNat x
  interval_cases n <;> rfl

end special

/-! ## The fields of a format (R52 to R54, R90) -/

theorem decodeAlu1_eq_ok {c : Dst → Src1 → Gpr → Instr} {d : Dst} {src : BitVec 2} {r : Gpr} {i : Instr} :
    decodeAlu1 c d src r = .ok i ↔ ∃ one, src = src1Bits one ∧ i = c d one r := by
  simp only [← src1OfBits_eq_some]
  cases h : src1OfBits src <;> simp [decodeAlu1, h, eq_comm (a := i)]

theorem decodeProgS_eq_ok {j i : Instr} {mod sel : BitVec 2} {k : BitVec 4} :
    decodeProgS j mod sel k = .ok i ↔ mod = 0b00#2 ∧ sel = 0b00#2 ∧ k = 0 ∧ i = j := by
  unfold decodeProgS
  split_ifs with hres hop hmod
  · simp [hres]
  · simp only [false_iff]
    tauto
  · simp [hmod]
  · simp_all [eq_comm (a := i)]

theorem decodeIndexed_eq_ok {plain : Idx → BitVec 4 → Instr} {post : Post → Idx → BitVec 4 → Instr} {mod sel : BitVec 2} {k : BitVec 4}
    {i : Instr} : decodeIndexed plain post mod sel k = .ok i ↔
      ∃ q, sel = idxBits q ∧ (mod = 0b00#2 ∧ i = plain q k ∨ ∃ p, mod = postBits p ∧ i = post p q k) := by
  simp only [← idxOfBits_eq_some, ← modOfBits_eq_post, ← modOfBits_eq_none]
  cases hm : modOfBits mod <;> cases hs : idxOfBits sel <;> simp [decodeIndexed, hm, hs, eq_comm (a := i)]

theorem decodeMovsNone_eq_ok {mod sel : BitVec 2} {k : BitVec 4} {i : Instr} :
    decodeMovsNone mod sel k = .ok i ↔ mod = 0b00#2 ∧ k = 0 ∧ i = if sel = 0b00#2 then .movsNone else .movsNoneSel sel := by
  unfold decodeMovsNone
  split_ifs <;> simp_all [eq_comm (a := i)]

/-! ## Control flow (R65, R145) -/

theorem decodeI_branch (o : SpecialOpc) (lr : BitVec 2) (cc : Cond) (v : BitVec 9) :
    decodeI o (0b11#2 ++ lr ++ condBits cc) v = .ok (decodeBranchI (lr ++ condBits cc) v) := by
  obtain ⟨n, hn, rfl⟩ := exists_ofNat lr
  cases cc <;> interval_cases n <;> rfl

theorem decodeG_branch (o : SpecialOpc) (lr : BitVec 2) (cc : Cond) (d : BitVec 1) (src : BitVec 2) (r : Gpr) :
    decodeG o (0b11#2 ++ lr ++ condBits cc) d src r = .error (.illegal .formatNotValid) := by
  obtain ⟨n, hn, rfl⟩ := exists_ofNat lr
  cases cc <;> interval_cases n <;> rfl

theorem decodeS_branch (o : SpecialOpc) (lr : BitVec 2) (cc : Cond) (mod sel : BitVec 2) (k : BitVec 4) :
    decodeS o (0b11#2 ++ lr ++ condBits cc) mod sel k = decodeBranchS (lr ++ condBits cc) mod sel k := by
  obtain ⟨n, hn, rfl⟩ := exists_ofNat lr
  cases cc <;> interval_cases n <;> rfl

/-- BA never to 0 is NOP (log 16). -/
theorem decodeBranchI_ba (cc : Cond) (v : BitVec 9) :
    decodeBranchI (0b00#2 ++ condBits cc) v = if cc = .never ∧ v = 0 then .nop else .ba cc v := by
  cases cc <;> rfl

theorem wellFormed_ba {cc : Cond} {v : BitVec 9} : (Instr.ba cc v).wellFormed = true ↔ ¬(cc = .never ∧ v = 0) := by
  cases cc <;> simp [Instr.wellFormed, Instr.spelledOnce]

theorem wellFormed_movsNoneSel {sel : BitVec 2} : (Instr.movsNoneSel sel).wellFormed = true ↔ sel ≠ 0b00#2 := by
  simp [Instr.wellFormed, Instr.spelledOnce]

end Sys2Proof
end

section
/-! A word that decodes is the word of the instruction: for each format, by the classes of the opcode. -/

namespace Sys2Proof

/-- `w` is the word of `i`, spelled the one way the decoder spells it. -/
def Instr.HasWord (i : Instr) (o : SpecialOpc) (w : Word) : Prop := encode o i = w ∧ i.wellFormed = true

/-! ## The Special class -/

section special

variable {o : SpecialOpc} {i : Instr} {role : SpecialRole} {x : BitVec 3}

theorem hasWord_of_decodeMovsNone {mod sel : BitVec 2} {k : BitVec 4} (h : decodeMovsNone mod sel k = .ok i) :
    i.HasWord o (sWord (0b101#3 ++ o.movsNone) mod sel k) := by
  obtain ⟨rfl, rfl, rfl⟩ := decodeMovsNone_eq_ok.mp h
  split_ifs with hsel
  · subst hsel
    exact ⟨rfl, rfl⟩
  · exact ⟨rfl, wellFormed_movsNoneSel.mpr hsel⟩

theorem hasWord_of_decodeMovsRead {mod sel : BitVec 2} {k : BitVec 4} (h : decodeMovsRead mod sel k = .ok i) :
    i.HasWord o (sWord (0b101#3 ++ o.movsRead) mod sel k) := by
  unfold decodeMovsRead at h
  split at h
  · cases h
  · cases h
  next hm hs =>
    obtain rfl := modOfBits_eq_none.mp hm
    split_ifs at h with hk hsel <;> cases h <;> obtain rfl := not_not.mp hk
    · subst hsel
      exact ⟨rfl, rfl⟩
    · obtain rfl := (idxOfBits_eq_none.mp hs).resolve_left hsel
      exact ⟨rfl, rfl⟩
  next q hm hs =>
    obtain rfl := modOfBits_eq_none.mp hm
    obtain rfl := idxOfBits_eq_some.mp hs
    split_ifs at h with hk
    cases h
    obtain rfl := not_not.mp hk
    exact ⟨rfl, rfl⟩
  next p q hm hs =>
    obtain rfl := modOfBits_eq_post.mp hm
    obtain rfl := idxOfBits_eq_some.mp hs
    split_ifs at h with hk
    cases h
    obtain rfl := not_not.mp hk
    exact ⟨rfl, rfl⟩

theorem hasWord_of_decodeMovsWrite {code : BitVec 3} {plain : Idx → Instr} {window : BitVec 4 → Instr}
    (hp : ∀ q, (plain q).HasWord o (sWord (0b101#3 ++ code) 0b00#2 (idxBits q) 0))
    (hw : ∀ k, (window k).HasWord o (sWord (0b101#3 ++ code) 0b00#2 0b10#2 k))
    {mod sel : BitVec 2} {k : BitVec 4} (h : decodeMovsWrite plain window mod sel k = .ok i) :
    i.HasWord o (sWord (0b101#3 ++ code) mod sel k) := by
  unfold decodeMovsWrite at h
  split at h
  · cases h
  · cases h
  next hm hs =>
    obtain rfl := modOfBits_eq_none.mp hm
    split_ifs at h with hsel
    cases h
    subst hsel
    exact hw k
  · cases h
  next q hm hs =>
    obtain rfl := modOfBits_eq_none.mp hm
    obtain rfl := idxOfBits_eq_some.mp hs
    split_ifs at h with hk
    cases h
    obtain rfl := not_not.mp hk
    exact hp q

theorem hasWord_of_decodeSpecialI {v : BitVec 9} (hx : role ≠ .reserved → o.code role = some x) (h : decodeSpecialI role v = .ok i) :
    i.HasWord o (iWord (0b101#3 ++ x) v) := by
  cases role with
  | movsRead | imm | xcc =>
    obtain rfl := Option.some.inj (hx nofun)
    cases h
    exact ⟨rfl, rfl⟩
  | movsNone | movsWrite | movsSwap | reserved => cases h

theorem hasWord_of_decodeSpecialS {mod sel : BitVec 2} {k : BitVec 4} (hx : role ≠ .reserved → o.code role = some x)
    (h : decodeSpecialS role mod sel k = .ok i) : i.HasWord o (sWord (0b101#3 ++ x) mod sel k) := by
  cases role with
  | movsNone =>
    obtain rfl := Option.some.inj (hx nofun)
    exact hasWord_of_decodeMovsNone h
  | movsRead =>
    obtain rfl := Option.some.inj (hx nofun)
    exact hasWord_of_decodeMovsRead h
  | movsWrite | movsSwap =>
    obtain rfl := Option.some.inj (hx nofun)
    exact hasWord_of_decodeMovsWrite (fun _ => ⟨rfl, rfl⟩) (fun _ => ⟨rfl, rfl⟩) h
  | imm | xcc | reserved => cases h

end special

/-! ## Control flow -/

theorem hasWord_of_decodeBranchI (o : SpecialOpc) (lr : BitVec 2) (cc : Cond) (v : BitVec 9) :
    (decodeBranchI (lr ++ condBits cc) v).HasWord o (iWord (0b11#2 ++ lr ++ condBits cc) v) := by
  obtain ⟨n, hn, rfl⟩ := exists_ofNat lr
  obtain rfl | hpos : n = 0 ∨ 1 ≤ n := by omega
  · rw [decodeBranchI_ba]
    split_ifs with h
    · obtain ⟨rfl, rfl⟩ := h
      exact ⟨rfl, rfl⟩
    · exact ⟨rfl, wellFormed_ba.mpr h⟩
  · interval_cases n <;> cases cc <;> exact ⟨rfl, rfl⟩

theorem hasWord_of_decodeBranchS {o : SpecialOpc} {lr : BitVec 2} {cc : Cond} {mod sel : BitVec 2} {k : BitVec 4} {i : Instr}
    (h : decodeBranchS (lr ++ condBits cc) mod sel k = .ok i) : i.HasWord o (sWord (0b11#2 ++ lr ++ condBits cc) mod sel k) := by
  unfold decodeBranchS at h
  split_ifs at h with hz
  obtain ⟨rfl, rfl, rfl⟩ : mod = 0b00#2 ∧ sel = 0b00#2 ∧ k = 0 := by simpa using hz
  obtain ⟨n, hn, rfl⟩ := exists_ofNat lr
  cases cc <;> interval_cases n <;> cases h <;> exact ⟨rfl, rfl⟩

/-! ## The formats -/

section formats

variable {o : SpecialOpc} {op : BitVec 6} {i : Instr}

theorem hasWord_of_decodeAlu1 {c : Dst → Src1 → Gpr → Instr} (hc : ∀ d one r, (c d one r).HasWord o (g1Word op d one r))
    {d : BitVec 1} {src : BitVec 2} {r : Gpr} (h : decodeAlu1 c (dstOfBit d) src r = .ok i) : i.HasWord o (gWord op d src r) := by
  obtain ⟨one, rfl, rfl⟩ := decodeAlu1_eq_ok.mp h
  have hword := hc (dstOfBit d) one r
  rwa [g1Word, dBit_dstOfBit] at hword

theorem hasWord_of_decodeIndexed {plain : Idx → BitVec 4 → Instr} {post : Post → Idx → BitVec 4 → Instr} {mod sel : BitVec 2}
    {k : BitVec 4} (hplain : ∀ q k, (plain q k).HasWord o (sWord op 0b00#2 (idxBits q) k))
    (hpost : ∀ p q k, (post p q k).HasWord o (sWord op (postBits p) (idxBits q) k)) (h : decodeIndexed plain post mod sel k = .ok i) :
    i.HasWord o (sWord op mod sel k) := by
  obtain ⟨q, rfl, ⟨rfl, rfl⟩ | ⟨p, rfl, rfl⟩⟩ := decodeIndexed_eq_ok.mp h
  · exact hplain q k
  · exact hpost p q k

theorem hasWord_of_decodeI {v : BitVec 9} (h : decodeI o op v = .ok i) : i.HasWord o (iWord op v) := by
  obtain ⟨f, rfl⟩ | ⟨f, rfl⟩ | ⟨f, rfl⟩ | ⟨x, rfl⟩ | ⟨lr, cc, rfl⟩ := opcode_class op
  · obtain ⟨n, hn, rfl⟩ := exists_ofNat f
    interval_cases n <;> cases h <;> exact ⟨rfl, rfl⟩
  · obtain ⟨n, hn, rfl⟩ := exists_ofNat f
    interval_cases n <;> cases h
  · obtain ⟨n, hn, rfl⟩ := exists_ofNat f
    interval_cases n <;> cases h <;> exact ⟨rfl, rfl⟩
  · rw [decodeI_special] at h
    exact hasWord_of_decodeSpecialI code_specialRole h
  · rw [decodeI_branch] at h
    cases h
    exact hasWord_of_decodeBranchI o lr cc v

theorem hasWord_of_decodeG {d : BitVec 1} {src : BitVec 2} {r : Gpr} (h : decodeG o op d src r = .ok i) :
    i.HasWord o (gWord op d src r) := by
  obtain ⟨f, rfl⟩ | ⟨f, rfl⟩ | ⟨f, rfl⟩ | ⟨x, rfl⟩ | ⟨lr, cc, rfl⟩ := opcode_class op
  · obtain ⟨n, hn, rfl⟩ := exists_ofNat f
    interval_cases n <;> cases h <;> exact ⟨g2Word_ofBits _ d src r, rfl⟩
  · obtain ⟨n, hn, rfl⟩ := exists_ofNat f
    -- the six opcodes in between are reserved (R61 item 1)
    obtain hlow | ⟨hge, hlt⟩ | hhigh : n < 2 ∨ (2 ≤ n ∧ n < 8) ∨ 8 ≤ n := by omega
    · interval_cases n <;> exact hasWord_of_decodeAlu1 (fun _ _ _ => ⟨rfl, rfl⟩) h
    · interval_cases n <;> cases h
    · interval_cases n <;> exact hasWord_of_decodeAlu1 (fun _ _ _ => ⟨rfl, rfl⟩) h
  · obtain ⟨n, hn, rfl⟩ := exists_ofNat f
    -- of the memory and IO class only MOV is G-fmt (R112, R113)
    obtain hlow | ⟨hge, hlt⟩ | hhigh : n < 2 ∨ (2 ≤ n ∧ n < 4) ∨ 4 ≤ n := by omega
    · interval_cases n <;> cases h
    · interval_cases n <;> obtain ⟨⟨rfl, rfl⟩, h⟩ | ⟨-, h⟩ := ite_eq_iff.mp h <;> cases h <;> exact ⟨rfl, rfl⟩
    · interval_cases n <;> cases h
  · rw [decodeG_special] at h
    cases h
  · rw [decodeG_branch] at h
    cases h

theorem hasWord_of_decodeS {mod sel : BitVec 2} {k : BitVec 4} (h : decodeS o op mod sel k = .ok i) :
    i.HasWord o (sWord op mod sel k) := by
  obtain ⟨f, rfl⟩ | ⟨f, rfl⟩ | ⟨f, rfl⟩ | ⟨x, rfl⟩ | ⟨lr, cc, rfl⟩ := opcode_class op
  · obtain ⟨n, hn, rfl⟩ := exists_ofNat f
    interval_cases n <;> cases h
  · obtain ⟨n, hn, rfl⟩ := exists_ofNat f
    interval_cases n <;> cases h
  · obtain ⟨n, hn, rfl⟩ := exists_ofNat f
    -- LDP and STP, then the indexed accesses, then a reserved opcode (R124)
    obtain hprog | ⟨hge, hlt⟩ | rfl : n < 2 ∨ (2 ≤ n ∧ n < 7) ∨ n = 7 := by omega
    · interval_cases n <;> obtain ⟨rfl, rfl, rfl, rfl⟩ := decodeProgS_eq_ok.mp h <;> exact ⟨rfl, rfl⟩
    · interval_cases n <;> exact hasWord_of_decodeIndexed (fun _ _ => ⟨rfl, rfl⟩) (fun _ _ _ => ⟨rfl, rfl⟩) h
    · cases h
  · rw [decodeS_special] at h
    exact hasWord_of_decodeSpecialS code_specialRole h
  · rw [decodeS_branch] at h
    exact hasWord_of_decodeBranchS h

end formats

/-- Settles O2: every word is of one of the formats, and each format's decoder drops no field. -/
theorem encodeOfDecode : Obligations.EncodeOfDecode := by
  unfold Obligations.EncodeOfDecode
  intro o w i h
  obtain ⟨op, d, src, r, rfl⟩ | ⟨op, mod, sel, k, rfl⟩ | ⟨op, v, rfl⟩ := word_format w
  · rw [decode_gWord] at h
    exact hasWord_of_decodeG h
  · rw [decode_sWord] at h
    exact hasWord_of_decodeS h
  · rw [decode_iWord] at h
    exact hasWord_of_decodeI h

end Sys2Proof
end

section
/-! The decoder on the word of each instruction: by the fields of its format, and in the Special class by its role's code. -/

namespace Sys2Proof

section formats

variable {o : SpecialOpc} {op : BitVec 6}

/-- A two-operand word, where the decoder takes the opcode for the constructor `c`. -/
theorem decode_g2Word {c : Dst → Src2 → Gpr → Instr}
    (hc : ∀ d src r, decodeG o op d src r = .ok (c (dstOfBit d) (src2OfBits src) r)) (d : Dst) (src : Src2) (r : Gpr) :
    decode o (g2Word op d src r) = .ok (c d src r) := by
  rw [g2Word, decode_gWord, hc, dstOfBit_dBit, src2OfBits_src2Bits]

/-- A one-operand word. -/
theorem decode_g1Word {c : Dst → Src1 → Gpr → Instr} (hc : ∀ d src r, decodeG o op d src r = decodeAlu1 c (dstOfBit d) src r)
    (d : Dst) (src : Src1) (r : Gpr) : decode o (g1Word op d src r) = .ok (c d src r) := by
  rw [g1Word, decode_gWord, hc, dstOfBit_dBit]
  exact decodeAlu1_eq_ok.mpr ⟨src, rfl, rfl⟩

section indexed

variable {plain : Idx → BitVec 4 → Instr} {post : Post → Idx → BitVec 4 → Instr}

/-- An indexed access without post-modification. -/
theorem decode_sWord_plain (hc : ∀ mod sel k, decodeS o op mod sel k = decodeIndexed plain post mod sel k) (q : Idx) (k : BitVec 4) :
    decode o (sWord op 0b00#2 (idxBits q) k) = .ok (plain q k) := by
  rw [decode_sWord, hc]
  exact decodeIndexed_eq_ok.mpr ⟨q, rfl, .inl ⟨rfl, rfl⟩⟩

/-- An indexed access with post-modification. -/
theorem decode_sWord_post (hc : ∀ mod sel k, decodeS o op mod sel k = decodeIndexed plain post mod sel k) (p : Post) (q : Idx)
    (k : BitVec 4) : decode o (sWord op (postBits p) (idxBits q) k) = .ok (post p q k) := by
  rw [decode_sWord, hc]
  exact decodeIndexed_eq_ok.mpr ⟨q, rfl, .inr ⟨p, rfl, rfl⟩⟩

end indexed

theorem decode_branchWordI (lr : BitVec 2) (cc : Cond) (v : BitVec 9) :
    decode o (branchWordI lr cc v) = .ok (decodeBranchI (lr ++ condBits cc) v) := by
  rw [branchWordI, decode_iWord, decodeI_branch]

theorem decode_branchWordS (lr : BitVec 2) (cc : Cond) :
    decode o (branchWordS lr cc) = decodeBranchS (lr ++ condBits cc) 0b00#2 0b00#2 0b0000#4 := by
  rw [branchWordS, decode_sWord, decodeS_branch]

end formats

/-- With distinct codes, an I-fmt word of the Special class is decoded by its role (R60). -/
theorem decode_special_iWord {o : SpecialOpc} (ho : o.distinct = true) {role : SpecialRole} {x : BitVec 3} (hx : o.code role = some x)
    (v : BitVec 9) : decode o (iWord (0b101#3 ++ x) v) = decodeSpecialI role v := by
  rw [decode_iWord, decodeI_special, specialRole_code ho hx]

/-- With distinct codes, an S-fmt word of the Special class is decoded by its role (R60). -/
theorem decode_special_sWord {o : SpecialOpc} (ho : o.distinct = true) {role : SpecialRole} {x : BitVec 3} (hx : o.code role = some x)
    (mod sel : BitVec 2) (k : BitVec 4) : decode o (sWord (0b101#3 ++ x) mod sel k) = decodeSpecialS role mod sel k := by
  rw [decode_sWord, decodeS_special, specialRole_code ho hx]

/-- Settles O1: the format's fields read back as written, and the opcode tells the constructor. -/
theorem decodeOfEncode : Obligations.DecodeOfEncode := by
  unfold Obligations.DecodeOfEncode
  intro o i ho hi
  cases i with
  | addNwI v | addcyNwI v | cmpI v | subcyNwI v | testI v | andnNwI v | orNwI v | xorNwI v
  | addI v | addcyI v | subI v | subcyI v | andI v | andnI v | orI v | xorI v
  | ldpI v | stpI v | lddI v | stdI v | iorrI v | iordI v | iowrI v => exact (decode_iWord o _ v).trans rfl
  | addNwG d src r | addcyNwG d src r | cmpG d src r | subcyNwG d src r | testG d src r | andnNwG d src r | orNwG d src r
  | xorNwG d src r | addG d src r | addcyG d src r | subG d src r | subcyG d src r | andG d src r | andnG d src r | orG d src r
  | xorG d src r => exact decode_g2Word (fun _ _ _ => rfl) d src r
  | inc d src r | dec d src r | rol d src r | sl0 d src r | sl1 d src r | slc d src r | ror d src r | sr0 d src r | sra d src r
  | src d src r => exact decode_g1Word (fun _ _ _ => rfl) d src r
  | movAReg r | movRegA r => exact (decode_gWord o _ _ _ r).trans rfl
  | ldpX | stpX => exact (decode_sWord o _ _ _ _).trans rfl
  | lddS q k | stdS q k | iorrS q k | iordS q k | iowrS q k => exact decode_sWord_plain (fun _ _ _ => rfl) q k
  | lddSPost p q k | stdSPost p q k | iorrSPost p q k | iordSPost p q k | iowrSPost p q k =>
    exact decode_sWord_post (fun _ _ _ => rfl) p q k
  | movsRead q => exact (decode_special_sWord ho (role := .movsRead) rfl _ _ _).trans (by cases q <;> rfl)
  | movsReadPost p q => exact (decode_special_sWord ho (role := .movsRead) rfl _ _ _).trans (by cases p <;> cases q <;> rfl)
  | movsReadMcsr | movsReadBswap => exact (decode_special_sWord ho (role := .movsRead) rfl _ _ _).trans rfl
  | movsWrite q => exact (decode_special_sWord ho (role := .movsWrite) rfl _ _ _).trans (by cases q <;> rfl)
  | win k => exact (decode_special_sWord ho (role := .movsWrite) rfl _ _ k).trans rfl
  | movsSwap q => exact (decode_special_sWord ho (role := .movsSwap) rfl _ _ _).trans (by cases q <;> rfl)
  | movsSwapMcsr k => exact (decode_special_sWord ho (role := .movsSwap) rfl _ _ k).trans rfl
  | movsNone => exact (decode_special_sWord ho (role := .movsNone) rfl _ _ _).trans rfl
  | movsNoneSel sel =>
    exact (decode_special_sWord ho (role := .movsNone) rfl _ _ _).trans
      (decodeMovsNone_eq_ok.mpr ⟨rfl, rfl, (if_neg (wellFormed_movsNoneSel.mp hi)).symm⟩)
  | ldi v => exact decode_special_iWord ho (role := .movsRead) rfl v
  | imm v => exact decode_special_iWord ho (role := .imm) rfl v
  | xcc v => exact decode_special_iWord ho (role := .xcc) rfl v
  | ba cc v => rw [encode, decode_branchWordI, decodeBranchI_ba, if_neg (wellFormed_ba.mp hi)]
  | br cc v | bal cc v | brl cc v => exact (decode_branchWordI _ cc v).trans (by cases cc <;> rfl)
  | bax cc | brx cc | balx cc | brlx cc => exact (decode_branchWordS _ cc).trans (by cases cc <;> rfl)
  | nop => exact (decode_branchWordI 0b00#2 .never 0).trans rfl

end Sys2Proof
end

section
/-! SUPPORT. The state after an effect that holds a data store or an IO event beside its registers (R7, R175, R120). -/

namespace Sys2Proof.Machine

/-- A data store beside an effect that stores nothing: the data word, the address remembered, and for the rest that effect. -/
theorem storedData_commit_data {s : State} {e : Effect} (hp : e.stp = none) (a : Nat) (v : Word) :
    StoredData s (commit s e) (commit s { e with data := some (a, v) }) a v := by
  have hmem : (commit s { e with data := some (a, v) }).mem = s.mem.dataSet a v := by simp [newMem, hp]
  refine ⟨?_, fun b hb => ?_, ?_, ?_, rfl⟩
  · rw [hmem, dataGet_dataSet_same]
  · rw [hmem, dataGet_dataSet_other s.mem v hb]
  · rw [hmem, dataSet_sram]
  · rw [hmem, dataSet_rom]

/-- An IO event goes to the end of the record, beside all else that the effect holds (R120). -/
theorem commit_io {s : State} {e : Effect} (ev : IoEvent) :
    commit s { e with io := some ev } = { commit s e with ioLog := s.ioLog ++ [ev] } := rfl

/-- A write of the flags alone. -/
theorem commit_flags_only (s : State) (f : Flags) : commit s { flags := some f } = { s.advance with flags := f } :=
  commit_registers s none none none (some f) none none

/-- A write of `A` and of the flags. -/
theorem commit_writeA_flags (s : State) (v : Word) (f : Flags) :
    commit s { a := some v, flags := some f } = { s.advance with a := v, flags := f } :=
  commit_registers s (some v) none none (some f) none none

/-- A post-modification of the index register `q`, if there is one (R54). -/
theorem commit_postModify (s : State) (p : Option Post) (q : Idx) : commit s (postModify p q (s.idx q) {}) = s.postModified p q := by
  cases p with
  | none => exact commit_empty s
  | some p =>
    cases q with
    | x => exact commit_registers s none (some (postStep p s.x)) none none none none
    | y => exact commit_registers s none none (some (postStep p s.y)) none none none

/-- A post-modification leaves the rest of the effect as it is. -/
theorem postModify_data (p : Option Post) (q : Idx) (v : Word) (d : Nat × Word) :
    postModify p q v { data := some d } = { postModify p q v {} with data := some d } := by
  cases p with
  | none => rfl
  | some p => cases q <;> rfl

theorem postModify_io (p : Option Post) (q : Idx) (v : Word) (e : Effect) (ev : IoEvent) :
    postModify p q v { e with io := some ev } = { postModify p q v e with io := some ev } := by
  cases p with
  | none => rfl
  | some p => cases q <;> rfl

theorem postModify_stp (p : Option Post) (q : Idx) (v : Word) : (postModify p q v {}).stp = none := by
  cases p with
  | none => rfl
  | some p => cases q <;> rfl

/-- An indexed access goes on with the effect of its access and the post-modification (R54). -/
theorem indexed_of_ok {s : State} {r : Idx} {k : BitVec 4} {ea : Word} {f : Word → Except Fault Effect} {e : Effect} (p : Option Post)
    (hq : s.immq = []) (hl : idxLate s r = false) (hea : s.idx r + k.zeroExtend 16 = ea) (hf : f ea = .ok e) :
    indexed s p r k f = .ok (postModify p r (s.idx r) e) := by
  subst hea
  exact indexed_eq_ok.mpr ⟨hq, hl, e, hf, rfl⟩

end Sys2Proof.Machine
end

section
/-! LDD and STD (R110, R111): the load and the store at the address formed, absolute or indexed. -/

namespace Sys2Proof.DataAccess

open Machine

/-- Settles O45: both forms load the same data word, the indexed ones with their post-modification beside it. -/
theorem loadData : Obligations.LoadData := by
  unfold Obligations.LoadData
  intro s ea hlt
  refine ⟨fun i hl himm => ?_, fun p r k hl hq hlate hea => ?_⟩
  · rw [exec_lddI, absolute_of_immI himm, run_loadData hl hlt]
  · rw [exec_indexedForms_ldd, indexed_of_ok p hq hlate hea (loadData_eq_ok.mpr ⟨hl, hlt, rfl⟩), run_ok, commit_postModify_writeA]

/-- Settles O46: both forms store the same data word, the indexed ones with their post-modification beside it. -/
theorem storeData : Obligations.StoreData := by
  unfold Obligations.StoreData
  intro s ea hlt
  refine ⟨fun i himm => ?_, fun p r k hq hlate hea => ?_⟩
  · refine ⟨_, ?_, storedData_commit s ea.toNat (readA s)⟩
    rw [exec_stdI, absolute_of_immI himm, run_storeData hlt]
  · have hstored := storedData_commit_data (postModify_stp p r (s.idx r)) ea.toNat (readA s) (s := s)
    rw [commit_postModify, ← postModify_data] at hstored
    refine ⟨_, ?_, hstored⟩
    rw [exec_indexedForms_std, indexed_of_ok p hq hlate hea (storeData_eq_ok.mpr ⟨hlt, rfl⟩), run_ok]

end Sys2Proof.DataAccess
end

section
/-! IO (R120 to R123): a request when the agent is ready and the stop when it is not, and the collection of a word. -/

namespace Sys2Proof.Machine

theorem exec_indexedForms_iorr (p : Option Post) (r : Idx) (k : BitVec 4) (s : State) :
    exec (indexedForms .iorrS .iorrSPost p r k) s = run s (indexed s p r k fun ea => ioReadRequest ea s) := by
  cases p <;> rfl

theorem exec_indexedForms_iord (p : Option Post) (r : Idx) (k : BitVec 4) (s : State) :
    exec (indexedForms .iordS .iordSPost p r k) s = run s (indexed s p r k fun ea => ioReadData ea s) := by
  cases p <;> rfl

theorem exec_indexedForms_iowr (p : Option Post) (r : Idx) (k : BitVec 4) (s : State) :
    exec (indexedForms .iowrS .iowrSPost p r k) s = run s (indexed s p r k fun ea => ioWriteRequest ea s) := by
  cases p <;> rfl

section requests

variable {s : State}

theorem ioReady_of_ready (h : s.ioReqReady = true) : ioReady s = .ok () := ioReady_eq_ok.mpr h

theorem ioReadRequest_of_ready (h : s.ioReqReady = true) (ea : Word) : ioReadRequest ea s = .ok { io := some (.readRequest ea) } := by
  rw [ioReadRequest, ioReady_of_ready h, andThen_ok]

theorem ioWriteRequest_of_ready (h : s.ioReqReady = true) (ea : Word) :
    ioWriteRequest ea s = .ok { io := some (.writeRequest ea (readA s)) } := by
  rw [ioWriteRequest, ioReady_of_ready h, andThen_ok]

theorem ioReady_of_not (h : s.ioReqReady = false) : ioReady s = .error (.unspecified .ioNotReady) := by
  rw [ioReady, h]
  rfl

theorem ioReadRequest_of_not (h : s.ioReqReady = false) (ea : Word) : ioReadRequest ea s = .error (.unspecified .ioNotReady) := by
  rw [ioReadRequest, ioReady_of_not h, andThen_error]

theorem ioWriteRequest_of_not (h : s.ioReqReady = false) (ea : Word) : ioWriteRequest ea s = .error (.unspecified .ioNotReady) := by
  rw [ioWriteRequest, ioReady_of_not h, andThen_error]

/-- The collection answers the word as `A` and as the event (R122). -/
theorem ioReadData_of_word {v : Word} (hl : s.hist.lastProg ≠ some .load) (hword : ioWord s = v) (ea : Word) :
    ioReadData ea s = .ok { a := some v, io := some (.readData ea v) } := by
  subst hword
  exact ioReadData_eq_ok.mpr ⟨hl, rfl⟩

end requests

/-- An IO event alone. -/
theorem commit_event (s : State) (ev : IoEvent) : commit s { io := some ev } = { s.advance with ioLog := s.ioLog ++ [ev] } := by
  rw [commit_io (e := {}), commit_empty]

/-- An IO event with the post-modification of the index register `q`, if there is one (R54). -/
theorem commit_postModify_event (s : State) (p : Option Post) (q : Idx) (ev : IoEvent) :
    commit s (postModify p q (s.idx q) { io := some ev }) = { s.postModified p q with ioLog := s.ioLog ++ [ev] } := by
  rw [postModify_io p q _ {} ev, commit_io, commit_postModify]

end Sys2Proof.Machine

namespace Sys2Proof.IoAccess

open Machine

/-- Settles O48: each form hands over the request at the address formed, or stops where the request does. -/
theorem ioRequests : Obligations.IoRequests := by
  unfold Obligations.IoRequests
  intro s ea
  refine ⟨fun h => ⟨fun i himm => ?_, fun p r k hq hlate hea => ?_⟩, fun h => ⟨fun i himm => ?_, fun p r k hq hlate => ?_⟩⟩
  · rw [exec_iorrI, exec_iowrI, absolute_of_immI himm, absolute_of_immI himm, ioReadRequest_of_ready h, ioWriteRequest_of_ready h,
      run_ok, run_ok, commit_event, commit_event]
    exact ⟨rfl, rfl⟩
  · rw [exec_indexedForms_iorr, exec_indexedForms_iowr, indexed_of_ok p hq hlate hea (ioReadRequest_of_ready h ea),
      indexed_of_ok p hq hlate hea (ioWriteRequest_of_ready h ea), run_ok, run_ok, commit_postModify_event, commit_postModify_event]
    exact ⟨rfl, rfl⟩
  · rw [exec_iorrI, exec_iowrI, absolute_of_immI himm, absolute_of_immI himm, ioReadRequest_of_not h, ioWriteRequest_of_not h]
    exact ⟨rfl, rfl⟩
  · rw [exec_indexedForms_iorr, exec_indexedForms_iowr, indexed_of_error p hq hlate (ioReadRequest_of_not h _),
      indexed_of_error p hq hlate (ioWriteRequest_of_not h _)]
    exact ⟨rfl, rfl⟩

/-- Settles O49: each form commits the word, as `A` and as the event. -/
theorem ioReadData : Obligations.IoReadData := by
  unfold Obligations.IoReadData
  intro s ea v hl hready hfree
  have hword : ioWord s = v := by
    cases h : s.ioReadReady with
    | true => simp [ioWord, h, hready h]
    | false => simp [ioWord, h, hfree h]
  have hread := ioReadData_of_word hl hword ea
  refine ⟨fun i himm => ?_, fun p r k hq hlate hea => ?_⟩
  · rw [exec_iordI, absolute_of_immI himm, hread, run_ok, commit_io (e := { a := some v }), commit_writeA]
  · rw [exec_indexedForms_iord, indexed_of_ok p hq hlate hea hread, run_ok, postModify_io p r _ { a := some v }, commit_io,
      commit_postModify_writeA]

end Sys2Proof.IoAccess
end

section
/-! The two-operand ALU in G-fmt (R70 to R83): one proof over the eight functions, then the result of each. -/

namespace Sys2Proof.Machine

/-! ## Results and flags -/

section results

variable (a b : Word) (s : State)

theorem alu2At_add : alu2At .add a b s = exactAdd a b 0 := arith_eq_exactAdd a b false

theorem alu2At_addcy : alu2At .addcy a b s = exactAdd a b s.flags.c.toNat := arith_eq_exactAdd a b s.flags.c

theorem alu2At_sub : alu2At .sub a b s = exactSub a b 0 := arith_not_eq_exactSub a b true

theorem alu2At_subcy : alu2At .subcy a b s = exactSub a b (1 - s.flags.c.toNat) := arith_not_eq_exactSub a b s.flags.c

/-- A logic operation leaves the free bits in C and V (R72). -/
theorem logic_eq_openFlags (r : Word) :
    logic r (Config.freeBit s.freeCount .carry) (Config.freeBit s.freeCount .overflow) =
      (r, openFlags s r (Config.freeBit s.freeCount .carry)) := rfl

end results

/-! ## The instruction -/

section instruction

variable {s : State} {fn : Alu2Fn} {src : Src2} {r : Gpr} {v a b : Word}

/-- With the result not written, only the flags change (R81). -/
theorem run_alu2Gpr_noWrite (hi : imm2 src s.immq = .ok v) (ho : operands2 src r v s = .ok (a, b)) (d : Dst) :
    run s (alu2Gpr fn false d src r s) = .next { s.advance with flags := (alu2At fn a b s).2 } := by
  have heffect : alu2Gpr fn false d src r s = .ok { flags := some (alu2At fn a b s).2 } :=
    alu2Gpr_eq_ok.mpr ⟨v, (a, b), {}, hi, by simp, ho, rfl, rfl⟩
  rw [heffect, run_ok, commit_flags_only]

/-- With `d` = 0 the result goes to `A`, not right after LDP (R55, R178). -/
theorem run_alu2Gpr_toA (hi : imm2 src s.immq = .ok v) (ho : operands2 src r v s = .ok (a, b)) (hl : s.hist.lastProg ≠ some .load) :
    run s (alu2Gpr fn true .a src r s) = .next { s.advance with a := (alu2At fn a b s).1, flags := (alu2At fn a b s).2 } := by
  have heffect : alu2Gpr fn true .a src r s = .ok { a := some (alu2At fn a b s).1, flags := some (alu2At fn a b s).2 } :=
    alu2Gpr_eq_ok.mpr ⟨v, (a, b), _, hi, fun _ _ => hl, ho, rfl, rfl⟩
  rw [heffect, run_ok, commit_writeA_flags]

/-- With `d` = 1 the result goes to the data word of the GPR (R55). -/
theorem run_alu2Gpr_toGpr (hi : imm2 src s.immq = .ok v) (ho : operands2 src r v s = .ok (a, b)) {g : Nat} (hg : gprAddr s r = .ok g) :
    ∃ t, run s (alu2Gpr fn true .gpr src r s) = .next t ∧
      StoredData s { s.advance with flags := (alu2At fn a b s).2 } t g (alu2At fn a b s).1 := by
  have hdst : writeDst .gpr r (alu2At fn a b s).1 s = .ok { data := some (g, (alu2At fn a b s).1) } :=
    writeDst_eq_ok.mpr (.inr ⟨rfl, g, hg, rfl⟩)
  have heffect : alu2Gpr fn true .gpr src r s =
      .ok { data := some (g, (alu2At fn a b s).1), flags := some (alu2At fn a b s).2 } :=
    alu2Gpr_eq_ok.mpr ⟨v, (a, b), _, hi, by simp, ho, hdst, rfl⟩
  have hstored := storedData_commit_data (s := s) (e := { flags := some (alu2At fn a b s).2 }) rfl g (alu2At fn a b s).1
  rw [commit_flags_only] at hstored
  exact ⟨_, by rw [heffect, run_ok], hstored⟩

/-- The three G-fmt forms of a function, of which `res` are the result and the flags: `nw` writes no result, `k` writes it. -/
theorem exec_gpr_forms {k nw : Dst → Src2 → Gpr → Instr} (hnw : ∀ d src r, exec (nw d src r) s = run s (alu2Gpr fn false d src r s))
    (hk : ∀ d src r, exec (k d src r) s = run s (alu2Gpr fn true d src r s)) (hi : imm2 src s.immq = .ok v)
    (ho : operands2 src r v s = .ok (a, b)) {res : Word × Flags} (hres : alu2At fn a b s = res) (d : Dst) :
    exec (nw d src r) s = .next { s.advance with flags := res.2 } ∧
    (s.hist.lastProg ≠ some .load → exec (k .a src r) s = .next { s.advance with a := res.1, flags := res.2 }) ∧
    ∀ g, gprAddr s r = .ok g →
      ∃ t, exec (k .gpr src r) s = .next t ∧ StoredData s { s.advance with flags := res.2 } t g res.1 := by
  subst hres
  simp only [hnw, hk]
  exact ⟨run_alu2Gpr_noWrite hi ho d, run_alu2Gpr_toA hi ho, fun _ hg => run_alu2Gpr_toGpr hi ho hg⟩

end instruction

/-- Settles O35: each pair of constructors runs one function, whose sum or difference is the exact one. -/
theorem arithmeticGpr : Obligations.ArithmeticGpr := by
  unfold Obligations.ArithmeticGpr
  intro s d src r v a b k nw f hmem hi ho
  simp only [List.mem_cons, List.not_mem_nil, or_false, Prod.mk.injEq] at hmem
  obtain ⟨rfl, rfl, rfl⟩ | ⟨rfl, rfl, rfl⟩ | ⟨rfl, rfl, rfl⟩ | ⟨rfl, rfl, rfl⟩ := hmem
  · exact exec_gpr_forms (fn := .add) (fun _ _ _ => rfl) (fun _ _ _ => rfl) hi ho (alu2At_add a b s) d
  · exact exec_gpr_forms (fn := .addcy) (fun _ _ _ => rfl) (fun _ _ _ => rfl) hi ho (alu2At_addcy a b s) d
  · exact exec_gpr_forms (fn := .sub) (fun _ _ _ => rfl) (fun _ _ _ => rfl) hi ho (alu2At_sub a b s) d
  · exact exec_gpr_forms (fn := .subcy) (fun _ _ _ => rfl) (fun _ _ _ => rfl) hi ho (alu2At_subcy a b s) d

/-- Settles O37: each pair of constructors runs one function, whose bitwise result leaves C and V free. -/
theorem logicGpr : Obligations.LogicGpr := by
  unfold Obligations.LogicGpr
  intro s d src r v a b k nw f hmem hi ho
  simp only [List.mem_cons, List.not_mem_nil, or_false, Prod.mk.injEq] at hmem
  obtain ⟨rfl, rfl, rfl⟩ | ⟨rfl, rfl, rfl⟩ | ⟨rfl, rfl, rfl⟩ | ⟨rfl, rfl, rfl⟩ := hmem
  · exact exec_gpr_forms (fn := .and) (fun _ _ _ => rfl) (fun _ _ _ => rfl) hi ho (logic_eq_openFlags s _) d
  · exact exec_gpr_forms (fn := .andn) (fun _ _ _ => rfl) (fun _ _ _ => rfl) hi ho (logic_eq_openFlags s _) d
  · exact exec_gpr_forms (fn := .or) (fun _ _ _ => rfl) (fun _ _ _ => rfl) hi ho (logic_eq_openFlags s _) d
  · exact exec_gpr_forms (fn := .xor) (fun _ _ _ => rfl) (fun _ _ _ => rfl) hi ho (logic_eq_openFlags s _) d

end Sys2Proof.Machine
end

section
/-! Operands and branches not taken (R55, R56, R65, R90). -/

namespace Sys2Proof.Machine

/-- Settles O24: the immediate by the bytes pending, each operand by `src` from `A`, the GPR's data word and the immediate. -/
theorem operandFormation : Obligations.OperandFormation := by
  unfold Obligations.OperandFormation
  intro s r g i h l v
  refine ⟨rfl, rfl, rfl, rfl, ⟨0, rfl⟩, ⟨0, rfl⟩, rfl, rfl, fun hg => ?_⟩
  have hread : readGpr s r = .ok (readData s g) := readGpr_eq_ok.mpr ⟨g, hg, rfl⟩
  simp only [operands2, operand1, hread, andThen_ok, and_self]

section never

variable {s : State}

/-- A branch never taken and with no link writes nothing, in a delay slot and right after LDP or STP too (R146, R154). -/
theorem branch_never (rel : Bool) (t : Word) : branch false rel .never t s = .ok {} :=
  branch_eq_ok.mpr ⟨by simp, by simp, rfl⟩

theorem run_branchImm_never {i : BitVec 9} {t : Word} (rel : Bool) (h : immI s.immq i = .ok t) :
    run s (branchImm false rel .never i s) = .next s.advance := by
  rw [branchImm, absolute_of_immI h, branch_never, run_ok, commit_empty]

theorem run_branchX_never (rel : Bool) (hq : s.immq = []) (hx : s.hist.xLate = false) :
    run s (branchX false rel .never s) = .next s.advance := by
  rw [branchX, throughX_of_readIdx hq (readIdx_of_not_late hx), branch_never, run_ok, commit_empty]

/-- With at most one byte pending an immediate can be formed (R56). -/
theorem exists_immI_of_length_le_one {q : List Byte} (i : BitVec 9) (h : q.length ≤ 1) : ∃ v, immI q i = .ok v := by
  rcases q with - | ⟨b, - | ⟨c, q⟩⟩
  · exact ⟨_, rfl⟩
  · exact ⟨_, rfl⟩
  · simp at h

end never

/-- Settles O58: every form is a branch never taken, once its operand can be read. -/
theorem nopAndNeverBranches : Obligations.NopAndNeverBranches := by
  unfold Obligations.NopAndNeverBranches
  intro s
  refine ⟨fun hq => ?_, fun i v himm => ?_, fun hq hx => ?_⟩
  · obtain ⟨v, himm⟩ := exists_immI_of_length_le_one 0 hq
    exact run_branchImm_never false himm
  · exact ⟨run_branchImm_never false himm, run_branchImm_never true himm⟩
  · exact ⟨run_branchX_never false hq hx, run_branchX_never true hq hx⟩

end Sys2Proof.Machine
end

section
/-! The two-operand ALU in I-fmt (R70 to R83): one proof over the eight functions, then the result of each. -/

namespace Sys2Proof.Machine

section instruction

variable {s : State} {fn : Alu2Fn} {i : BitVec 9} {b : Word}

/-- With the result not written, only the flags change (R81). -/
theorem run_alu2Imm_noWrite (hi : immI s.immq i = .ok b) :
    run s (alu2Imm fn false i s) = .next { s.advance with flags := (alu2At fn (readA s) b s).2 } := by
  have heffect : alu2Imm fn false i s = .ok { flags := some (alu2At fn (readA s) b s).2 } :=
    alu2Imm_eq_ok.mpr ⟨b, hi, by simp, rfl⟩
  rw [heffect, run_ok, commit_flags_only]

/-- With the result written it goes to `A`, not right after LDP (R70, R178). -/
theorem run_alu2Imm_write (hi : immI s.immq i = .ok b) (hl : s.hist.lastProg ≠ some .load) :
    run s (alu2Imm fn true i s) =
      .next { s.advance with a := (alu2At fn (readA s) b s).1, flags := (alu2At fn (readA s) b s).2 } := by
  have heffect : alu2Imm fn true i s =
      .ok { a := some (alu2At fn (readA s) b s).1, flags := some (alu2At fn (readA s) b s).2 } :=
    alu2Imm_eq_ok.mpr ⟨b, hi, fun _ => hl, rfl⟩
  rw [heffect, run_ok, commit_writeA_flags]

/-- The two I-fmt forms of a function, of which `res` are the result and the flags: `k` writes the result, `nw` does not. -/
theorem exec_imm_forms {k nw : BitVec 9 → Instr} (hk : ∀ i, exec (k i) s = run s (alu2Imm fn true i s))
    (hnw : ∀ i, exec (nw i) s = run s (alu2Imm fn false i s)) (hi : immI s.immq i = .ok b) {res : Word × Flags}
    (hres : alu2At fn (readA s) b s = res) :
    (s.hist.lastProg ≠ some .load → exec (k i) s = .next { s.advance with a := res.1, flags := res.2 }) ∧
    exec (nw i) s = .next { s.advance with flags := res.2 } := by
  subst hres
  rw [hk, hnw]
  exact ⟨run_alu2Imm_write hi, run_alu2Imm_noWrite hi⟩

end instruction

/-- Settles O34: each pair of constructors runs one function, whose sum or difference is the exact one. -/
theorem arithmeticImmediate : Obligations.ArithmeticImmediate := by
  unfold Obligations.ArithmeticImmediate
  intro s i b k nw f hmem hi
  simp only [List.mem_cons, List.not_mem_nil, or_false, Prod.mk.injEq] at hmem
  obtain ⟨rfl, rfl, rfl⟩ | ⟨rfl, rfl, rfl⟩ | ⟨rfl, rfl, rfl⟩ | ⟨rfl, rfl, rfl⟩ := hmem
  · exact exec_imm_forms (fn := .add) (fun _ => rfl) (fun _ => rfl) hi (alu2At_add _ b s)
  · exact exec_imm_forms (fn := .addcy) (fun _ => rfl) (fun _ => rfl) hi (alu2At_addcy _ b s)
  · exact exec_imm_forms (fn := .sub) (fun _ => rfl) (fun _ => rfl) hi (alu2At_sub _ b s)
  · exact exec_imm_forms (fn := .subcy) (fun _ => rfl) (fun _ => rfl) hi (alu2At_subcy _ b s)

/-- Settles O36: each pair of constructors runs one function, whose bitwise result leaves C and V free. -/
theorem logicImmediate : Obligations.LogicImmediate := by
  unfold Obligations.LogicImmediate
  intro s i b k nw f hmem hi
  simp only [List.mem_cons, List.not_mem_nil, or_false, Prod.mk.injEq] at hmem
  obtain ⟨rfl, rfl, rfl⟩ | ⟨rfl, rfl, rfl⟩ | ⟨rfl, rfl, rfl⟩ | ⟨rfl, rfl, rfl⟩ := hmem
  · exact exec_imm_forms (fn := .and) (fun _ => rfl) (fun _ => rfl) hi (logic_eq_openFlags s _)
  · exact exec_imm_forms (fn := .andn) (fun _ => rfl) (fun _ => rfl) hi (logic_eq_openFlags s _)
  · exact exec_imm_forms (fn := .or) (fun _ => rfl) (fun _ => rfl) hi (logic_eq_openFlags s _)
  · exact exec_imm_forms (fn := .xor) (fun _ => rfl) (fun _ => rfl) hi (logic_eq_openFlags s _)

end Sys2Proof.Machine
end

section
/-! A comparison and the condition that an XCC takes from it (R79, R138). -/

namespace Sys2Proof.Machine

/-! ## The flags of a difference as orderings (R71) -/

section orderings

variable (a b : Word)

theorem exactSub_result : (exactSub a b 0).1 = b - a := BitVec.sub_zero (b - a)

theorem exactSub_z : (exactSub a b 0).2.z = decide (a = b) := by
  have hzero : (exactSub a b 0).2.z = decide ((exactSub a b 0).1 = 0) := rfl
  rw [hzero, exactSub_result, decide_eq_decide, sub_eq_zero, eq_comm]

theorem exactSub_c : (exactSub a b 0).2.c = decide (a.toNat ≤ b.toNat) := rfl

/-- The sign of the difference is wrong exactly when it overflows, so N = V says that the exact difference is not negative. -/
theorem exactSub_n_beq_v : ((exactSub a b 0).2.n == (exactSub a b 0).2.v) = decide (a.toInt ≤ b.toInt) := by
  have hn : (exactSub a b 0).2.n = (exactSub a b 0).1.msb := rfl
  have hv : (exactSub a b 0).2.v = decide ((exactSub a b 0).1.toInt ≠ b.toInt - a.toInt - (0 : Nat)) := rfl
  rw [hn, hv, exactSub_result, BitVec.msb_eq_toInt, BitVec.toInt_sub]
  have ha := BitVec.toInt_lt (x := a)
  have ha' := BitVec.le_toInt a
  have hb := BitVec.toInt_lt (x := b)
  have hb' := BitVec.le_toInt b
  rw [Bool.eq_iff_iff, beq_iff_eq, decide_eq_decide, decide_eq_true_eq, Int.bmod_def]
  split <;> omega

theorem exactSub_not_z_and_c : (!(exactSub a b 0).2.z && (exactSub a b 0).2.c) = decide (a.toNat < b.toNat) := by
  rw [exactSub_z, exactSub_c, Bool.eq_iff_iff]
  simp only [Bool.and_eq_true, Bool.not_eq_true', decide_eq_false_iff_not, decide_eq_true_eq, ← BitVec.toNat_inj]
  omega

theorem exactSub_not_z_and_n_beq_v :
    (!(exactSub a b 0).2.z && ((exactSub a b 0).2.n == (exactSub a b 0).2.v)) = decide (a.toInt < b.toInt) := by
  rw [exactSub_z, exactSub_n_beq_v, Bool.eq_iff_iff]
  simp only [Bool.and_eq_true, Bool.not_eq_true', decide_eq_false_iff_not, decide_eq_true_eq, ← BitVec.toInt_inj]
  omega

end orderings

/-! ## CMP and XCC -/

/-- XCC copies the condition of a code below 8 into Z and changes nothing else (R138). -/
theorem exec_xcc_of_immI {s : State} {i : BitVec 9} {v : Word} (hi : immI s.immq i = .ok v) (hv : v.toNat < 8) :
    exec (.xcc i) s = .next { s.advance with
      flags := { s.flags with z := extCond (v.extractLsb' 0 3) s.flags s.ioReqReady s.ioReadReady } } := by
  rw [exec_xcc, absolute_of_immI hi, xccOn, if_pos hv, run_ok, commit_flags_only]

/-- CMP in both formats: the flags of OpB - OpA and nothing else (R79). -/
theorem exec_cmp {s : State} {i : Instr} {a b : Word}
    (h : (∃ d src r v, i = .cmpG d src r ∧ imm2 src s.immq = .ok v ∧ operands2 src r v s = .ok (a, b)) ∨
      (∃ v, i = .cmpI v ∧ a = readA s ∧ immI s.immq v = .ok b)) :
    exec i s = .next { s.advance with flags := (exactSub a b 0).2 } := by
  rw [← alu2At_sub a b s]
  obtain ⟨d, src, r, v, rfl, hi, ho⟩ | ⟨v, rfl, rfl, hi⟩ := h
  · exact run_alu2Gpr_noWrite hi ho d
  · exact run_alu2Imm_noWrite hi

/-- Settles O38: CMP leaves the flags of OpB - OpA, and each condition on them is an ordering. -/
theorem compareThenConditions : Obligations.CompareThenConditions := by
  unfold Obligations.CompareThenConditions
  intro s i a b h
  refine ⟨_, exec_cmp h, exactSub_z a b, ⟨_, exec_xcc_of_immI (v := 4) rfl (by decide), ?_⟩,
    ⟨_, exec_xcc_of_immI (v := 5) rfl (by decide), ?_⟩, ⟨_, exec_xcc_of_immI (v := 6) rfl (by decide), ?_⟩,
    ⟨_, exec_xcc_of_immI (v := 7) rfl (by decide), ?_⟩⟩
  · exact exactSub_c a b
  · exact exactSub_n_beq_v a b
  · exact exactSub_not_z_and_c a b
  · exact exactSub_not_z_and_n_beq_v a b

end Sys2Proof.Machine
end

section
/-! The words that the spec writes out. -/

namespace Sys2Proof

/-- The word of a well-formed instruction decodes to it (R50, R58). -/
theorem decode_of_encode_eq {o : SpecialOpc} {i : Instr} {w : Word} (ho : o.distinct = true) (hi : i.wellFormed = true)
    (hw : encode o i = w) : decode o w = .ok i := by
  rw [← hw, decodeOfEncode o i ho hi]

/-- Settles O3: each word is the one that the instruction encodes to. -/
theorem specWordsDecode : Obligations.SpecWordsDecode := by
  unfold Obligations.SpecWordsDecode
  rintro o rfl
  have ho : Config.specialDefault.distinct = true := by decide
  and_intros <;> exact decode_of_encode_eq ho rfl rfl

end Sys2Proof
end

section
/-! Opcode 01xxxx outside G-fmt (R101). -/

namespace Sys2Proof

/-- Why a word with opcode 01xxxx outside G-fmt is no instruction: its sub op is reserved, or its format is not valid (R59, R61). -/
def oneOperandReject (f : BitVec 4) : IllegalEncoding := if reservedAlu1 f then .reservedOpcode else .formatNotValid

section formats

variable (o : SpecialOpc) (f : BitVec 4)

theorem decodeI_oneOperand (v : BitVec 9) : decodeI o (0b01#2 ++ f) v = .error (.illegal (oneOperandReject f)) := by
  obtain ⟨n, hn, rfl⟩ := exists_ofNat f
  interval_cases n <;> rfl

theorem decodeS_oneOperand (mod sel : BitVec 2) (k : BitVec 4) :
    decodeS o (0b01#2 ++ f) mod sel k = .error (.illegal (oneOperandReject f)) := by
  obtain ⟨n, hn, rfl⟩ := exists_ofNat f
  interval_cases n <;> rfl

end formats

/-- Bits 15:14 of a word are the class of its opcode (R57). -/
theorem opcodeOf_of_class {w : Word} {c : BitVec 2} (h : w.extractLsb' 14 2 = c) : opcodeOf w = c ++ w.extractLsb' 10 4 := by
  have hbits : w.extractLsb' 14 2 ++ w.extractLsb' 10 4 = opcodeOf w := BitVec.extractLsb'_append_extractLsb'_eq_extractLsb' rfl
  rw [← h, hbits]

theorem decode_oneOperand_not_gFmt (o : SpecialOpc) {w : Word} (hop : w.extractLsb' 14 2 = 0b01#2) (hg : fmtOf w ≠ 0b00#2) :
    decode o w = .error (.illegal (oneOperandReject (w.extractLsb' 10 4))) := by
  rw [decode, if_neg hg, opcodeOf_of_class hop]
  split
  · exact decodeS_oneOperand o _ _ _ _
  · exact decodeI_oneOperand o _ _

/-- Bits 9:8 are not 00 in a word of the S-fmt or of the I-fmt. -/
theorem fmtOf_ne_g {w : Word} (h : w.extractLsb' 8 2 = 0b01#2 ∨ w.getLsbD 9 = true) : fmtOf w ≠ 0b00#2 := by
  intro hg
  obtain hs | hi := h
  · exact absurd (hs.symm.trans hg) (by decide)
  · have hbit : (fmtOf w).getLsbD 1 = w.getLsbD 9 := BitVec.getLsbD_extractLsb' 8 2 w 1
    rw [hg, hi] at hbit
    exact absurd hbit (by decide)

namespace Machine

/-- Settles O5: the decoder rejects the word in both formats, and the step stops with that fault. -/
theorem oneOperandOtherFormatsAreIllegal : Obligations.OneOperandOtherFormatsAreIllegal := by
  unfold Obligations.OneOperandOtherFormatsAreIllegal
  intro s w hop hfmt hf
  exact ⟨_, step_of_decode_error hf (decode_oneOperand_not_gFmt s.params.special hop (fmtOf_ne_g hfmt))⟩

end Machine

end Sys2Proof
end

section
/-! The one-operand ALU (R90 to R102): the result and the carry of each function, then one proof over the ten functions. -/

namespace Sys2Proof.Machine

/-! ## Results: a shift by one that takes a given bit in -/

section results

variable (a : Word) (b : BitVec 1) (cin : Bool)

/-- A shift left by `n` drops the upper `n` bits: bit `i` of either side is bit `i - n` of `a`. -/
theorem lowBits_shiftLeft {n len : Nat} (h : len + n = 16) : (a.extractLsb' 0 len).zeroExtend 16 <<< n = a <<< n := by
  ext i hi
  grind

/-- A shift right by `n` keeps the other bits: bit `i` of either side is bit `n + i` of `a`. -/
theorem highBits_zeroExtend {n len : Nat} (h : n + len = 16) : (a.extractLsb' n len).zeroExtend 16 = a >>> n := by
  ext i hi
  grind

/-- A shift left by one with the bit `b` taken in at the bottom. -/
theorem low15_append_eq : a.extractLsb' 0 15 ++ b = a <<< 1 ||| b.zeroExtend 16 := by
  rw [← lowBits_shiftLeft a (len := 15) rfl, ← BitVec.setWidth_append_eq_shiftLeft_setWidth_or, BitVec.setWidth_eq]

/-- A shift right by one with the bit `b` taken in at the top. -/
theorem append_high15_eq : b ++ a.extractLsb' 1 15 = a >>> 1 ||| b.zeroExtend 16 <<< 15 := by
  rw [← highBits_zeroExtend a (len := 15) rfl, BitVec.or_comm, ← BitVec.setWidth_append_eq_shiftLeft_setWidth_or, BitVec.setWidth_eq]

theorem alu1Result_rol : alu1Result .rol a cin = a.rotateLeft 1 := by
  rw [alu1Result, low15_append_eq, highBits_zeroExtend a rfl, BitVec.rotateLeft_def]

theorem alu1Result_sl0 : alu1Result .sl0 a cin = a <<< 1 := by
  rw [alu1Result, low15_append_eq]
  exact BitVec.or_zero

theorem alu1Result_sl1 : alu1Result .sl1 a cin = a <<< 1 ||| 1 := low15_append_eq a 1#1

theorem alu1Result_slc : alu1Result .slc a cin = a <<< 1 ||| (BitVec.ofBool cin).zeroExtend 16 := low15_append_eq a _

theorem alu1Result_ror : alu1Result .ror a cin = a.rotateRight 1 := by
  rw [alu1Result, append_high15_eq, lowBits_shiftLeft a rfl, BitVec.rotateRight_def]

theorem alu1Result_sr0 : alu1Result .sr0 a cin = a >>> 1 := by
  rw [alu1Result, append_high15_eq]
  exact BitVec.or_zero

theorem alu1Result_sra : alu1Result .sra a cin = a >>> 1 ||| (a &&& 0x8000) := by
  have hsign : a >>> 15 <<< 15 = a &&& 0x8000 := BitVec.shiftLeft_ushiftRight
  rw [alu1Result, append_high15_eq, highBits_zeroExtend a rfl, hsign]

theorem alu1Result_src : alu1Result .src a cin = a >>> 1 ||| (BitVec.ofBool cin).zeroExtend 16 <<< 15 := append_high15_eq a _

end results

/-! ## The carry of INC and of DEC: that of a 17-bit sum (D9, log 19) -/

/-- The carry of a 17-bit sum is that of the exact sum. -/
theorem sum17_msb (a b : Word) (cin : Bool) : (sum17 a b cin).msb = decide (2 ^ 16 ≤ a.toNat + b.toNat + cin.toNat) :=
  congrArg (fun res => res.2.c) (arith_eq_exactAdd a b cin)

theorem alu1Carry_inc (a : Word) : alu1Carry .inc a = (a == 0xFFFF) := by
  rw [alu1Carry, sum17_msb, Bool.eq_iff_iff, decide_eq_true_eq, beq_iff_eq, ← BitVec.toNat_inj]
  have hlt := a.isLt
  have hone : (1 : Word).toNat = 1 := rfl
  have hmax : (0xFFFF : Word).toNat = 0xFFFF := rfl
  rw [hone, hmax, Bool.toNat_false]
  omega

theorem alu1Carry_dec (a : Word) : alu1Carry .dec a = (a != 0) := by
  rw [alu1Carry, sum17_msb, Bool.eq_iff_iff, decide_eq_true_eq, bne_iff_ne, Ne, ← BitVec.toNat_inj]
  have hlt := a.isLt
  have hmax : (0xFFFF : Word).toNat = 0xFFFF := rfl
  have hzero : (0 : Word).toNat = 0 := rfl
  rw [hmax, hzero, Bool.toNat_false]
  omega

/-! ## The instruction -/

/-- A store of a data word and a write of the flags, and nothing else. -/
theorem storedData_commit_flags (s : State) (g : Nat) (v : Word) (f : Flags) :
    StoredData s { s.advance with flags := f } (commit s { data := some (g, v), flags := some f }) g v := by
  rw [← commit_flags_only]
  exact storedData_commit_data rfl g v

section instruction

variable {s : State} {fn : Alu1Fn} {src : Src1} {r : Gpr} {a : Word}

/-- With `d` = 0 the result goes to `A`, not right after LDP (R90, R178). -/
theorem run_alu1Gpr_toA (hq : s.immq = []) (ho : operand1 src r s = .ok a) (hl : s.hist.lastProg ≠ some .load) :
    run s (alu1Gpr fn .a src r s) = .next { s.advance with a := (alu1At fn a s).1, flags := (alu1At fn a s).2 } := by
  have heffect : alu1Gpr fn .a src r s = .ok { a := some (alu1At fn a s).1, flags := some (alu1At fn a s).2 } :=
    alu1Gpr_eq_ok.mpr ⟨hq, fun _ => hl, a, _, ho, rfl, rfl⟩
  rw [heffect, run_ok, commit_writeA_flags]

/-- With `d` = 1 the result goes to the data word of the GPR (R55, R90). -/
theorem run_alu1Gpr_toGpr (hq : s.immq = []) (ho : operand1 src r s = .ok a) {g : Nat} (hg : gprAddr s r = .ok g) :
    ∃ t, run s (alu1Gpr fn .gpr src r s) = .next t ∧
      StoredData s { s.advance with flags := (alu1At fn a s).2 } t g (alu1At fn a s).1 := by
  have hdst : writeDst .gpr r (alu1At fn a s).1 s = .ok { data := some (g, (alu1At fn a s).1) } :=
    writeDst_eq_ok.mpr (.inr ⟨rfl, g, hg, rfl⟩)
  have heffect : alu1Gpr fn .gpr src r s = .ok { data := some (g, (alu1At fn a s).1), flags := some (alu1At fn a s).2 } :=
    alu1Gpr_eq_ok.mpr ⟨hq, by simp, a, _, ho, hdst, rfl⟩
  exact ⟨_, by rw [heffect, run_ok], storedData_commit_flags s g _ _⟩

/-- Both destinations of an instruction `k` that runs a function of result `v` and carry `c`; V is free (R91). -/
theorem exec_alu1_forms {k : Dst → Src1 → Gpr → Instr} (hk : ∀ d, exec (k d src r) s = run s (alu1Gpr fn d src r s))
    (hq : s.immq = []) (ho : operand1 src r s = .ok a) {v : Word} {c : Bool} (hv : alu1Result fn a s.flags.c = v)
    (hc : alu1Carry fn a = c) :
    (s.hist.lastProg ≠ some .load → exec (k .a src r) s = .next { s.advance with a := v, flags := openFlags s v c }) ∧
    ∀ g, gprAddr s r = .ok g →
      ∃ t, exec (k .gpr src r) s = .next t ∧ StoredData s { s.advance with flags := openFlags s v c } t g v := by
  subst hv hc
  simp only [hk]
  exact ⟨run_alu1Gpr_toA hq ho, fun _ hg => run_alu1Gpr_toGpr hq ho hg⟩

end instruction

/-- Settles O39: each constructor runs one function; only INC and DEC have a carry that is not a bit of the operand. -/
theorem oneOperand : Obligations.OneOperand := by
  unfold Obligations.OneOperand
  intro s src r a k f c hmem hq ho
  simp only [List.mem_cons, List.not_mem_nil, or_false, Prod.mk.injEq] at hmem
  obtain ⟨rfl, rfl, rfl⟩ | ⟨rfl, rfl, rfl⟩ | ⟨rfl, rfl, rfl⟩ | ⟨rfl, rfl, rfl⟩ | ⟨rfl, rfl, rfl⟩ |
    ⟨rfl, rfl, rfl⟩ | ⟨rfl, rfl, rfl⟩ | ⟨rfl, rfl, rfl⟩ | ⟨rfl, rfl, rfl⟩ | ⟨rfl, rfl, rfl⟩ := hmem
  · exact exec_alu1_forms (fun _ => exec_inc _ _ _ _) hq ho rfl (alu1Carry_inc a)
  · exact exec_alu1_forms (fun _ => exec_dec _ _ _ _) hq ho rfl (alu1Carry_dec a)
  · exact exec_alu1_forms (fun _ => exec_rol _ _ _ _) hq ho (alu1Result_rol a _) rfl
  · exact exec_alu1_forms (fun _ => exec_sl0 _ _ _ _) hq ho (alu1Result_sl0 a _) rfl
  · exact exec_alu1_forms (fun _ => exec_sl1 _ _ _ _) hq ho (alu1Result_sl1 a _) rfl
  · exact exec_alu1_forms (fun _ => exec_slc _ _ _ _) hq ho (alu1Result_slc a _) rfl
  · exact exec_alu1_forms (fun _ => exec_ror _ _ _ _) hq ho (alu1Result_ror a _) rfl
  · exact exec_alu1_forms (fun _ => exec_sr0 _ _ _ _) hq ho (alu1Result_sr0 a _) rfl
  · exact exec_alu1_forms (fun _ => exec_sra _ _ _ _) hq ho (alu1Result_sra a _) rfl
  · exact exec_alu1_forms (fun _ => exec_src _ _ _ _) hq ho (alu1Result_src a _) rfl

end Sys2Proof.Machine
end

section
/-! A use of `A` after LDP with one instruction between (R178, R180). -/

namespace Sys2Proof.Machine

/-- An instruction that writes nothing leaves no access behind that R177 to R179 could look back at. -/
@[simp] theorem advance_lastProg (s : State) : s.advance.hist.lastProg = none := rfl

/-- After an instruction that writes nothing `A` reads as it stands, whatever access came before that instruction (R178). -/
theorem readA_advance_tick (s : State) : readA s.advance.tick = s.a :=
  readA_of_not_late (by simp)

/-- Settles O33: the LDP puts the word in `A` and itself in the history; the NOP clears the history and keeps `A`. -/
theorem ldpThenNopThenUse : Obligations.LdpThenNopThenUse := by
  unfold Obligations.LdpThenNopThenUse
  intro s i v hq hl hread
  have himm : immI s.immq i = .ok (i.signExtend 16) := immI_eq_ok.mpr (.inl ⟨hq, rfl⟩)
  obtain ⟨hload, -⟩ := loadProgram s (i.signExtend 16) v hl hread
  exact ⟨_, _, hload i himm, exec_nop_of_nil rfl, readA_advance_tick _, rfl, advance_lastProg _⟩

end Sys2Proof.Machine
end

section
/-! Opcode 100111 (R124). -/

namespace Sys2Proof

section subOpEleven

variable (o : SpecialOpc)

/-! Each format's table has an entry of its own for sub op 11 of the IO class, before any operand field is looked at. -/

theorem decodeI_ioSubOpEleven (v : BitVec 9) : decodeI o 0b100111#6 v = .error (.illegal .reservedOpcode) := rfl

theorem decodeG_ioSubOpEleven (d : BitVec 1) (src : BitVec 2) (r : Gpr) :
    decodeG o 0b100111#6 d src r = .error (.illegal .reservedOpcode) := rfl

theorem decodeS_ioSubOpEleven (mod sel : BitVec 2) (k : BitVec 4) :
    decodeS o 0b100111#6 mod sel k = .error (.illegal .reservedOpcode) := rfl

/-- The rejection depends on the opcode alone: the split is over the three formats (R50). -/
theorem decode_ioSubOpEleven {w : Word} (hop : opcodeOf w = 0b100111#6) : decode o w = .error (.illegal .reservedOpcode) := by
  rw [decode, hop]
  split
  · exact decodeG_ioSubOpEleven o _ _ _
  · split
    · exact decodeS_ioSubOpEleven o _ _ _
    · exact decodeI_ioSubOpEleven o _

end subOpEleven

namespace Machine

/-- Settles O4: the decoder rejects the word in every format, and the step stops with that fault. -/
theorem ioSubOpElevenIsIllegal : Obligations.IoSubOpElevenIsIllegal := by
  unfold Obligations.IoSubOpElevenIsIllegal
  intro s w hop hf
  exact ⟨_, step_of_decode_error hf (decode_ioSubOpEleven s.params.special hop)⟩

end Machine

end Sys2Proof
end

section
/-! WIN and the access to a general register right after it (R132, R135, R182). -/

namespace Sys2Proof.Machine

/-- WIN and the swap commit the same two windows, from an operand `v`, the swap with a write of `A` beside them (R132, R135). -/
theorem exec_window {i : Instr} {k : BitVec 4} {s t : State} (hi : i = .win k ∨ i = .movsSwapMcsr k) (h : exec i s = .next t) :
    ∃ a v, t = commit s { a := a, winR := winNewR s k v, winS := winNewS s k v } := by
  obtain rfl | rfl := hi
  · obtain ⟨e, he, rfl⟩ := run_eq_next.mp h
    obtain ⟨-, rfl⟩ := movs_eq_ok.mp he
    exact ⟨none, _, rfl⟩
  · obtain ⟨e, he, rfl⟩ := run_eq_next.mp h
    obtain ⟨-, -, rfl⟩ := movsToA_eq_ok.mp he
    exact ⟨some _, _, rfl⟩

/-- A window operation marks the banks that it enables. -/
theorem windowMoved_commit_window (s : State) (a : Option Word) (k : BitVec 4) (v : Word) (b : Bank) :
    windowMoved (commit s { a := a, winR := winNewR s k v, winS := winNewS s k v }).tick b =
      if b = .r then k.getLsbD 3 else k.getLsbD 1 := by
  cases b with
  | r => exact winNewR_isSome s k v
  | s => exact winNewS_isSome s k v

/-! ## What an instruction does with a register it cannot reach -/

section moved

variable {s : State} {r : Gpr}

theorem readGpr_of_moved (hm : windowMoved s r.bank = true) : readGpr s r = .error (.hazard .gprAfterWin) := by
  rw [readGpr, gprAddr_of_moved hm, andThen_error]

theorem writeGpr_of_moved (hm : windowMoved s r.bank = true) (v : Word) : writeGpr s r v = .error (.hazard .gprAfterWin) := by
  rw [writeGpr, gprAddr_of_moved hm, andThen_error]

/-- A two-operand instruction without an immediate reads the register, wherever its result goes (R55). -/
theorem run_alu2Gpr_of_moved {fn : Alu2Fn} {w : Bool} {d : Dst} {src : Src2} (hsrc : src = .aGpr ∨ src = .gprA) (hq : s.immq = [])
    (hl : s.hist.lastProg ≠ some .load) (hm : windowMoved s r.bank = true) :
    run s (alu2Gpr fn w d src r s) = .fault (.hazard .gprAfterWin) := by
  have himm : imm2 src s.immq = .ok 0 := imm2_eq_ok.mpr (.inl ⟨hsrc, hq, rfl⟩)
  have hmay : (if w then mayWriteDst d s else .ok ()) = .ok () := by
    cases w with
    | false => rfl
    | true => exact mayWriteDst_eq_ok.mpr fun _ => hl
  have hop : operands2 src r 0 s = .error (.hazard .gprAfterWin) := by
    obtain rfl | rfl := hsrc <;> rw [operands2, readGpr_of_moved hm, andThen_error]
  rw [alu2Gpr, himm, andThen_ok, hmay, andThen_ok, hop, andThen_error, run_error]

/-- A one-operand instruction reads the register as its operand, or else writes it (R90). -/
theorem run_alu1Gpr_of_moved {fn : Alu1Fn} {d : Dst} {src : Src1} (hacc : src = .gpr ∨ d = .gpr) (hq : s.immq = [])
    (hl : s.hist.lastProg ≠ some .load) (hm : windowMoved s r.bank = true) :
    run s (alu1Gpr fn d src r s) = .fault (.hazard .gprAfterWin) := by
  have himm : immNone s.immq = .ok () := immNone_eq_ok.mpr hq
  have hmay : mayWriteDst d s = .ok () := mayWriteDst_eq_ok.mpr fun _ => hl
  rw [alu1Gpr, himm, andThen_ok, hmay, andThen_ok]
  cases src with
  | gpr => rw [operand1, readGpr_of_moved hm, andThen_error, run_error]
  | a =>
    obtain rfl : d = .gpr := hacc.resolve_left nofun
    rw [operand1, andThen_ok, writeDst, writeGpr_of_moved hm, andThen_error, run_error]

/-- With no byte pending and not right after LDP, nothing but the moved window can stop an access to a register of its bank. -/
theorem exec_of_moved {i : Instr} (hacc : i.gprAccess = some r) (hb : i.takesBytes 0 = true) (hq : s.immq = [])
    (hl : s.hist.lastProg ≠ some .load) (hm : windowMoved s r.bank = true) : exec i s = .fault (.hazard .gprAfterWin) := by
  have himm : immNone s.immq = .ok () := immNone_eq_ok.mpr hq
  cases i with
  | addNwG d src q | addcyNwG d src q | cmpG d src q | subcyNwG d src q | testG d src q | andnNwG d src q | orNwG d src q
  | xorNwG d src q | addG d src q | addcyG d src q | subG d src q | subcyG d src q | andG d src q | andnG d src q | orG d src q
  | xorG d src q =>
    cases src with
    | aGpr | gprA =>
      cases hacc
      exact run_alu2Gpr_of_moved (by decide) hq hl hm
    | aImm | gprImm => cases hb
  | inc d src q | dec d src q | rol d src q | sl0 d src q | sl1 d src q | slc d src q | ror d src q | sr0 d src q | sra d src q
  | src d src q =>
    obtain ⟨hread, hq'⟩ := Option.ite_none_right_eq_some.mp hacc
    cases hq'
    exact run_alu1Gpr_of_moved hread hq hl hm
  | movAReg q =>
    cases hacc
    rw [exec_movAReg, himm, andThen_ok, mayWriteA_of_not_late hl, andThen_ok, readGpr_of_moved hm, andThen_error, run_error]
  | movRegA q =>
    cases hacc
    rw [exec_movRegA, himm, andThen_ok, writeGpr_of_moved hm, run_error]
  | _ => cases hacc

end moved

/-- Settles O26: the window operation marks the bank, leaves no byte pending and is no LDP, so the access stops at the address. -/
theorem gprRightAfterWinStops : Obligations.GprRightAfterWinStops := by
  unfold Obligations.GprRightAfterWinStops
  intro i j k r s t hi h hacc hk hb
  obtain ⟨a, v, rfl⟩ := exec_window hi h
  exact exec_of_moved hacc hb rfl nofun ((windowMoved_commit_window s a k v r.bank).trans hk)

end Sys2Proof.Machine
end

section
/-! XCC with every code (R138). -/

namespace Sys2Proof.Machine

/-- The table of R138, by the code as a number. -/
theorem extCond_eq_getElem (k : Fin 8) (f : Flags) (reqReady readReady : Bool) :
    extCond ((BitVec.ofNat 16 k).extractLsb' 0 3) f reqReady readReady =
      [f.n, f.v, reqReady, readReady, f.c, f.n == f.v, !f.z && f.c, !f.z && (f.n == f.v)][k.val] := by
  fin_cases k <;> rfl

/-- XCC stops on a code of 8 or more (R138, D29). -/
theorem xccOn_of_le {s : State} {v : Word} (h : 8 ≤ v.toNat) : xccOn v s = .error (.unspecified .xccImmediate) := by
  rw [xccOn, if_neg (Nat.not_lt.mpr h)]

/-- Settles O55: the condition of a code below 8 is its entry of the table; a greater code stops. -/
theorem extendedConditions : Obligations.ExtendedConditions := by
  unfold Obligations.ExtendedConditions
  intro s i v hi
  constructor
  · intro k hk
    have hv : v = BitVec.ofNat 16 k := by rw [← hk, BitVec.ofNat_toNat, BitVec.setWidth_eq]
    rw [exec_xcc_of_immI hi (hk.trans_lt k.isLt), hv, extCond_eq_getElem]
  · intro hle
    rw [exec_xcc, absolute_of_immI hi, xccOn_of_le hle, run_error]

end Sys2Proof.Machine
end

section
/-! Moves to an index register, and the two instructions that take a constant (R131, R132, R136, R137). -/

namespace Sys2Proof.Machine

/-! ## The state after the write -/

/-- A write of an index register alone. -/
theorem commit_withIdx (s : State) (r : Idx) (v : Word) : commit s (withIdx {} r v) = s.advance.withIdxReg r v := by
  cases r with
  | x => exact commit_registers s none (some v) none none none none
  | y => exact commit_registers s none none (some v) none none none

/-- A write of an index register and of `A`. -/
theorem commit_withIdx_writeA (s : State) (r : Idx) (v a : Word) :
    commit s (withIdx { a := some a } r v) = { s.advance.withIdxReg r v with a := a } := by
  cases r with
  | x => exact commit_registers s (some a) (some v) none none none none
  | y => exact commit_registers s (some a) none (some v) none none none

/-- An appended byte is the one thing that stays pending (R22, R137). -/
theorem commit_imm (s : State) (b : Byte) : commit s { imm := some b } = { s.advance with immq := s.immq ++ [b] } := by
  rw [← commit_empty]
  rfl

/-! ## The instructions -/

/-- Settles O51: the move commits the index register, the exchange commits it beside `A`. -/
theorem movsWritesAndSwaps : Obligations.MovsWritesAndSwaps := by
  unfold Obligations.MovsWritesAndSwaps
  intro s r hq
  constructor
  · rw [exec_movsWrite, movs_of_nil hq, run_ok, commit_withIdx]
  · intro hl hx
    rw [exec_movsSwap, movsIdx_eq_ok.mpr ⟨hq, hx, hl, rfl⟩, run_ok, withIdx_withA, commit_withIdx_writeA, readA_of_not_late hl]

/-- IMM stops in a delay slot, unless two bytes are pending already (R155, D15). -/
theorem immPrefix_of_slot {s : State} (i : BitVec 9) (hq : s.immq.length < 2) (hs : s.hist.slot = true) :
    immPrefix i s = .error (.unspecified .immInDelaySlot) := by
  rw [immPrefix, if_neg (Nat.not_le.mpr hq), if_pos hs]

/-- Settles O54: LDI commits a write of `A`, IMM one byte. -/
theorem loadConstantAndPrefix : Obligations.LoadConstantAndPrefix := by
  unfold Obligations.LoadConstantAndPrefix
  intro s i
  refine ⟨fun v hl hi => ?_, fun hq hs => ?_, fun hq hs => ?_⟩
  · rw [exec_ldi, absolute_of_immI hi, mayWriteA_of_not_late hl, andThen_ok, run_ok, commit_writeA]
  · rw [exec_imm, immPrefix_eq_ok.mpr ⟨hq, hs, rfl⟩, run_ok, commit_imm]
  · rw [exec_imm, immPrefix_of_slot i hq hs, run_error]

end Sys2Proof.Machine
end

section
/-! Control flow (R145 to R156, R177): the branch at a target operand, then the instructions that run it. -/

namespace Sys2Proof.Machine

/-- Settles O59: each condition is a case of `condHolds`, and the parameters after reset have a `LINK_OFFSET` of 2. -/
theorem conditionsAndLink : Obligations.ConditionsAndLink := by
  unfold Obligations.ConditionsAndLink
  intro s z
  have hreset (hp : s.params = State.reset.params) : linkValue s = s.pc + 2 := by
    rw [linkValue, hp]
    rfl
  exact ⟨rfl, rfl, rfl, rfl, rfl, rfl, rfl, rfl, rfl, hreset⟩

/-! ## The state after a branch -/

section commit

variable (s : State) (link : Bool) (target : Word)

/-- A write of the link, or of nothing (R147). -/
theorem commit_link : commit s { x := if link then some (linkValue s) else none } = s.linked link := by
  cases link with
  | false => exact commit_empty s
  | true => exact commit_withIdx s .x (linkValue s)

/-- A taken branch with its delay slot: the next word runs first, marked as the slot (R145, R154). -/
theorem commit_link_delayed : commit s { x := if link then some (linkValue s) else none, flow := .delayed target } =
    { s.linked link with npc := target, hist := { (s.linked link).hist with slot := true } } := by
  rw [← commit_link]
  rfl

/-- A taken branch whose delay slot is lost: control is at the target, and no slot is marked (R156). -/
theorem commit_link_now : commit s { x := if link then some (linkValue s) else none, flow := .now target } =
    { s.linked link with pc := target, npc := target + 1 } := by
  rw [← commit_link]
  rfl

end commit

/-! ## The branch at a target operand -/

section branch

variable {s : State} {link rel : Bool} {cc : Cond} {t : Word}

theorem branchFlow_of_taken (hl : s.hist.lastProg = none) (target : Word) : branchFlow true target s = .delayed target := by
  simp [branchFlow, hl]

/-- Right after LDP or STP the delay slot is lost (R156, R177). -/
theorem branchFlow_of_taken_afterProg (hl : s.hist.lastProg ≠ none) (target : Word) : branchFlow true target s = .now target := by
  simp [branchFlow, Option.isSome_iff_ne_none, hl]

/-- Where neither a delay slot nor an LDP or STP before its link bars it, a branch answers the link and the flow. -/
theorem branch_of_allowed (hs : s.hist.slot = true → link = false ∧ cc = .never)
    (hl : (link && condHolds s.params.ccPolarity cc s.flags.z && s.hist.lastProg.isSome) = false) :
    branch link rel cc t s = .ok
      { x := if link then some (linkValue s) else none
        flow := branchFlow (condHolds s.params.ccPolarity cc s.flags.z) (branchTarget rel t s) s } := by
  have hslot : (s.hist.slot && (link || cc != .never)) = false := by
    cases h : s.hist.slot with
    | false => rfl
    | true =>
      obtain ⟨rfl, rfl⟩ := hs h
      rfl
  exact branch_eq_ok.mpr ⟨hslot, hl, rfl⟩

/-- Not taken, a branch still writes the link (R147). -/
theorem run_branch_of_not_taken (hs : s.hist.slot = true → link = false ∧ cc = .never)
    (hc : condHolds s.params.ccPolarity cc s.flags.z = false) : run s (branch link rel cc t s) = .next (s.linked link) := by
  rw [branch_of_allowed hs (by simp [hc]), run_ok, hc]
  exact congrArg _ (commit_link s link)

/-- Taken, a branch goes to its target after the delay slot (R145). -/
theorem run_branch_of_taken (hs : s.hist.slot = true → link = false ∧ cc = .never)
    (hc : condHolds s.params.ccPolarity cc s.flags.z = true) (hl : s.hist.lastProg = none) :
    run s (branch link rel cc t s) = .next { s.linked link with
      npc := branchTarget rel t s, hist := { (s.linked link).hist with slot := true } } := by
  rw [branch_of_allowed hs (by simp [hl]), run_ok, hc, branchFlow_of_taken hl, commit_link_delayed]

/-- Taken without a link right after LDP or STP, a branch is at its target at once (R156, R177). -/
theorem run_branch_of_taken_afterProg (hs : s.hist.slot = true → cc = .never)
    (hc : condHolds s.params.ccPolarity cc s.flags.z = true) (hl : s.hist.lastProg ≠ none) :
    run s (branch false rel cc t s) = .next { s.linked false with
      pc := branchTarget rel t s, npc := branchTarget rel t s + 1 } := by
  rw [branch_of_allowed (fun h => ⟨rfl, hs h⟩) rfl, run_ok, hc, branchFlow_of_taken_afterProg hl, commit_link_now]

/-- Taken with a link right after LDP or STP, a branch stops: the return address is not described (R177, log 23). -/
theorem branch_link_of_taken_afterProg (hs : s.hist.slot = false) (hc : condHolds s.params.ccPolarity cc s.flags.z = true)
    (hl : s.hist.lastProg ≠ none) : branch true rel cc t s = .error (.unspecified .linkAfterProg) := by
  simp [branch, mayLink, Option.isSome_iff_ne_none, hs, hc, hl]

/-- In a delay slot a branch with a link or a condition other than `never` stops, before its link is looked at (R154, log 55). -/
theorem branch_of_slot (hs : s.hist.slot = true) (hb : (link || cc != .never) = true) :
    branch link rel cc t s = .error (.unspecified .branchInDelaySlot) := by
  rw [branch, hs, hb]
  rfl

end branch

/-! ## The instructions -/

section instructions

variable {s : State} {cc : Cond} {t : Word}

theorem branchImm_of_immI {i : BitVec 9} (link rel : Bool) (cc : Cond) (hi : immI s.immq i = .ok t) :
    branchImm link rel cc i s = branch link rel cc t s := by
  rw [branchImm, absolute_of_immI hi]

theorem branchX_of_readIdx (link rel : Bool) (cc : Cond) (hq : s.immq = []) (hx : readIdx s .x = .ok t) :
    branchX link rel cc s = branch link rel cc t s := by
  rw [branchX, throughX_of_readIdx hq hx]

/-- What runs the branch at `t` does what R145, R147 and R156 say: not taken, taken, and taken with its slot lost. -/
theorem branch_outcomes {link rel : Bool} {o : Host.Outcome State Fault Refusal} (ho : o = run s (branch link rel cc t s))
    (hs : s.hist.slot = true → link = false ∧ cc = .never) :
    (condHolds s.params.ccPolarity cc s.flags.z = false → o = .next (s.linked link)) ∧
    (condHolds s.params.ccPolarity cc s.flags.z = true → s.hist.lastProg = none →
      o = .next { s.linked link with npc := branchTarget rel t s, hist := { (s.linked link).hist with slot := true } }) ∧
    (condHolds s.params.ccPolarity cc s.flags.z = true → s.hist.lastProg ≠ none → link = false →
      o = .next { s.linked link with pc := branchTarget rel t s, npc := branchTarget rel t s + 1 }) := by
  subst ho
  refine ⟨run_branch_of_not_taken hs, run_branch_of_taken hs, fun hc hl hlink => ?_⟩
  subst hlink
  exact run_branch_of_taken_afterProg (fun h => (hs h).2) hc hl

end instructions

/-- Settles O56: each constructor runs the branch at its immediate. -/
theorem branchImmediate : Obligations.BranchImmediate := by
  unfold Obligations.BranchImmediate
  intro s k link rel cc i t hmem hi hs
  have hrun : exec (k cc i) s = run s (branchImm link rel cc i s) := by
    simp only [List.mem_cons, List.not_mem_nil, or_false, Prod.mk.injEq] at hmem
    obtain ⟨rfl, rfl, rfl⟩ | ⟨rfl, rfl, rfl⟩ | ⟨rfl, rfl, rfl⟩ | ⟨rfl, rfl, rfl⟩ := hmem <;> rfl
  rw [branchImm_of_immI link rel cc hi] at hrun
  exact branch_outcomes hrun hs

/-- Settles O57: each constructor runs the branch at the value `X` had. -/
theorem branchThroughX : Obligations.BranchThroughX := by
  unfold Obligations.BranchThroughX
  intro s k link rel cc t hmem hq hx hs
  have hrun : exec (k cc) s = run s (branchX link rel cc s) := by
    simp only [List.mem_cons, List.not_mem_nil, or_false, Prod.mk.injEq] at hmem
    obtain ⟨rfl, rfl, rfl⟩ | ⟨rfl, rfl, rfl⟩ | ⟨rfl, rfl, rfl⟩ | ⟨rfl, rfl, rfl⟩ := hmem <;> rfl
  rw [branchX_of_readIdx link rel cc hq hx] at hrun
  exact branch_outcomes hrun hs

/-! ## In a delay slot (R154) -/

theorem run_branchImm_of_slot {s : State} {link : Bool} {cc : Cond} {i : BitVec 9} (rel : Bool) (hs : s.hist.slot = true)
    (hb : (link || cc != .never) = true) (hq : s.immq.length ≤ 1) :
    run s (branchImm link rel cc i s) = .fault (.unspecified .branchInDelaySlot) := by
  obtain ⟨t, hi⟩ := exists_immI_of_length_le_one i hq
  rw [branchImm_of_immI link rel cc hi, branch_of_slot hs hb, run_error]

theorem run_branchX_of_slot {s : State} {link : Bool} {cc : Cond} (rel : Bool) (hs : s.hist.slot = true)
    (hb : (link || cc != .never) = true) (hq : s.immq = []) (hx : s.hist.xLate = false) :
    run s (branchX link rel cc s) = .fault (.unspecified .branchInDelaySlot) := by
  rw [branchX_of_readIdx link rel cc hq (readIdx_of_not_late hx), branch_of_slot hs hb, run_error]

/-- Settles O60: a barred form has a link or a condition other than `never`, and its operand can be read. -/
theorem branchInDelaySlotStops : Obligations.BranchInDelaySlotStops := by
  unfold Obligations.BranchInDelaySlotStops
  intro i s hs hb hx hq
  have hle : s.immq.length ≤ 1 := by
    obtain hq | ⟨-, hq⟩ := hq
    · simp [hq]
    · exact hq.le
  cases i with
  | ba cc v => exact run_branchImm_of_slot false hs hb hle
  | br cc v => exact run_branchImm_of_slot true hs hb hle
  | bal cc v => exact run_branchImm_of_slot false hs rfl hle
  | brl cc v => exact run_branchImm_of_slot true hs rfl hle
  | bax cc => exact run_branchX_of_slot false hs hb (hq.resolve_right nofun) (hx rfl)
  | brx cc => exact run_branchX_of_slot true hs hb (hq.resolve_right nofun) (hx rfl)
  | balx cc => exact run_branchX_of_slot false hs rfl (hq.resolve_right nofun) (hx rfl)
  | brlx cc => exact run_branchX_of_slot true hs rfl (hq.resolve_right nofun) (hx rfl)
  | _ => cases hb

/-! ## Right after LDP or STP (R177) -/

/-- STP stores one program word and is remembered as the access just done (R106, R179). -/
theorem exec_stp {i : Instr} {s t : State} (hi : (∃ v, i = .stpI v) ∨ i = .stpX) (h : exec i s = .next t) :
    ∃ w, t = commit s { stp := some w, prog := some .store } := by
  rcases hi with ⟨v, rfl⟩ | rfl
  · obtain ⟨e, he, rfl⟩ := run_eq_next.mp h
    obtain ⟨ea, -, he⟩ := andThen_eq_ok.mp he
    obtain ⟨-, -, rfl⟩ := storeProg_eq_ok.mp he
    exact ⟨_, rfl⟩
  · obtain ⟨e, he, rfl⟩ := run_eq_next.mp h
    obtain ⟨-, -, he⟩ := andThen_eq_ok.mp he
    obtain ⟨ea, -, he⟩ := andThen_eq_ok.mp he
    obtain ⟨-, -, rfl⟩ := storeProg_eq_ok.mp he
    exact ⟨_, rfl⟩

/-- LDP and STP leave the access in the history, and for the rest nothing that bars a branch from reading its operand. -/
theorem state_after_prog {i : Instr} {s t : State} (hi : i.isProg = true) (h : exec i s = .next t) :
    t.hist.lastProg ≠ none ∧ t.hist.slot = false ∧ t.hist.xLate = false ∧ t.immq = [] := by
  cases i with
  | ldpI v =>
    obtain ⟨w, rfl⟩ := exec_ldp (.inl ⟨v, rfl⟩) h
    exact ⟨nofun, rfl, rfl, rfl⟩
  | ldpX =>
    obtain ⟨w, rfl⟩ := exec_ldp (.inr rfl) h
    exact ⟨nofun, rfl, rfl, rfl⟩
  | stpI v =>
    obtain ⟨w, rfl⟩ := exec_stp (.inl ⟨v, rfl⟩) h
    exact ⟨nofun, rfl, rfl, rfl⟩
  | stpX =>
    obtain ⟨w, rfl⟩ := exec_stp (.inr rfl) h
    exact ⟨nofun, rfl, rfl, rfl⟩
  | _ => cases hi

/-- Settles O29: the access is in the history of the branch, which reads its operand and then stops at its link or loses its
slot. -/
theorem linkRightAfterProgramAccessStops : Obligations.LinkRightAfterProgramAccessStops := by
  unfold Obligations.LinkRightAfterProgramAccessStops
  intro i s t cc v hi h hc
  obtain ⟨hl, hs, hx, hq⟩ := state_after_prog hi h
  have himm (link rel : Bool) : branchImm link rel cc v t.tick = branch link rel cc (v.signExtend 16) t.tick :=
    branchImm_of_immI link rel cc (immI_eq_ok.mpr (.inl ⟨hq, rfl⟩))
  have hthrough (link rel : Bool) : branchX link rel cc t.tick = branch link rel cc t.x t.tick :=
    branchX_of_readIdx (s := t.tick) link rel cc hq (readIdx_of_not_late hx)
  have hlink (rel : Bool) (w : Word) : run t.tick (branch true rel cc w t.tick) = .fault (.unspecified .linkAfterProg) := by
    rw [branch_link_of_taken_afterProg (s := t.tick) hs hc hl, run_error]
  have hlost (w : Word) : ∃ u, run t.tick (branch false false cc w t.tick) = .next u ∧ u.pc = w ∧ u.npc = w + 1 :=
    ⟨_, run_branch_of_taken_afterProg (s := t.tick) (by simp [hs]) hc hl, rfl, rfl⟩
  simp only [exec_bal, exec_brl, exec_balx, exec_brlx, exec_ba, exec_bax, himm, hthrough]
  exact ⟨hlink _ _, hlink _ _, hlink _ _, hlink _ _, hlost _, hlost _⟩

end Sys2Proof.Machine
end

section
/-! LDP and STP right after another of them (R179), and what the helpers of the hazard rules read inside and outside their
windows (R175, R176, R178). -/

namespace Sys2Proof.Machine

/-! ## A second access (R179) -/

section consecutive

variable {s : State} (hl : s.hist.lastProg ≠ none)

include hl

theorem notConsecutive_of_ne_none : notConsecutive s = .error (.hazard .consecutiveProg) := by
  simp [notConsecutive, Option.isSome_iff_ne_none, hl]

theorem loadProg_of_consecutive (ea : Word) : loadProg ea s = .error (.hazard .consecutiveProg) := by
  rw [loadProg, notConsecutive_of_ne_none hl, andThen_error]

theorem storeProg_of_consecutive (ea : Word) : storeProg ea s = .error (.hazard .consecutiveProg) := by
  rw [storeProg, notConsecutive_of_ne_none hl, andThen_error]

/-- Right after LDP or STP an LDP or STP whose operand can be read stops, before it looks at memory. -/
theorem exec_prog_of_consecutive {j : Instr} (hj : j.isProg = true) (hq : s.immq = []) (hx : s.hist.xLate = false) :
    exec j s = .fault (.hazard .consecutiveProg) := by
  have himm (v : BitVec 9) : immI s.immq v = .ok (v.signExtend 16) := immI_eq_ok.mpr (.inl ⟨hq, rfl⟩)
  have hread : readIdx s .x = .ok s.x := readIdx_of_not_late hx
  cases j with
  | ldpI v => rw [exec_ldpI, absolute_of_immI (himm v), loadProg_of_consecutive hl, run_error]
  | ldpX => rw [exec_ldpX, throughX_of_readIdx hq hread, loadProg_of_consecutive hl, run_error]
  | stpI v => rw [exec_stpI, absolute_of_immI (himm v), storeProg_of_consecutive hl, run_error]
  | stpX => rw [exec_stpX, throughX_of_readIdx hq hread, storeProg_of_consecutive hl, run_error]
  | _ => cases hj

end consecutive

/-- Settles O44: the first access is in the history of the second, whose operand nothing else bars. -/
theorem backToBackProgramAccessesStop : Obligations.BackToBackProgramAccessesStop := by
  unfold Obligations.BackToBackProgramAccessesStop
  intro i j s t hi hj h
  obtain ⟨hl, -, hx, hq⟩ := state_after_prog hi h
  exact exec_prog_of_consecutive (s := t.tick) hl hj hq hx

/-! ## The reads of the hazard rules -/

/-- Right after LDP `A` reads as a free value (R178, log 22). -/
theorem readA_of_late {s : State} (h : s.hist.lastProg = some .load) : readA s = Config.freeWord s.freeCount .aAfterLdp := by
  rw [readA, if_pos h]

/-- Settles O31: each clause is one branch of a read. -/
theorem hazardReads : Obligations.HazardReads := by
  unfold Obligations.HazardReads
  intro s r a
  exact ⟨fun h => ⟨readA_of_late h, mayWriteA_of_late h⟩, fun h => ⟨readA_of_not_late h, mayWriteA_of_not_late h⟩,
    readIdx_of_late, readIdx_of_not_late, readData_of_eq, readData_of_ne⟩

end Sys2Proof.Machine
end

section
/-! The launch state (R171 to R173): the image as cells, and the invariant. -/

namespace Sys2Proof.Machine

/-! ## The image as cells -/

/-- No word is listed below the first address. -/
theorem cellGet_of_lt_risingFrom {lo a : Nat} {m : Cells} (h : risingFrom lo m = true) (ha : a < lo) : cellGet m a = none := by
  induction m generalizing lo with
  | nil => rfl
  | cons c m ih =>
    obtain ⟨b, u⟩ := c
    simp only [risingFrom, Bool.and_eq_true, decide_eq_true_eq] at h
    obtain ⟨hlo, hm⟩ := h
    rw [cellGet, if_neg (by omega), ih hm (by omega)]

theorem risingFrom_filter {lo : Nat} {m : Cells} (p : Nat × Word → Bool) (h : risingFrom lo m = true) :
    risingFrom lo (m.filter p) = true := by
  induction m generalizing lo with
  | nil => rfl
  | cons c m ih =>
    simp only [risingFrom, Bool.and_eq_true, decide_eq_true_eq] at h
    obtain ⟨hlo, hm⟩ := h
    rw [List.filter_cons]
    split
    · simpa [risingFrom, hlo] using ih hm
    · exact risingFrom_mono (by omega) (ih hm)

/-- In data RAM the image is listed but for its words that read as unlisted ones. -/
theorem imageData_eq_filter (ws : List Word) (lo : Nat) :
    imageData lo ws = (imageCells lo ws).filter fun c => c.2 != unlistedData := by
  induction ws generalizing lo with
  | nil => rfl
  | cons w ws ih =>
    rw [imageData, imageCells, List.filter_cons, ih]
    split <;> simp_all

theorem risingFrom_imageCells (ws : List Word) (lo : Nat) : risingFrom lo (imageCells lo ws) = true := by
  induction ws generalizing lo with
  | nil => rfl
  | cons w ws ih => simp [imageCells, risingFrom, ih]

theorem risingFrom_imageData (ws : List Word) (lo : Nat) : risingFrom lo (imageData lo ws) = true :=
  imageData_eq_filter ws lo ▸ risingFrom_filter _ (risingFrom_imageCells ws lo)

theorem noZero_imageData (ws : List Word) (lo : Nat) : noZero (imageData lo ws) = true := by
  rw [imageData_eq_filter, noZero, List.all_eq_true]
  exact fun c hc => (List.mem_filter.mp hc).2

theorem below_imageCells {n : Nat} (ws : List Word) (lo : Nat) (h : lo + ws.length ≤ n) : below n (imageCells lo ws) = true := by
  induction ws generalizing lo with
  | nil => rfl
  | cons w ws ih =>
    rw [List.length_cons] at h
    have hrest : below n (imageCells (lo + 1) ws) = true := ih (lo + 1) (by omega)
    have hlo : lo < n := by omega
    simpa [imageCells, below, hlo] using hrest

theorem below_imageData {n : Nat} (ws : List Word) (lo : Nat) (h : lo + ws.length ≤ n) : below n (imageData lo ws) = true := by
  rw [imageData_eq_filter, below, List.all_eq_true]
  exact fun c hc => List.all_eq_true.mp (below_imageCells ws lo h) c (List.mem_of_mem_filter hc)

/-- Every word of the image is listed at its place. -/
theorem cellGet_imageCells (ws : List Word) (lo k : Nat) : cellGet (imageCells lo ws) (lo + k) = ws[k]? := by
  induction ws generalizing lo k with
  | nil => rfl
  | cons w ws ih =>
    cases k with
    | zero => simp [imageCells, cellGet]
    | succ k =>
      rw [imageCells, cellGet, if_neg (by omega), show lo + (k + 1) = lo + 1 + k by omega, ih, List.getElem?_cons_succ]

/-- In data RAM every word of the image reads at its place, listed or not. -/
theorem cellGet_imageData_getD (ws : List Word) (lo k : Nat) :
    (cellGet (imageData lo ws) (lo + k)).getD unlistedData = ws[k]?.getD unlistedData := by
  induction ws generalizing lo k with
  | nil => rfl
  | cons w ws ih =>
    cases k with
    | zero =>
      rw [imageData]
      split
      · next hw => simp [cellGet_of_lt_risingFrom (risingFrom_imageData ws (lo + 1)), hw]
      · simp [cellGet]
    | succ k =>
      have hrest := ih (lo + 1) k
      rw [show lo + 1 + k = lo + (k + 1) by omega] at hrest
      rw [imageData, List.getElem?_cons_succ, ← hrest]
      split
      · rfl
      · rw [cellGet, if_neg (by omega)]

/-! ## The launch state -/

section launch

variable (image : List Word)

theorem launch_sram : (State.launch image).mem.sram = imageCells 0 (image.take Config.dataWords) := rfl

theorem launch_data : (State.launch image).mem.data = imageData 0 (image.take Config.dataWords) := rfl

/-- The launch state differs from the reset state, which meets the invariant, in no item of it but the memories. -/
theorem launch_inv : (State.launch image).inv = true := by
  have hlen : 0 + (image.take Config.dataWords).length ≤ Config.dataWords := by
    rw [Nat.zero_add]
    exact List.length_take_le _ _
  have hwf : (State.launch image).mem.wf = true := by
    simp only [Memory.wf, Bool.and_eq_true]
    exact ⟨⟨⟨risingFrom_imageData _ _, noZero_imageData _ _⟩, risingFrom_imageCells _ _⟩, rfl⟩
  have hle : Config.dataWords ≤ Config.progWords := by decide
  have hwithin : (State.launch image).mem.within (State.launch image).params = true := by
    simp only [Memory.within, Bool.and_eq_true]
    exact ⟨⟨below_imageData _ _ hlen, below_imageCells _ _ (hlen.trans hle)⟩, rfl⟩
  have hreset : State.reset.inv = true := by decide
  obtain ⟨hparams, -, -, hwin, hq, hstp, hwritten⟩ := inv_iff.mp hreset
  exact inv_iff.mpr ⟨hparams, hwf, hwithin, hwin, hq, hstp, hwritten⟩

/-- With the `BOOT_ADDR` of log 7 the boot ROM hides no place of the image. -/
theorem progMap_launch {k : Nat} (hk : k < Config.dataWords) :
    progMap (State.launch image).params (BitVec.ofNat 16 k) = .sram k := by
  have hdw : Config.dataWords = 256 := rfl
  have hn : (BitVec.ofNat 16 k).toNat = k := by
    rw [BitVec.toNat_ofNat]
    exact Nat.mod_eq_of_lt (by omega)
  have hboot : (State.launch image).params.bootAddr.toNat = 0x8000 := rfl
  have hprog : (State.launch image).params.progWords = 16384 := rfl
  rw [progMap_of_mem_sram (by omega) (by omega), hn]

end launch

/-- Settles O11: the image as cells is rising and short enough, and both copies list it from address 0. -/
theorem launchMeetsInvariant : Obligations.LaunchMeetsInvariant := by
  unfold Obligations.LaunchMeetsInvariant
  intro image
  refine ⟨launch_inv image, rfl, rfl, rfl, fun k hk hlt => ?_⟩
  have hword : (image.take Config.dataWords)[k]? = some image[k] := by
    rw [Config.dataWords, List.getElem?_take_of_lt hlt, List.getElem?_eq_getElem hk]
  have hsram : cellGet (State.launch image).mem.sram k = some image[k] := by
    simpa [launch_sram, hword] using cellGet_imageCells (image.take Config.dataWords) 0 k
  have hdata : (State.launch image).mem.dataGet k = image[k] := by
    simpa [Memory.dataGet, launch_data, hword] using cellGet_imageData_getD (image.take Config.dataWords) 0 k
  refine ⟨fetchAt_of_written ?_, hdata⟩
  rw [progCell_of_sram (progMap_launch image hlt), hsram]

end Sys2Proof.Machine
end

section
/-! The end of a run (R174): two steps of it come back to it, and so does every number of them. -/

namespace Sys2Proof.Machine

/-! ## Runs -/

theorem reaches_zero (s : State) : Reaches s 0 s := rfl

/-- A machine whose step goes on runs from the next state. -/
theorem core_run_succ_of_next {M : Host.Core} {s u : M.State} {k : Nat} (hs : M.step s = .next u) : M.run (k + 1) s = M.run k u := by
  rw [Host.Core.run, hs]

/-- A run goes on if its first step does. -/
theorem reaches_succ {s u t : State} {k : Nat} (hs : step s = .next u) (h : Reaches u k t) : Reaches s (k + 1) t :=
  (core_run_succ_of_next (M := Sys2Proof.core) hs).trans h

/-- With no fetch hazard an instruction that goes on is a step, with the IO agent's turn after it. -/
theorem step_of_exec_next {s u : State} {w : Word} {i : Instr} (hf : fetch s = .ok w) (hd : decode s.params.special w = .ok i)
    (hz : some s.pc ∉ s.hist.stpAddrs) (he : exec i s = .next u) : step s = .next u.tick :=
  step_eq_next.mpr ⟨w, i, u, hf, hd, Bool.eq_false_iff.mpr (mt fetchHazard_iff.mp hz), he, rfl⟩

/-! ## The loop -/

/-- The end of a run as its clauses. -/
theorem halted_iff {s : State} {h : Word} : s.halted h = true ↔ s.pc = h ∧ s.immq = [] ∧
    (∃ w i, fetchAt s h = .ok w ∧ decode s.params.special w = .ok (.ba .always i) ∧ i.signExtend 16 = h) ∧
    fetchAt s (h + 1) = .ok 0xC200#16 := by
  unfold State.halted
  constructor
  · intro hh
    simp only [Bool.and_eq_true, decide_eq_true_eq, List.isEmpty_iff] at hh
    obtain ⟨⟨hpc, hq⟩, hloop⟩ := hh
    split at hloop
    · next w w' hw hw' =>
      simp only [Bool.and_eq_true, decide_eq_true_eq] at hloop
      obtain ⟨rfl, hba⟩ := hloop
      split at hba
      · next i hi => exact ⟨hpc, hq, ⟨w, i, hw, hi, by simpa using hba⟩, hw'⟩
      · cases hba
    · cases hloop
  · rintro ⟨hpc, hq, ⟨w, i, hw, hi, hto⟩, hnop⟩
    simp only [hpc, hq, hw, hnop, hi, hto, List.isEmpty_nil, eq_self, decide_true, Bool.and_true]

/-- A state from which the loop of R174 starts over: at the end of a run, with nothing left behind that the two words heed. -/
structure AtHalt (h : Word) (s : State) : Prop where
  halted : s.halted h = true
  npc : s.npc = h + 1
  slot : s.hist.slot = false
  lastProg : s.hist.lastProg = none
  fresh : some h ∉ s.hist.stpAddrs
  freshNext : some (h + 1) ∉ s.hist.stpAddrs

/-- What a program can see of the state, but for the IO side, which goes on changing (R174). -/
structure SameView (s t : State) : Prop where
  a : t.a = s.a
  x : t.x = s.x
  y : t.y = s.y
  flags : t.flags = s.flags
  winR : t.winR = s.winR
  winS : t.winS = s.winS
  mem : t.mem = s.mem
  ioLog : t.ioLog = s.ioLog

theorem SameView.refl (s : State) : SameView s s := ⟨rfl, rfl, rfl, rfl, rfl, rfl, rfl, rfl⟩

theorem SameView.trans {s t u : State} (h : SameView s t) (k : SameView t u) : SameView s u :=
  ⟨k.a.trans h.a, k.x.trans h.x, k.y.trans h.y, k.flags.trans h.flags, k.winR.trans h.winR, k.winS.trans h.winS, k.mem.trans h.mem,
    k.ioLog.trans h.ioLog⟩

/-- `s` after a branch to `h` that wrote nothing else: the next word is its delay slot (R145, R148). -/
def State.branched (s : State) (h : Word) : State :=
  { s.advance with npc := h, hist := { s.advance.hist with slot := true } }

/-- BA always goes to its address after the delay slot (R148). -/
theorem exec_ba_always {s : State} {i : BitVec 9} (hq : s.immq = []) (hs : s.hist.slot = false) (hl : s.hist.lastProg = none) :
    exec (.ba .always i) s = .next (s.branched (i.signExtend 16)) := by
  have hi : immI s.immq i = .ok (i.signExtend 16) := immI_eq_ok.mpr (.inl ⟨hq, rfl⟩)
  rw [exec_ba, branchImm_of_immI false false .always hi, run_branch_of_taken (by simp [hs]) rfl hl]
  rfl

theorem decode_nop (o : SpecialOpc) : decode o 0xC200#16 = .ok .nop := rfl

/-- An instruction that stores no program word adds none to the history of stores (R44). -/
theorem not_mem_advance_stpAddrs {s : State} {a : Word} (h : some a ∉ s.hist.stpAddrs) : some a ∉ s.advance.hist.stpAddrs := by
  intro hmem
  have hcons : some a ∈ none :: s.hist.stpAddrs := List.mem_of_mem_take hmem
  simp [h] at hcons

/-- The two words of the loop, one step each: the branch, then the NOP in its delay slot. -/
theorem AtHalt.steps {h : Word} {s : State} (hs : AtHalt h s) :
    step s = .next (s.branched h).tick ∧ step (s.branched h).tick = .next (s.branched h).tick.advance.tick := by
  obtain ⟨hpc, hq, ⟨w, i, hw, hd, hto⟩, hnop⟩ := halted_iff.mp hs.halted
  have hpc' : (s.branched h).tick.pc = h + 1 := hs.npc
  constructor
  · refine step_of_exec_next (by rw [fetch, hpc, hw]) hd (hpc ▸ hs.fresh) ?_
    rw [exec_ba_always hq hs.slot hs.lastProg, hto]
  · refine step_of_exec_next (w := 0xC200#16) ?_ (decode_nop _) ?_ (exec_nop_of_nil rfl)
    · rw [fetch, hpc']
      exact hnop
    · rw [hpc']
      exact not_mem_advance_stpAddrs hs.freshNext

/-- After the two steps the loop starts over. -/
theorem AtHalt.again {h : Word} {s : State} (hs : AtHalt h s) : AtHalt h (s.branched h).tick.advance.tick where
  halted := by
    obtain ⟨-, -, hloop⟩ := halted_iff.mp hs.halted
    exact halted_iff.mpr ⟨rfl, rfl, hloop⟩
  npc := rfl
  slot := rfl
  lastProg := rfl
  fresh := not_mem_advance_stpAddrs (s := (s.branched h).tick) (not_mem_advance_stpAddrs hs.fresh)
  freshNext := not_mem_advance_stpAddrs (s := (s.branched h).tick) (not_mem_advance_stpAddrs hs.freshNext)

theorem sameView_branched_advance (s : State) (h : Word) : SameView s (s.branched h).tick.advance.tick :=
  ⟨rfl, rfl, rfl, rfl, rfl, rfl, rfl, rfl⟩

/-- The loop goes on for any number of rounds. -/
theorem AtHalt.rounds {h : Word} {s : State} (hs : AtHalt h s) (n : Nat) : ∃ t, Reaches s (2 * n) t ∧ AtHalt h t ∧ SameView s t := by
  induction n generalizing s with
  | zero => exact ⟨s, reaches_zero s, hs, .refl s⟩
  | succ n ih =>
    obtain ⟨hba, hnop⟩ := hs.steps
    obtain ⟨t, hreach, ht, hview⟩ := ih hs.again
    exact ⟨t, reaches_succ hba (reaches_succ hnop hreach), ht, (sameView_branched_advance s h).trans hview⟩

/-- Settles O13, by induction on the rounds of the loop. -/
theorem haltedLoopGoesOn : Obligations.HaltedLoopGoesOn := by
  unfold Obligations.HaltedLoopGoesOn
  intro s h n hhalt hnpc hslot hlast hfresh hnext
  obtain ⟨t, hreach, ht, hv⟩ := AtHalt.rounds ⟨hhalt, hnpc, hslot, hlast, hfresh, hnext⟩ n
  exact ⟨t, hreach, ht.halted, ht.npc, hv.a, hv.x, hv.y, hv.flags, hv.winR, hv.winS, hv.mem, hv.ioLog, ht.slot, ht.lastProg, ht.fresh,
    ht.freshNext⟩

end Sys2Proof.Machine
end
